-- ==== Sys2Proof/Word.lean ====
section
/-! DEFINITION. The word types of the block (spec/00_scope.md R6 to R10): bytes, 32-bit words, bit sequences in wire
order, and the exact dyadic values the decoders return. -/

namespace Sys2Proof

/-- A byte (R9). -/
abbrev Byte := BitVec 8

/-- A configuration word, result word or mask: `CFG_BITS` = 32 bits (R5). -/
abbrev Word := BitVec 32

/-- A device register address: `ADDR_BITS` = 16 bits (R5). -/
abbrev Addr := BitVec 16

/-- A bit sequence in wire order, the first bit first (R9). -/
abbrev Bits := List Bool

/-- The dyadic value `dy(k, n)` = `k * 2^-n`, kept exact (R10, D15). -/
structure Dy where
  k : Int
  n : Nat
  deriving DecidableEq, Repr

/-- The rational number a dyadic value denotes (R10). -/
def Dy.val (d : Dy) : ℚ := (d.k : ℚ) / (2 : ℚ) ^ d.n

end Sys2Proof
end

