-- ==== Sys2Proof/Machine/Bits.lean ====
section
/-! DEFINITION. Bit sequences and byte sequences (spec/00_scope.md R6 to R9, spec/20_memory.md R40): every conversion
between a number, a bit sequence and a byte sequence, so that bit and byte order is decided here once. -/

namespace Sys2Proof

/-- `bits_w(v)`: the `w` low bits of `v`, most-significant bit first (R9). -/
def bitsOf : Nat → Nat → Bits
  | 0, _ => []
  | w + 1, v => v.testBit w :: bitsOf w v

/-- The number a bit sequence denotes, its first bit the most significant (R106). -/
def natOf : Bits → Nat
  | [] => 0
  | b :: bs => b.toNat * 2 ^ bs.length + natOf bs

/-- The bits of a field of a request or a word, in wire order. -/
def fieldBits {w : Nat} (v : BitVec w) : Bits := bitsOf w v.toNat

/-- `bytes_of`: groups of eight, the first bit of a group bit 7 of its byte (R9). A last group of fewer than eight bits
is no byte. -/
def bytesOf : Bits → List Byte
  | b7 :: b6 :: b5 :: b4 :: b3 :: b2 :: b1 :: b0 :: rest =>
    BitVec.ofNat 8 (natOf [b7, b6, b5, b4, b3, b2, b1, b0]) :: bytesOf rest
  | _ => []

/-- `bits_of`: bit 7 of the first byte first, bit 0 of the last byte last (R9). -/
def bitsOfBytes : List Byte → Bits
  | [] => []
  | b :: bs => fieldBits b ++ bitsOfBytes bs

/-- `zeros(k)` (R103). -/
def zeroBits (k : Nat) : Bits := List.replicate k false

/-- `signed_w(v)` of the low `w` bits of `v` (R8), for `w` at least 1. -/
def signedOf (w v : Nat) : Int :=
  if v.testBit (w - 1) then ((v % 2 ^ w : Nat) : Int) - ((2 ^ w : Nat) : Int) else ((v % 2 ^ w : Nat) : Int)

/-- The big-endian bytes of a 16-bit address: `[addr[15:8], addr[7:0]]` (R79). -/
def addrBytes (a : Addr) : List Byte := [a.extractLsb' 8 8, a.extractLsb' 0 8]

/-- The big-endian bytes of a 32-bit word: `[word[31:24], word[23:16], word[15:8], word[7:0]]` (R79). -/
def wordBytes (w : Word) : List Byte :=
  [w.extractLsb' 24 8, w.extractLsb' 16 8, w.extractLsb' 8 8, w.extractLsb' 0 8]

/-- `txn_write(addr, word)` (R79, R151): opcode 0x02, the address, the word. -/
def txnWriteBytes (a : Addr) (w : Word) : List Byte := 0x02 :: addrBytes a ++ wordBytes w

/-- `txn_read(addr)` (R80, R152): opcode 0x03, the address. -/
def txnReadBytes (a : Addr) : List Byte := 0x03 :: addrBytes a

end Sys2Proof
end

