-- ==== Sys2Proof/Config.lean ====
section
/-! DEFINITION. What is fixed for one instance of the block (spec/00_scope.md R5) and the one free value of the model.
The seven OPEN parameters are arguments of the model: `State.par` holds them, so every definition and every statement
is about every value of them (log 3). Their defaults, taken by `State.reset`, are the spec's (log 12). -/

namespace Sys2Proof

/-- `NCH`, the number of channels (R5, fixed by the source). -/
def Config.nch : Nat := 20

/-- `WMAX`, the widest field the packer moves in one command (R5, fixed by the source). -/
def Config.wmax : Nat := 64

/-- `PAD_MODE`: where BS_ALIGN puts the pad bits (R5, R103). -/
inductive PadMode where
  | leading
  | trailing
  deriving DecidableEq, Repr

/-- `FLOAT_FMT`: the format of floating-point operands (R5, R64). -/
inductive FloatFmt where
  | binary32
  | binary64
  deriving DecidableEq, Repr

/-- `FX_ROUND`: the rounding of FX_ENCODE (R5, R121): toward zero, toward minus infinity, nearest with ties to even. -/
inductive FxRound where
  | rtz
  | rdn
  | rne
  deriving DecidableEq, Repr

/-- `PROBE_ID`: the table from probe kind to the 5-bit probe-type identifier (R70). -/
structure ProbeId where
  tcJ    : BitVec 5
  tcK    : BitVec 5
  tcE    : BitVec 5
  tcN    : BitVec 5
  tcR    : BitVec 5
  tcS    : BitVec 5
  tcT    : BitVec 5
  tcB    : BitVec 5
  diode  : BitVec 5
  rsense : BitVec 5
  deriving DecidableEq, Repr

/-- The ten identifiers of the table, in the order of R70. -/
def ProbeId.ids (t : ProbeId) : List (BitVec 5) :=
  [t.tcJ, t.tcK, t.tcE, t.tcN, t.tcR, t.tcS, t.tcT, t.tcB, t.diode, t.rsense]

/-- Ten distinct values in 1..31: a table a model may be given (R70). -/
def ProbeId.ok (t : ProbeId) : Bool := decide t.ids.Nodup && t.ids.all (· != 0)

/-- The default table of R70, which the spec marks as general knowledge (log 12). -/
def ProbeId.default : ProbeId :=
  { tcJ := 1, tcK := 2, tcE := 3, tcN := 4, tcR := 5, tcS := 6, tcT := 7, tcB := 8, diode := 28, rsense := 29 }

/-- The OPEN parameters of R5. -/
structure Params where
  bsCapBits     : Nat
  padMode       : PadMode
  floatFmt      : FloatFmt
  fxRound       : FxRound
  rsenseFrac    : Nat
  idealPremaskW : Nat
  probeId       : ProbeId
  deriving DecidableEq, Repr

/-- The values an instance may be given: `BS_CAP_BITS` a multiple of 8 (D6), `RSENSE_FRAC` 10 or 25 (D17),
`IDEAL_PREMASK_W` in 22..64 (D18), `PROBE_ID` ten distinct values in 1..31 (R70) (log 13). -/
def Params.ok (p : Params) : Bool :=
  p.bsCapBits % 8 == 0
    && (p.rsenseFrac == 10 || p.rsenseFrac == 25)
    && decide (22 ≤ p.idealPremaskW) && decide (p.idealPremaskW ≤ 64)
    && p.probeId.ok

/-- The spec's default of every OPEN parameter (R5; log 12). -/
def Params.default : Params :=
  { bsCapBits := 128, padMode := .leading, floatFmt := .binary64, fxRound := .rtz,
    rsenseFrac := 10, idealPremaskW := 32, probeId := .default }

/-- FREE VALUE (93_implementation_defined.md I17: "any value"): the byte the remote device returns, at draw `d`, for
the register byte at address `a` that no transaction of the run has written. It has no body: nothing can be proved of
its value (log 8). -/
opaque Config.remoteByte (d a : Nat) : Byte

end Sys2Proof
end

