-- ==== Sys2Proof/Syntax.lean ====
section
/-! DEFINITION. The instructions: one constructor per row of spec/opcode_table.json. The rows are of four formats: the
23 commands of the request port (30_encoding.md R61), the 11 configuration-word classes (R69 to R71), the 8 result-word
classes (R75) and the 2 transactions (R79, R80). -/

namespace Sys2Proof

/-- A floating-point operand: a bit pattern of IEEE 754 binary32 or binary64; every pattern is a legal operand (R64).
Its pattern is all the syntax holds; the number it denotes is `Machine.floatFinite?` (Machine/Operands.lean). -/
inductive FloatOp where
  | b32 (bits : BitVec 32)
  | b64 (bits : BitVec 64)
  deriving DecidableEq, Repr

/-- The format of an operand. -/
def FloatOp.fmt : FloatOp → FloatFmt
  | .b32 _ => .binary32
  | .b64 _ => .binary64

/-- Where an encoded row arrives: the request port, or a word or transaction presented as such. The opcode table calls
these formats CMD, CFGW, RESW and TXN; the bits alone do not tell them apart (log 11). -/
inductive Port where
  | cmd
  | cfgw
  | resw
  | txn
  deriving DecidableEq, Repr

inductive Instr where
  -- bit-stream packer/unpacker (40_bitstream.md)
  | bsReset
  | bsWrite (v : BitVec 64) (w : BitVec 7)
  | bsAlign
  | bsTake
  | bsLoad (data : List Byte)
  | bsRead (w : BitVec 7)
  | bsStat
  -- fixed-point codec (41_fixed_point.md)
  | fxEncode (x : FloatOp) (w : BitVec 7) (n : BitVec 7) (s : BitVec 1)
  | fxDecode (bits : BitVec 64) (w : BitVec 7) (n : BitVec 7) (s : BitVec 1)
  | fxDecode24 (b0 b1 b2 : Byte)
  -- channel address table (42_address_table.md)
  | chStartAddr (ch : BitVec 5)
  | chResultAddr (ch : BitVec 5)
  | chMask (ch : BitVec 5)
  | chMaskSet (chs : List (BitVec 5))
  -- configuration assembler (43_config_assembler.md)
  | cfgTc (ch : BitVec 5) (tc : BitVec 3) (cj : BitVec 5) (mode : BitVec 1) (exc : BitVec 3) (caddr : BitVec 12)
  | cfgRsense (ch : BitVec 5) (r : FloatOp)
  | cfgDiode (ch : BitVec 5) (mode rd avg : BitVec 1) (exc : BitVec 2) (hasEta : BitVec 1) (eta : FloatOp)
  | cfgUnsup (ch : BitVec 5) (fam : BitVec 2)
  | cfgDecode (word : Word)
  | cfgCheck (word : Word)
  | cfgReadReq (ch : BitVec 5)
  -- result decoder (44_result_decoder.md)
  | resDecode (b0 b1 b2 b3 : Byte)
  | resReadReq (ch : BitVec 5)
  -- configuration words, by the class of bits [31:27] (30_encoding.md R69 to R71)
  | cfgwTcJ (cj : BitVec 5) (mode : BitVec 1) (exc : BitVec 3) (rsv : BitVec 6) (caddr : BitVec 12)
  | cfgwTcK (cj : BitVec 5) (mode : BitVec 1) (exc : BitVec 3) (rsv : BitVec 6) (caddr : BitVec 12)
  | cfgwTcE (cj : BitVec 5) (mode : BitVec 1) (exc : BitVec 3) (rsv : BitVec 6) (caddr : BitVec 12)
  | cfgwTcN (cj : BitVec 5) (mode : BitVec 1) (exc : BitVec 3) (rsv : BitVec 6) (caddr : BitVec 12)
  | cfgwTcR (cj : BitVec 5) (mode : BitVec 1) (exc : BitVec 3) (rsv : BitVec 6) (caddr : BitVec 12)
  | cfgwTcS (cj : BitVec 5) (mode : BitVec 1) (exc : BitVec 3) (rsv : BitVec 6) (caddr : BitVec 12)
  | cfgwTcT (cj : BitVec 5) (mode : BitVec 1) (exc : BitVec 3) (rsv : BitVec 6) (caddr : BitVec 12)
  | cfgwTcB (cj : BitVec 5) (mode : BitVec 1) (exc : BitVec 3) (rsv : BitVec 6) (caddr : BitVec 12)
  | cfgwDiode (mode rd avg : BitVec 1) (exc : BitVec 2) (ideal : BitVec 22)
  | cfgwRsense (rval : BitVec 27)
  | cfgwUnconfigured (ignored : BitVec 27)
  -- result words, by the status byte (30_encoding.md R74, R75)
  | reswValid (value : BitVec 24)
  | reswAdcOutOfRange (value : BitVec 24)
  | reswSensorUnderRange (value : BitVec 24)
  | reswSensorOverRange (value : BitVec 24)
  | reswCjSoftFault (value : BitVec 24)
  | reswCjHardFault (ignored : BitVec 24)
  | reswAdcHardOutOfRange (ignored : BitVec 24)
  | reswSensorHardFault (ignored : BitVec 24)
  -- transactions (30_encoding.md R78 to R81)
  | txnWrite (addr : Addr) (word : Word)
  | txnRead (addr : Addr)
  deriving DecidableEq, Repr

end Sys2Proof
end

