-- ==== Sys2Proof/WellFormed.lean ====
section
/-! DEFINITION. Which terms of `Instr` are instructions of an instance: the checks the field types do not make already.
A counted list fits its 8-bit count (30_encoding.md R65), and a floating-point operand is of the instance's
`FLOAT_FMT` (R64). -/

namespace Sys2Proof

/-- A count operand is 8 bits (R65). -/
def countOk (n : Nat) : Bool := decide (n < 256)

/-- A floating-point operand is a value of `FLOAT_FMT` (R64). -/
def floatOk (p : Params) (x : FloatOp) : Bool := x.fmt == p.floatFmt

/-- The well-formed instructions of an instance with parameters `p`. -/
def Instr.wf (p : Params) : Instr → Bool
  | .bsReset | .bsWrite _ _ | .bsAlign | .bsTake | .bsRead _ | .bsStat => true
  | .bsLoad data => countOk data.length
  | .fxEncode x _ _ _ => floatOk p x
  | .fxDecode _ _ _ _ | .fxDecode24 _ _ _ => true
  | .chStartAddr _ | .chResultAddr _ | .chMask _ => true
  | .chMaskSet chs => countOk chs.length
  | .cfgTc _ _ _ _ _ _ => true
  | .cfgRsense _ r => floatOk p r
  | .cfgDiode _ _ _ _ _ _ eta => floatOk p eta
  | .cfgUnsup _ _ | .cfgDecode _ | .cfgCheck _ | .cfgReadReq _ => true
  | .resDecode _ _ _ _ | .resReadReq _ => true
  | .cfgwTcJ _ _ _ _ _ | .cfgwTcK _ _ _ _ _ | .cfgwTcE _ _ _ _ _ | .cfgwTcN _ _ _ _ _ => true
  | .cfgwTcR _ _ _ _ _ | .cfgwTcS _ _ _ _ _ | .cfgwTcT _ _ _ _ _ | .cfgwTcB _ _ _ _ _ => true
  | .cfgwDiode _ _ _ _ _ | .cfgwRsense _ | .cfgwUnconfigured _ => true
  | .reswValid _ | .reswAdcOutOfRange _ | .reswSensorUnderRange _ | .reswSensorOverRange _ => true
  | .reswCjSoftFault _ | .reswCjHardFault _ | .reswAdcHardOutOfRange _ | .reswSensorHardFault _ => true
  | .txnWrite _ _ | .txnRead _ => true

end Sys2Proof
end

