-- ==== Sys2Proof/Decode.lean ====
section
/-! DEFINITION. The decoder, total on any bit sequence and rejecting by name, and after it the encoder, both written
from the tables of spec/30_encoding.md. A request is its 8-bit command code and then its operands, each a field of its
width, most-significant bit first, with no gap (R60, R61, R40; log 4). A word or a transaction is its fields from bit 31
or from the first byte (R69, R74, R79, R80). -/

namespace Sys2Proof

/-- Why a bit sequence is no row of the opcode table. What the machine then does is `Machine.onReject`. -/
inductive Reject where
  /-- a command code that is not in R61 (R62) -/
  | illegalCmd
  /-- a request whose length is not the one its code and count give (R60; log 4) -/
  | requestLength
  /-- a configuration word whose identifier is nonzero and in no class with a layout (R71) -/
  | unsupportedWord
  /-- a result word whose status byte is none of the eight codes (R76) -/
  | malformedStatus
  /-- a configuration or result word that is not 32 bits -/
  | wordLength
  /-- a byte sequence that is none of the two transactions (R78, R81) -/
  | noTransaction
  deriving DecidableEq, Repr

/-- Read a `w`-bit field from the front of a bit sequence. -/
def takeField (w : Nat) (bits : Bits) : Option (BitVec w × Bits) :=
  if (bits.take w).length = w then some (BitVec.ofNat w (natOf (bits.take w)), bits.drop w) else none

/-- Read `k` fields of `w` bits each, the items a count operand counts (R65). -/
def takeFields (w : Nat) : Nat → Bits → Option (List (BitVec w) × Bits)
  | 0, bits => some ([], bits)
  | k + 1, bits =>
    match takeField w bits with
    | none => none
    | some (v, rest) =>
      match takeFields w k rest with
      | none => none
      | some (vs, rest') => some (v :: vs, rest')

/-- Read a floating-point operand: one value of `FLOAT_FMT` (R61, R64). -/
def takeFloat (fmt : FloatFmt) (bits : Bits) : Option (FloatOp × Bits) :=
  match fmt with
  | .binary32 => (takeField 32 bits).map fun (v, rest) => (.b32 v, rest)
  | .binary64 => (takeField 64 bits).map fun (v, rest) => (.b64 v, rest)

/-- The identifier of thermocouple type index `t`: `PROBE_ID.TC[t]` (R70). -/
def tcId (p : ProbeId) (t : BitVec 3) : BitVec 5 :=
  match t.toNat with
  | 0 => p.tcJ
  | 1 => p.tcK
  | 2 => p.tcE
  | 3 => p.tcN
  | 4 => p.tcR
  | 5 => p.tcS
  | 6 => p.tcT
  | _ => p.tcB

/-- The classes of bits [31:27] of a configuration word (R71). -/
inductive CfgClass where
  | unconfigured
  | thermocouple (t : BitVec 3)
  | senseResistor
  | diode
  | unsupported
  deriving DecidableEq, Repr

/-- The class of a probe-type identifier (R71). -/
def classify (p : ProbeId) (pid : BitVec 5) : CfgClass :=
  if pid = 0 then .unconfigured
  else if pid = p.tcJ then .thermocouple 0
  else if pid = p.tcK then .thermocouple 1
  else if pid = p.tcE then .thermocouple 2
  else if pid = p.tcN then .thermocouple 3
  else if pid = p.tcR then .thermocouple 4
  else if pid = p.tcS then .thermocouple 5
  else if pid = p.tcT then .thermocouple 6
  else if pid = p.tcB then .thermocouple 7
  else if pid = p.rsense then .senseResistor
  else if pid = p.diode then .diode
  else .unsupported

/-- The operands of the command with code `code`, read from the front of `bits`: the instruction and the bits after it.
`none`: no such code is in R61, or the bits end before the operands do. -/
def takeOperands (fmt : FloatFmt) (code : Nat) (bits : Bits) : Option (Instr × Bits) :=
  match code with
  | 0x01 => some (.bsReset, bits)
  | 0x02 => do
    let (v, r) ← takeField 64 bits
    let (w, r) ← takeField 7 r
    some (.bsWrite v w, r)
  | 0x03 => some (.bsAlign, bits)
  | 0x04 => some (.bsTake, bits)
  | 0x05 => do
    let (n, r) ← takeField 8 bits
    let (data, r) ← takeFields 8 n.toNat r
    some (.bsLoad data, r)
  | 0x06 => do
    let (w, r) ← takeField 7 bits
    some (.bsRead w, r)
  | 0x07 => some (.bsStat, bits)
  | 0x10 => do
    let (x, r) ← takeFloat fmt bits
    let (w, r) ← takeField 7 r
    let (n, r) ← takeField 7 r
    let (s, r) ← takeField 1 r
    some (.fxEncode x w n s, r)
  | 0x11 => do
    let (b, r) ← takeField 64 bits
    let (w, r) ← takeField 7 r
    let (n, r) ← takeField 7 r
    let (s, r) ← takeField 1 r
    some (.fxDecode b w n s, r)
  | 0x12 => do
    let (b0, r) ← takeField 8 bits
    let (b1, r) ← takeField 8 r
    let (b2, r) ← takeField 8 r
    some (.fxDecode24 b0 b1 b2, r)
  | 0x20 => do
    let (ch, r) ← takeField 5 bits
    some (.chStartAddr ch, r)
  | 0x21 => do
    let (ch, r) ← takeField 5 bits
    some (.chResultAddr ch, r)
  | 0x22 => do
    let (ch, r) ← takeField 5 bits
    some (.chMask ch, r)
  | 0x23 => do
    let (cnt, r) ← takeField 8 bits
    let (chs, r) ← takeFields 5 cnt.toNat r
    some (.chMaskSet chs, r)
  | 0x30 => do
    let (ch, r) ← takeField 5 bits
    let (tc, r) ← takeField 3 r
    let (cj, r) ← takeField 5 r
    let (mode, r) ← takeField 1 r
    let (exc, r) ← takeField 3 r
    let (caddr, r) ← takeField 12 r
    some (.cfgTc ch tc cj mode exc caddr, r)
  | 0x31 => do
    let (ch, r) ← takeField 5 bits
    let (x, r) ← takeFloat fmt r
    some (.cfgRsense ch x, r)
  | 0x32 => do
    let (ch, r) ← takeField 5 bits
    let (mode, r) ← takeField 1 r
    let (rd, r) ← takeField 1 r
    let (avg, r) ← takeField 1 r
    let (exc, r) ← takeField 2 r
    let (hasEta, r) ← takeField 1 r
    let (eta, r) ← takeFloat fmt r
    some (.cfgDiode ch mode rd avg exc hasEta eta, r)
  | 0x33 => do
    let (ch, r) ← takeField 5 bits
    let (fam, r) ← takeField 2 r
    some (.cfgUnsup ch fam, r)
  | 0x34 => do
    let (word, r) ← takeField 32 bits
    some (.cfgDecode word, r)
  | 0x35 => do
    let (word, r) ← takeField 32 bits
    some (.cfgCheck word, r)
  | 0x36 => do
    let (ch, r) ← takeField 5 bits
    some (.cfgReadReq ch, r)
  | 0x40 => do
    let (b0, r) ← takeField 8 bits
    let (b1, r) ← takeField 8 r
    let (b2, r) ← takeField 8 r
    let (b3, r) ← takeField 8 r
    some (.resDecode b0 b1 b2 b3, r)
  | 0x41 => do
    let (ch, r) ← takeField 5 bits
    some (.resReadReq ch, r)
  | _ => none

/-- The command codes of R61; every other 8-bit code is illegal (R62). -/
def isCommandCode (code : Nat) : Bool :=
  (decide (0x01 ≤ code) && decide (code ≤ 0x07)) || (decide (0x10 ≤ code) && decide (code ≤ 0x12))
    || (decide (0x20 ≤ code) && decide (code ≤ 0x23)) || (decide (0x30 ≤ code) && decide (code ≤ 0x36))
    || (decide (0x40 ≤ code) && decide (code ≤ 0x41))

/-- Decode a request: its code first, then operands to its exact length (R60, R62). -/
def decodeCmd (fmt : FloatFmt) (bits : Bits) : Except Reject Instr :=
  match takeField 8 bits with
  | none => .error .requestLength
  | some (code, rest) =>
    if isCommandCode code.toNat then
      match takeOperands fmt code.toNat rest with
      | some (i, []) => .ok i
      | some (_, _ :: _) => .error .requestLength
      | none => .error .requestLength
    else .error .illegalCmd

/-- The thermocouple row of type index `t` (R70, R71). -/
def cfgwTc (t : BitVec 3) (cj : BitVec 5) (mode : BitVec 1) (exc : BitVec 3) (rsv : BitVec 6) (caddr : BitVec 12) :
    Instr :=
  match t.toNat with
  | 0 => .cfgwTcJ cj mode exc rsv caddr
  | 1 => .cfgwTcK cj mode exc rsv caddr
  | 2 => .cfgwTcE cj mode exc rsv caddr
  | 3 => .cfgwTcN cj mode exc rsv caddr
  | 4 => .cfgwTcR cj mode exc rsv caddr
  | 5 => .cfgwTcS cj mode exc rsv caddr
  | 6 => .cfgwTcT cj mode exc rsv caddr
  | _ => .cfgwTcB cj mode exc rsv caddr

/-- The row of a configuration word: the class of bits [31:27], then the fields of that class's layout (R69, R71). -/
def cfgWordRow (p : ProbeId) (w : Word) : Except Reject Instr :=
  match classify p (w.extractLsb' 27 5) with
  | .unconfigured => .ok (.cfgwUnconfigured (w.extractLsb' 0 27))
  | .thermocouple t =>
    .ok (cfgwTc t (w.extractLsb' 22 5) (w.extractLsb' 21 1) (w.extractLsb' 18 3) (w.extractLsb' 12 6)
      (w.extractLsb' 0 12))
  | .senseResistor => .ok (.cfgwRsense (w.extractLsb' 0 27))
  | .diode =>
    .ok (.cfgwDiode (w.extractLsb' 26 1) (w.extractLsb' 25 1) (w.extractLsb' 24 1) (w.extractLsb' 22 2)
      (w.extractLsb' 0 22))
  | .unsupported => .error .unsupportedWord

/-- The row of a result word: the status byte by exact value (R75, R76, R181). -/
def resWordRow (w : Word) : Except Reject Instr :=
  match (w.extractLsb' 24 8).toNat with
  | 0x01 => .ok (.reswValid (w.extractLsb' 0 24))
  | 0x02 => .ok (.reswAdcOutOfRange (w.extractLsb' 0 24))
  | 0x04 => .ok (.reswSensorUnderRange (w.extractLsb' 0 24))
  | 0x08 => .ok (.reswSensorOverRange (w.extractLsb' 0 24))
  | 0x10 => .ok (.reswCjSoftFault (w.extractLsb' 0 24))
  | 0x20 => .ok (.reswCjHardFault (w.extractLsb' 0 24))
  | 0x40 => .ok (.reswAdcHardOutOfRange (w.extractLsb' 0 24))
  | 0x80 => .ok (.reswSensorHardFault (w.extractLsb' 0 24))
  | _ => .error .malformedStatus

/-- A word as it arrives: 32 bits, bit 31 first (R40, R80). -/
def decodeWord (row : Word → Except Reject Instr) (bits : Bits) : Except Reject Instr :=
  if bits.length = 32 then row (BitVec.ofNat 32 (natOf bits)) else .error .wordLength

/-- Decode a transaction: 7 bytes after 0x02, 3 bytes after 0x03, no other (R78 to R81). -/
def decodeTxn (bits : Bits) : Except Reject Instr :=
  let addr : Addr := BitVec.ofNat 16 (natOf ((bits.drop 8).take 16))
  if natOf (bits.take 8) = 0x02 ∧ bits.length = 56 then
    .ok (.txnWrite addr (BitVec.ofNat 32 (natOf ((bits.drop 24).take 32))))
  else if natOf (bits.take 8) = 0x03 ∧ bits.length = 24 then .ok (.txnRead addr)
  else .error .noTransaction

/-- The decoder of an instance with parameters `p`: what arrives at a port, as a bit sequence in wire order. -/
def decode (p : Params) (port : Port) (bits : Bits) : Except Reject Instr :=
  match port with
  | .cmd => decodeCmd p.floatFmt bits
  | .cfgw => decodeWord (cfgWordRow p.probeId) bits
  | .resw => decodeWord resWordRow bits
  | .txn => decodeTxn bits

/-! ### The encoder -/

/-- The port a row arrives at: the row's format in the opcode table. -/
def Instr.port : Instr → Port
  | .bsReset | .bsWrite _ _ | .bsAlign | .bsTake | .bsLoad _ | .bsRead _ | .bsStat => .cmd
  | .fxEncode _ _ _ _ | .fxDecode _ _ _ _ | .fxDecode24 _ _ _ => .cmd
  | .chStartAddr _ | .chResultAddr _ | .chMask _ | .chMaskSet _ => .cmd
  | .cfgTc _ _ _ _ _ _ | .cfgRsense _ _ | .cfgDiode _ _ _ _ _ _ _ | .cfgUnsup _ _ => .cmd
  | .cfgDecode _ | .cfgCheck _ | .cfgReadReq _ | .resDecode _ _ _ _ | .resReadReq _ => .cmd
  | .cfgwTcJ _ _ _ _ _ | .cfgwTcK _ _ _ _ _ | .cfgwTcE _ _ _ _ _ | .cfgwTcN _ _ _ _ _ => .cfgw
  | .cfgwTcR _ _ _ _ _ | .cfgwTcS _ _ _ _ _ | .cfgwTcT _ _ _ _ _ | .cfgwTcB _ _ _ _ _ => .cfgw
  | .cfgwDiode _ _ _ _ _ | .cfgwRsense _ | .cfgwUnconfigured _ => .cfgw
  | .reswValid _ | .reswAdcOutOfRange _ | .reswSensorUnderRange _ | .reswSensorOverRange _ => .resw
  | .reswCjSoftFault _ | .reswCjHardFault _ | .reswAdcHardOutOfRange _ | .reswSensorHardFault _ => .resw
  | .txnWrite _ _ | .txnRead _ => .txn

/-- The bits of a floating-point operand. -/
def floatBits : FloatOp → Bits
  | .b32 v => fieldBits v
  | .b64 v => fieldBits v

/-- The bits of counted items (R65). -/
def itemBits {w : Nat} : List (BitVec w) → Bits
  | [] => []
  | v :: vs => fieldBits v ++ itemBits vs

/-- A command code (R61). -/
def codeBits (code : Nat) : Bits := bitsOf 8 code

/-- The thermocouple layout (R69): identifier, cold junction, mode, excitation, bits [17:12], custom address. -/
def tcWord (pid cj : BitVec 5) (mode : BitVec 1) (exc : BitVec 3) (rsv : BitVec 6) (caddr : BitVec 12) : Word :=
  pid ++ cj ++ mode ++ exc ++ rsv ++ caddr

/-- The sense-resistor layout (R69): identifier, resistance. -/
def rsenseWord (pid : BitVec 5) (rval : BitVec 27) : Word := pid ++ rval

/-- The diode layout (R69): identifier, mode, reading count, averaging, excitation, ideality. -/
def diodeWord (pid : BitVec 5) (mode rd avg : BitVec 1) (exc : BitVec 2) (ideal : BitVec 22) : Word :=
  pid ++ mode ++ rd ++ avg ++ exc ++ ideal

/-- A result word (R74): the status byte, then the 24 value bits. -/
def resWord (status : Byte) (value : BitVec 24) : Word := status ++ value

/-- The bits of an instruction, in wire order, as they arrive at its port. -/
def encode (p : Params) : Instr → Bits
  | .bsReset => codeBits 0x01
  | .bsWrite v w => codeBits 0x02 ++ (fieldBits v ++ fieldBits w)
  | .bsAlign => codeBits 0x03
  | .bsTake => codeBits 0x04
  | .bsLoad data => codeBits 0x05 ++ (bitsOf 8 data.length ++ itemBits data)
  | .bsRead w => codeBits 0x06 ++ fieldBits w
  | .bsStat => codeBits 0x07
  | .fxEncode x w n s => codeBits 0x10 ++ (floatBits x ++ (fieldBits w ++ (fieldBits n ++ fieldBits s)))
  | .fxDecode b w n s => codeBits 0x11 ++ (fieldBits b ++ (fieldBits w ++ (fieldBits n ++ fieldBits s)))
  | .fxDecode24 b0 b1 b2 => codeBits 0x12 ++ (fieldBits b0 ++ (fieldBits b1 ++ fieldBits b2))
  | .chStartAddr ch => codeBits 0x20 ++ fieldBits ch
  | .chResultAddr ch => codeBits 0x21 ++ fieldBits ch
  | .chMask ch => codeBits 0x22 ++ fieldBits ch
  | .chMaskSet chs => codeBits 0x23 ++ (bitsOf 8 chs.length ++ itemBits chs)
  | .cfgTc ch tc cj mode exc caddr =>
    codeBits 0x30 ++ (fieldBits ch ++ (fieldBits tc ++ (fieldBits cj ++ (fieldBits mode ++ (fieldBits exc
      ++ fieldBits caddr)))))
  | .cfgRsense ch r => codeBits 0x31 ++ (fieldBits ch ++ floatBits r)
  | .cfgDiode ch mode rd avg exc hasEta eta =>
    codeBits 0x32 ++ (fieldBits ch ++ (fieldBits mode ++ (fieldBits rd ++ (fieldBits avg ++ (fieldBits exc
      ++ (fieldBits hasEta ++ floatBits eta))))))
  | .cfgUnsup ch fam => codeBits 0x33 ++ (fieldBits ch ++ fieldBits fam)
  | .cfgDecode word => codeBits 0x34 ++ fieldBits word
  | .cfgCheck word => codeBits 0x35 ++ fieldBits word
  | .cfgReadReq ch => codeBits 0x36 ++ fieldBits ch
  | .resDecode b0 b1 b2 b3 => codeBits 0x40 ++ (fieldBits b0 ++ (fieldBits b1 ++ (fieldBits b2 ++ fieldBits b3)))
  | .resReadReq ch => codeBits 0x41 ++ fieldBits ch
  | .cfgwTcJ cj mode exc rsv caddr => fieldBits (tcWord p.probeId.tcJ cj mode exc rsv caddr)
  | .cfgwTcK cj mode exc rsv caddr => fieldBits (tcWord p.probeId.tcK cj mode exc rsv caddr)
  | .cfgwTcE cj mode exc rsv caddr => fieldBits (tcWord p.probeId.tcE cj mode exc rsv caddr)
  | .cfgwTcN cj mode exc rsv caddr => fieldBits (tcWord p.probeId.tcN cj mode exc rsv caddr)
  | .cfgwTcR cj mode exc rsv caddr => fieldBits (tcWord p.probeId.tcR cj mode exc rsv caddr)
  | .cfgwTcS cj mode exc rsv caddr => fieldBits (tcWord p.probeId.tcS cj mode exc rsv caddr)
  | .cfgwTcT cj mode exc rsv caddr => fieldBits (tcWord p.probeId.tcT cj mode exc rsv caddr)
  | .cfgwTcB cj mode exc rsv caddr => fieldBits (tcWord p.probeId.tcB cj mode exc rsv caddr)
  | .cfgwDiode mode rd avg exc ideal => fieldBits (diodeWord p.probeId.diode mode rd avg exc ideal)
  | .cfgwRsense rval => fieldBits (rsenseWord p.probeId.rsense rval)
  | .cfgwUnconfigured ignored => fieldBits (rsenseWord 0 ignored)
  | .reswValid value => fieldBits (resWord 0x01 value)
  | .reswAdcOutOfRange value => fieldBits (resWord 0x02 value)
  | .reswSensorUnderRange value => fieldBits (resWord 0x04 value)
  | .reswSensorOverRange value => fieldBits (resWord 0x08 value)
  | .reswCjSoftFault value => fieldBits (resWord 0x10 value)
  | .reswCjHardFault ignored => fieldBits (resWord 0x20 ignored)
  | .reswAdcHardOutOfRange ignored => fieldBits (resWord 0x40 ignored)
  | .reswSensorHardFault ignored => fieldBits (resWord 0x80 ignored)
  | .txnWrite addr word => bitsOf 8 0x02 ++ (fieldBits addr ++ fieldBits word)
  | .txnRead addr => bitsOf 8 0x03 ++ fieldBits addr

/-! ### Words numbered as the opcode table numbers them -/

/-- The bits of the bytes of a table word: byte `k` is bits `8k+7..8k` of `w`, the first byte first, each byte
most-significant bit first. -/
def tableBytes : Nat → Nat → Bits
  | 0, _ => []
  | k + 1, w => bitsOf 8 (w % 256) ++ tableBytes k (w / 256)

/-- The rows' formats share words (log 11). A table word of at most 24 bits is taken as a request, its first byte the
command code. A 32-bit one is taken as a result word where its status byte is one of the eight codes (the longer fixed
pattern, 8 bits) and as a configuration word otherwise (5 bits). A 56-bit one is a write transaction. -/
def tablePort (nbits w : Nat) : Port :=
  if nbits ≤ 24 then .cmd
  else if nbits = 32 then
    match resWordRow (BitVec.ofNat 32 w) with
    | .ok _ => .resw
    | .error _ => .cfgw
  else .txn

/-- The bits of the operands of a command code, for the count operand `count` where it has one (R61, R65); 0 for an
illegal code. -/
def operandWidth (fmt : FloatFmt) (code count : Nat) : Nat :=
  let float := match fmt with
    | .binary32 => 32
    | .binary64 => 64
  match code with
  | 0x02 => 64 + 7
  | 0x05 => 8 + 8 * count
  | 0x06 => 7
  | 0x10 => float + 7 + 7 + 1
  | 0x11 => 64 + 7 + 7 + 1
  | 0x12 => 8 + 8 + 8
  | 0x20 => 5
  | 0x21 => 5
  | 0x22 => 5
  | 0x23 => 8 + 5 * count
  | 0x30 => 5 + 3 + 5 + 1 + 3 + 12
  | 0x31 => 5 + float
  | 0x32 => 5 + 1 + 1 + 1 + 2 + 1 + float
  | 0x33 => 5 + 2
  | 0x34 => 32
  | 0x35 => 32
  | 0x36 => 5
  | 0x40 => 8 + 8 + 8 + 8
  | 0x41 => 5
  | _ => 0

/-- The bits of a table word as they arrive at its port. A request is its bytes, then zeros, to the length its code and
its count (the second byte) give. -/
def tableBits (fmt : FloatFmt) (nbits w : Nat) : Bits :=
  match tablePort nbits w with
  | .cmd =>
    let len := 8 + operandWidth fmt (w % 256) (w / 256 % 256)
    (tableBytes ((nbits + 7) / 8) w ++ zeroBits len).take len
  | .cfgw => bitsOf 32 w
  | .resw => bitsOf 32 w
  | .txn => tableBytes (nbits / 8) w

/-- The instruction the decoder of the default instance reads from a table word. -/
def decodeTableWord (nbits w : Nat) : Option Instr :=
  match decode Params.default (tablePort nbits w) (tableBits Params.default.floatFmt nbits w) with
  | .ok i => some i
  | .error _ => none

end Sys2Proof
end

