-- ==== Sys2Proof/Machine/State.lean ====
section
/-! DEFINITION. The state (spec/10_state.md), the response and its payloads (spec/30_encoding.md R60, R61), the error
codes' names (spec/60_exceptions.md R201), the inputs the host presents, and the reset state (R35, R230). All of it is
plain data. -/

namespace Sys2Proof.Machine

open Sys2Proof

/-- The error codes of R201, by name. Their numbers are `ErrCode.code` (Machine/Flags.lean). -/
inductive ErrCode where
  | illegalCmd
  | width
  | underrun
  | overflow
  | fxFormat
  | fxRange
  | channel
  | field
  | unsupported
  | malformedStatus
  | notConfigured
  | payloadWidth
  deriving DecidableEq, Repr

/-- The decoded record of a configuration word (R161), class by class. -/
inductive Record where
  | tc (tc : BitVec 3) (cj : BitVec 5) (mode : BitVec 1) (exc : BitVec 3) (rsv : BitVec 6) (caddr : BitVec 12)
  | rs (rval : BitVec 27) (value : Dy)
  | di (mode rd avg : BitVec 1) (exc : BitVec 2) (ideal : BitVec 22) (hasEta : Bool) (eta : Dy)
  deriving DecidableEq, Repr

/-- The `Ok` payloads of R61. -/
inductive Payload where
  /-- no payload -/
  | unit
  /-- BS_TAKE: the packer's bytes -/
  | bytes (b : List Byte)
  /-- BS_READ: the value, zero-extended to 64 bits -/
  | value (v : BitVec 64)
  /-- BS_STAT: `wlen` and `ravail` -/
  | stat (wlen ravail : Nat)
  /-- FX_ENCODE: the pattern, zero-extended to 64 bits -/
  | pattern (b : BitVec 64)
  /-- FX_DECODE: the integer `k` and `n`, meaning `dy(k, n)` -/
  | dyadic (d : Dy)
  /-- FX_DECODE24: `raw`, `k` and the value -/
  | dec24 (raw : Word) (k : Int) (value : Dy)
  /-- CH_START_ADDR, CH_RESULT_ADDR -/
  | addr (a : Addr)
  /-- CH_MASK, CH_MASK_SET -/
  | mask (m : Word)
  /-- CFG_TC, CFG_RSENSE, CFG_DIODE: the word and its write transaction -/
  | build (word : Word) (txn : List Byte)
  /-- CFG_DECODE -/
  | record (r : Record)
  /-- CFG_CHECK -/
  | pid (p : BitVec 5)
  /-- CFG_READ_REQ, RES_READ_REQ: the read request -/
  | request (txn : List Byte)
  /-- RES_DECODE: `tag`, `has_value`, `k`, and the value where there is one -/
  | outcome (tag : BitVec 3) (hasValue : Bool) (k : Int) (value : Option Dy)
  deriving DecidableEq, Repr

/-- A response: `Ok(payload)` or `Err(code)` (R60, R200). -/
inductive Response where
  | ok (p : Payload)
  | err (e : ErrCode)
  deriving DecidableEq, Repr

/-- One thing the host presents to the machine (log 1): an assertion of the reset input (R230), or a bit sequence, in
wire order, at a port (R60, R234). -/
inductive Input where
  | reset
  | bits (port : Port) (b : Bits)
  deriving DecidableEq, Repr

/-- The block's architectural state, the triple `S` of R20: "Nothing else is state." -/
structure Block where
  /-- the packer's output: every bit written since the last BS_TAKE or BS_RESET, in wire order -/
  wbits  : Bits
  /-- the unpacker's input: the bytes last given to BS_LOAD -/
  rbytes : List Byte
  /-- the unpacker's cursor: the bits of `rbytes` already consumed -/
  rpos   : Nat
  deriving DecidableEq, Repr

/-- The remote device's register space (R46) as a list of (address, byte) pairs, addresses strictly rising. An unlisted
address reads as no value: the device holds a byte there that no transaction of the run has written. -/
abbrev Memory := List Host.Cell

/-- The canonical form: addresses strictly rising. No entry can equal what an unlisted address reads as, which is no
value. -/
def Memory.wf : Memory → Bool
  | [] => true
  | [_] => true
  | c :: d :: rest => decide (c.1 < d.1) && Memory.wf (d :: rest)

/-- The remote device behind the host's transport (R32, R33). It is not the block's: no command reads or writes it.
Only the two transaction rows of the opcode table do (log 7). -/
structure Remote where
  /-- the device's registers, as far as transactions have written them -/
  regs    : Memory
  /-- what the transport returned for each read request, oldest first (R80) -/
  answers : List (List Byte)
  /-- MODEL's own counter: how many read requests have been answered, the index of the free value (log 8) -/
  draws   : Nat
  deriving DecidableEq, Repr

/-- The machine: the instance's parameters (R5), the block's state (R20), the response port and the inputs the host has
still to present (R60, R234), and the remote device (R32). -/
structure State where
  /-- the instance's parameters: not state for the spec (R28, R231), and no step changes them (log 3) -/
  par    : Params
  /-- the block's state `S` -/
  blk    : Block
  /-- every response given so far, oldest first (log 2) -/
  resps  : List Response
  /-- what the host has still to present, the next first (log 1) -/
  inputs : List Input
  /-- the remote device -/
  remote : Remote
  deriving DecidableEq, Repr

/-- The machine never stops with a fault: every error of the block is a response, with no trap and no panic (R200,
R205, R206), so no reason exists. Nothing raises it. -/
inductive Fault where
  deriving DecidableEq, Repr

/-- The reasons the model gives no meaning. Every one is SAFE: the model stops where the spec gives nothing. -/
inductive Refusal where
  /-- exec, for an instruction that has no meaning yet (no arm uses it). Safe. -/
  | notModelled (mnemonic : String)
  /-- step, when the parameters are ones no instance may have: "the model refuses any other table" (R70, I9; log 13).
  Safe. -/
  | badParameters
  /-- step, when the bits at the request port or a word port are not of the length the spec gives them (R60, R80;
  log 4). Safe. -/
  | badLength
  /-- step, when the bytes given to the transport are none of the two transactions (R78, R81; log 10). Safe. -/
  | noTransaction
  /-- TXN_WRITE and TXN_READ, at a remote address whose register the spec does not give or does not let be written
  (R47, R33, I18; log 10). Safe. -/
  | remoteAddress
  deriving DecidableEq, Repr

/-- What a step or a meaning answers. -/
abbrev Result := Host.Outcome State Fault Refusal

/-- The reset state of the block (R35). -/
def Block.reset : Block := { wbits := [], rbytes := [], rpos := 0 }

/-- The remote device before any transaction of the run: every register any value (I17; log 8). -/
def Remote.reset : Remote := { regs := [], answers := [], draws := 0 }

/-- The machine right after reset: the block as R35 says, the parameters at the spec's defaults (R5; log 12), no input
yet presented and no response given (R230: reset "produces no response"; log 1, log 2). -/
def State.reset : State :=
  { par := Params.default, blk := Block.reset, resps := [], inputs := [], remote := Remote.reset }

end Sys2Proof.Machine
end

