-- ==== Sys2Proof/Machine/Ops.lean ====
section
/-! DEFINITION. The shared operations: giving a response, raising an error (the block's only exception mechanism,
spec/60_exceptions.md R200 to R206), the reset input, the packer and unpacker (spec/40_bitstream.md), the remote
registers, and taking the next input. -/

namespace Sys2Proof.Machine

open Sys2Proof

/-! ### Responses and errors -/

/-- Give a response: one for every command (R12). -/
def respond (r : Response) (s : State) : State := { s with resps := s.resps ++ [r] }

/-- `raise E`: end the command with `Err(E)`. It is precise and effect-free: the response is given, nothing else
changes, and no control is transferred (R200, R202, R206). There is no return from it (R206). -/
def raise (e : ErrCode) (s : State) : Result := .next (respond (.err e) s)

/-- A command that neither reads nor writes the block state (R23): its answer is its response. -/
def answer (r : Except ErrCode Payload) (s : State) : Result :=
  match r with
  | .ok p => .next (respond (.ok p) s)
  | .error e => raise e s

/-- A command on the block state: `Ok` with the next `S`, or an error that leaves `S` (R12, R202). -/
def complete (r : Except ErrCode (Payload × Block)) (s : State) : Result :=
  match r with
  | .ok (p, b) => .next (respond (.ok p) { s with blk := b })
  | .error e => raise e s

/-- Asserting the reset input: the block state of R35; the parameters stay (R231) and no response is given (R230). -/
def resetInput (s : State) : State := { s with blk := Block.reset }

/-! ### The packer and the unpacker -/

/-- `append(S.wbits, bits_w(v))` with the capacity check (R101, R102). -/
def packBits (cap : Nat) (b : Block) (w v : Nat) : Except ErrCode Block :=
  if b.wbits.length + w > cap then .error .overflow else .ok { b with wbits := b.wbits ++ bitsOf w v }

/-- The packer's bits after the effect of BS_ALIGN (R103): the pending bits `k`, padded to a byte where `PAD_MODE`
says. -/
def alignBits (m : PadMode) (wbits : Bits) : Bits :=
  let k := wbits.length % 8
  let q := wbits.length - k
  if k = 0 then wbits
  else
    match m with
    | .leading => wbits.take q ++ (zeroBits (8 - k) ++ wbits.drop q)
    | .trailing => wbits ++ zeroBits (8 - k)

/-- The unread bits of the unpacker: `bits_of(S.rbytes)` from the cursor (R20). -/
def unread (b : Block) : Bits := (bitsOfBytes b.rbytes).drop b.rpos

/-- Consume `w` bits at the cursor (R106). -/
def unpackBits (b : Block) (w : Nat) : Except ErrCode (Nat × Block) :=
  if b.rpos + w > 8 * b.rbytes.length then .error .underrun
  else .ok (natOf ((unread b).take w), { b with rpos := b.rpos + w })

/-- Replace the unpacker's bytes and rewind its cursor, with the capacity check (R105). -/
def loadBytes (cap : Nat) (b : Block) (data : List Byte) : Except ErrCode Block :=
  if 8 * data.length > cap then .error .overflow else .ok { b with rbytes := data, rpos := 0 }

/-! ### Remote registers -/

/-- The byte listed at an address, none where no transaction wrote it. -/
def Memory.read (m : Memory) (a : Nat) : Option Byte :=
  match m with
  | [] => none
  | c :: rest => if a = c.1 then some c.2 else Memory.read rest a

/-- Write one byte, keeping the canonical form. -/
def Memory.write (m : Memory) (a : Nat) (v : Byte) : Memory :=
  match m with
  | [] => [(a, v)]
  | c :: rest =>
    if a < c.1 then (a, v) :: c :: rest
    else if a = c.1 then (a, v) :: rest
    else c :: Memory.write rest a v

/-- Write consecutive bytes, the first at the lowest address (R40). -/
def Memory.writeBytes (m : Memory) (a : Nat) : List Byte → Memory
  | [] => m
  | v :: vs => Memory.writeBytes (m.write a v) (a + 1) vs

/-- An address of a channel's configuration register: `0x200 + 4*(c-1)`, c in 1..20 (R32, R47). -/
def isCfgReg (a : Addr) : Bool :=
  a.toNat % 4 == 0 && decide (0x200 ≤ a.toNat) && decide (a.toNat ≤ 0x24C)

/-- An address of a channel's result register: `0x010 + 4*(c-1)`, c in 1..20 (R32, R47). -/
def isResReg (a : Addr) : Bool :=
  a.toNat % 4 == 0 && decide (0x010 ≤ a.toNat) && decide (a.toNat ≤ 0x05C)

/-- The byte the device returns at an address: what a transaction of the run wrote there, else any value (I17; log 8). -/
def Remote.byteAt (r : Remote) (a : Nat) : Byte := (r.regs.read a).getD (Config.remoteByte r.draws a)

/-- The 4 bytes of the register at an address, first byte = bits [31:24] (R80). -/
def Remote.register (r : Remote) (a : Nat) : List Byte :=
  [r.byteAt a, r.byteAt (a + 1), r.byteAt (a + 2), r.byteAt (a + 3)]

/-! ### Inputs -/

/-- What the machine does with bits that are no row of the opcode table. A request with an illegal code is answered
`E_ILLEGAL_CMD` (R62); a configuration word of no class `E_UNSUPPORTED` (R161) and a result word with no defined status
`E_MALFORMED_STATUS` (R183), as CFG_DECODE and RES_DECODE answer them (log 6). The other cases are no input the spec
describes, and are refused by name (log 4, log 10). -/
def onReject (r : Reject) (s : State) : Result :=
  match r with
  | .illegalCmd => raise .illegalCmd s
  | .unsupportedWord => raise .unsupported s
  | .malformedStatus => raise .malformedStatus s
  | .requestLength => .refused .badLength
  | .wordLength => .refused .badLength
  | .noTransaction => .refused .noTransaction

/-- The state with the first input taken. -/
def popInput (s : State) : State := { s with inputs := s.inputs.tail }

/-- The state with an input put before all others. -/
def pushInput (x : Input) (s : State) : State := { s with inputs := x :: s.inputs }

end Sys2Proof.Machine
end

