-- ==== Sys2Proof/Machine/Operands.lean ====
section
/-! DEFINITION. Operand forms and the checks on them: channels (spec/42_address_table.md R139), widths
(spec/40_bitstream.md R101), fixed-point formats (spec/41_fixed_point.md R120, R122), cold-junction ids
(spec/43_config_assembler.md R165), floating-point operands (R64, R10), and the rounding and the range check of the codec
(R121, R123). -/

namespace Sys2Proof.Machine

open Sys2Proof

/-- `valid_ch(c)`: 1 to 20 (R139). -/
def validCh (c : BitVec 5) : Bool := decide (1 ≤ c.toNat) && decide (c.toNat ≤ Config.nch)

/-- "if not valid_ch(ch): raise E_CHANNEL" (R139). -/
def checkChannel (c : BitVec 5) : Except ErrCode Unit := if validCh c then .ok () else .error .channel

/-- A field width is 1 to 64 (R101, R106). -/
def checkWidth (w : BitVec 7) : Except ErrCode Unit :=
  if 1 ≤ w.toNat ∧ w.toNat ≤ Config.wmax then .ok () else .error .width

/-- A legal format: `1 <= w <= 64` and `n <= w` (R122). -/
def formatOk (w n : Nat) : Bool := decide (1 ≤ w) && decide (w ≤ 64) && decide (n ≤ w)

/-- "if w < 1 or w > 64 or n > w: raise E_FX_FORMAT" (R122, R124, R126). -/
def checkFormat (w n : Nat) : Except ErrCode Unit := if formatOk w n then .ok () else .error .fxFormat

/-- A cold-junction id is 0 (none) or a channel (R165). -/
def checkColdJunction (cj : BitVec 5) : Except ErrCode Unit := if cj.toNat ≤ 20 then .ok () else .error .field

/-! ### Floating-point operands -/

/-- The value of an IEEE 754 pattern with `eb` exponent bits and `mb` fraction bits, as `m * 2^e`; none for NaN and the
infinities (R10, R64; log 14). The value does not depend on whether a scaled product is representable (R125). -/
def ieeeFinite? (eb mb pattern : Nat) : Option (Int × Int) :=
  let frac := pattern % 2 ^ mb
  let exp := pattern / 2 ^ mb % 2 ^ eb
  let bias : Int := ((2 ^ (eb - 1) - 1 : Nat) : Int)
  let sign : Int := if pattern.testBit (eb + mb) then -1 else 1
  if exp = 2 ^ eb - 1 then none
  else if exp = 0 then some (sign * (frac : Int), 1 - bias - (mb : Int))
  else some (sign * ((2 ^ mb + frac : Nat) : Int), (exp : Int) - bias - (mb : Int))

/-- `val(x)` of a finite operand as `m * 2^e` with integers `m`, `e`; none for a non-finite one (R10). -/
def floatFinite? : FloatOp → Option (Int × Int)
  | .b32 v => ieeeFinite? 8 23 v.toNat
  | .b64 v => ieeeFinite? 11 52 v.toNat

/-- `m * 2^e * 2^n` as a fraction `num / 2^d`, exactly (R125). -/
def scale (m e : Int) (n : Nat) : Int × Nat :=
  if 0 ≤ e + (n : Int) then (m * ((2 ^ (e + (n : Int)).toNat : Nat) : Int), 0) else (m, (-(e + (n : Int))).toNat)

/-- `round(num / 2^d)` by `FX_ROUND` (R121): toward zero, toward minus infinity, to nearest with ties to even. -/
def roundFrac (mode : FxRound) (num : Int) (d : Nat) : Int :=
  let den : Int := ((2 ^ d : Nat) : Int)
  match mode with
  | .rtz => Int.tdiv num den
  | .rdn => Int.fdiv num den
  | .rne =>
    let q := Int.fdiv num den
    let r := num - q * den
    if 2 * r < den then q
    else if den < 2 * r then q + 1
    else if q % 2 = 0 then q
    else q + 1

/-- `t = round(val(x) * 2^n)` of a finite operand, none for a non-finite one (R123, R124). -/
def scaledInt (mode : FxRound) (x : FloatOp) (n : Nat) : Option Int :=
  match floatFinite? x with
  | none => none
  | some (m, e) => some (roundFrac mode (scale m e n).1 (scale m e n).2)

/-- Whether an integer is in the range of a `w`-bit format (R120): `[0, 2^w - 1]` unsigned,
`[-2^(w-1), 2^(w-1) - 1]` signed. -/
def inRange (w : Nat) (signed : Bool) (t : Int) : Bool :=
  if signed then decide (-((2 ^ (w - 1) : Nat) : Int) ≤ t) && decide (t ≤ ((2 ^ (w - 1) : Nat) : Int) - 1)
  else decide (0 ≤ t) && decide (t ≤ ((2 ^ w : Nat) : Int) - 1)

/-- The signedness bit `s` of a format (R120). -/
def isSigned (s : BitVec 1) : Bool := s == 1

/-- FX_ENCODE's pseudocode (R124): the format, then the range of the rounded scaled value, then the low `w` bits of its
two's-complement pattern. CFG_RSENSE and CFG_DIODE use it too (R131). -/
def fxEncode (mode : FxRound) (x : FloatOp) (w n : Nat) (signed : Bool) : Except ErrCode Nat :=
  match checkFormat w n with
  | .error e => .error e
  | .ok () =>
    match scaledInt mode x n with
    | none => .error .fxRange
    | some t => if inRange w signed t then .ok (t % ((2 ^ w : Nat) : Int)).toNat else .error .fxRange

/-- FX_DECODE's pseudocode (R126): the low `w` bits, signed or not, over `2^n`, exact. -/
def fxDecode (bits w n : Nat) (signed : Bool) : Except ErrCode Dy :=
  match checkFormat w n with
  | .error e => .error e
  | .ok () => .ok { k := if signed then signedOf w bits else ((bits % 2 ^ w : Nat) : Int), n := n }

/-- FX_DECODE24's `raw` (R127): the sign byte prepended, 32 bits. -/
def raw24 (b0 b1 b2 : Byte) : Word := (if b0.getLsbD 7 then (0xFF : Byte) else 0x00) ++ b0 ++ b1 ++ b2

/-- FX_DECODE24's `k`: `raw` read as a 32-bit signed number (R127). -/
def dec24 (b0 b1 b2 : Byte) : Int := signedOf 32 (raw24 b0 b1 b2).toNat

end Sys2Proof.Machine
end

