-- ==== Sys2Proof/Machine/BitStream.lean ====
section
/-! DEFINITION. The bit-stream packer/unpacker's commands (spec/40_bitstream.md R100 to R108). -/

namespace Sys2Proof.Machine

open Sys2Proof

/-- BS_RESET (R100): the reset state of R35. -/
def execBsReset (s : State) : Result := complete (.ok (.unit, Block.reset)) s

/-- BS_WRITE (R101, R102): the width, then the capacity. -/
def execBsWrite (v : BitVec 64) (w : BitVec 7) (s : State) : Result :=
  complete
    (do
      checkWidth w
      let b ← packBits s.par.bsCapBits s.blk w.toNat v.toNat
      .ok (.unit, b))
    s

/-- BS_ALIGN (R103). -/
def execBsAlign (s : State) : Result :=
  complete (.ok (.unit, { s.blk with wbits := alignBits s.par.padMode s.blk.wbits })) s

/-- BS_TAKE (R104): the aligned packer's bytes; the packer is then empty. -/
def execBsTake (s : State) : Result :=
  complete (.ok (.bytes (bytesOf (alignBits s.par.padMode s.blk.wbits)), { s.blk with wbits := [] })) s

/-- BS_LOAD (R105). -/
def execBsLoad (data : List Byte) (s : State) : Result :=
  complete
    (do
      let b ← loadBytes s.par.bsCapBits s.blk data
      .ok (.unit, b))
    s

/-- BS_READ (R106): the width, then the bits there are; the value zero-extended to 64 bits (D37). -/
def execBsRead (w : BitVec 7) (s : State) : Result :=
  complete
    (do
      checkWidth w
      let (v, b) ← unpackBits s.blk w.toNat
      .ok (.value (BitVec.ofNat 64 v), b))
    s

/-- BS_STAT (R107). -/
def execBsStat (s : State) : Result :=
  complete (.ok (.stat s.blk.wbits.length (8 * s.blk.rbytes.length - s.blk.rpos), s.blk)) s

end Sys2Proof.Machine
end

