-- ==== Sys2Proof/Machine/ChannelTable.lean ====
section
/-! DEFINITION. The channel address table's commands (spec/42_address_table.md R139 to R143). -/

namespace Sys2Proof.Machine

open Sys2Proof

/-- `0x200 + 4 * (ch - 1)` (R140). -/
def startAddr (ch : BitVec 5) : Addr := BitVec.ofNat 16 (0x200 + 4 * (ch.toNat - 1))

/-- `0x010 + 4 * (ch - 1)` (R141). -/
def resultAddr (ch : BitVec 5) : Addr := BitVec.ofNat 16 (0x010 + 4 * (ch.toNat - 1))

/-- `1 << (ch - 1)` (R142). -/
def chanMask (ch : BitVec 5) : Word := BitVec.ofNat 32 (1 <<< (ch.toNat - 1))

/-- The OR of each channel's mask, 0 for no channel (R143). -/
def maskOf : List (BitVec 5) → Word
  | [] => 0
  | c :: cs => chanMask c ||| maskOf cs

/-- Every ordinal of a list is a channel, else `E_CHANNEL` for the first that is not, in list order (R143). -/
def checkChannels : List (BitVec 5) → Except ErrCode Unit
  | [] => .ok ()
  | c :: cs => do
    checkChannel c
    checkChannels cs

/-- CH_START_ADDR (R140). -/
def execChStartAddr (ch : BitVec 5) (s : State) : Result :=
  answer
    (do
      checkChannel ch
      .ok (.addr (startAddr ch)))
    s

/-- CH_RESULT_ADDR (R141). -/
def execChResultAddr (ch : BitVec 5) (s : State) : Result :=
  answer
    (do
      checkChannel ch
      .ok (.addr (resultAddr ch)))
    s

/-- CH_MASK (R142). -/
def execChMask (ch : BitVec 5) (s : State) : Result :=
  answer
    (do
      checkChannel ch
      .ok (.mask (chanMask ch)))
    s

/-- CH_MASK_SET (R143): every ordinal is checked before the mask is formed. -/
def execChMaskSet (chs : List (BitVec 5)) (s : State) : Result :=
  answer
    (do
      checkChannels chs
      .ok (.mask (maskOf chs)))
    s

end Sys2Proof.Machine
end

