-- ==== Sys2Proof/Machine/ConfigAssembler.lean ====
section
/-! DEFINITION. The configuration register assembler's commands (spec/43_config_assembler.md R150 to R166). -/

namespace Sys2Proof.Machine

open Sys2Proof

/-! ### Shared steps -/

/-- A field of a layout: its width and the value written to it, which the packer masks (R150, R102). -/
abbrev Field := Nat × Nat

/-- The private packer's bits after the fields are written, the most-significant field first (R150, D28; log 17). -/
def packFields : List Field → Bits
  | [] => []
  | f :: fs => bitsOf f.1 f.2 ++ packFields fs

/-- The configuration word of a layout: the fields packed, and the check that they total 32 bits (R150, R153). -/
def assembleWord (fs : List Field) : Except ErrCode Word :=
  if (packFields fs).length = 32 then .ok (BitVec.ofNat 32 (natOf (packFields fs))) else .error .payloadWidth

/-- The answer of a build command: the word and the write transaction to the channel's start address (R151). -/
def buildAnswer (ch : BitVec 5) (fs : List Field) : Except ErrCode Payload := do
  let word ← assembleWord fs
  .ok (.build word (txnWriteBytes (startAddr ch) word))

/-- The thermocouple layout (R69, R154): 5 + 5 + 1 + 3 + 6 + 12 bits, bits [17:12] written 0 (R73). -/
def tcFields (p : Params) (tc : BitVec 3) (cj : BitVec 5) (mode : BitVec 1) (exc : BitVec 3) (caddr : BitVec 12) :
    List Field :=
  [(5, (tcId p.probeId tc).toNat), (5, cj.toNat), (1, mode.toNat), (3, exc.toNat), (6, 0), (12, caddr.toNat)]

/-- The sense-resistor layout (R69, R156): 5 + 27 bits. -/
def rsenseFields (p : Params) (rv : Nat) : List Field := [(5, p.probeId.rsense.toNat), (27, rv)]

/-- The diode layout (R69, R158): 5 + 1 + 1 + 1 + 2 + 22 bits; the ideality value is masked to 22 bits (R131). -/
def diodeFields (p : Params) (mode rd avg : BitVec 1) (exc : BitVec 2) (id : Nat) : List Field :=
  [(5, p.probeId.diode.toNat), (1, mode.toNat), (1, rd.toNat), (1, avg.toNat), (2, exc.toNat), (22, id % 2 ^ 22)]

/-- The ideality field's value: 0 without an override (R73), else the codec's answer for the format
`(IDEAL_PREMASK_W, 20, unsigned)` (R131, R158). The `eta` operand is not read without an override. -/
def idealValue (p : Params) (hasEta : BitVec 1) (eta : FloatOp) : Except ErrCode Nat :=
  if hasEta = 1 then fxEncode p.fxRound eta p.idealPremaskW 20 false else .ok 0

/-- What CFG_DECODE answers for a word of a class (R161): the fields of the class's layout as they are read. -/
def classAnswer (p : Params) (c : CfgClass) (w : Word) : Except ErrCode Payload :=
  match c with
  | .unconfigured => .error .notConfigured
  | .unsupported => .error .unsupported
  | .thermocouple t =>
    .ok (.record (.tc t (w.extractLsb' 22 5) (w.extractLsb' 21 1) (w.extractLsb' 18 3) (w.extractLsb' 12 6)
      (w.extractLsb' 0 12)))
  | .senseResistor =>
    .ok (.record (.rs (w.extractLsb' 0 27) { k := ((w.extractLsb' 0 27).toNat : Int), n := p.rsenseFrac }))
  | .diode =>
    .ok (.record (.di (w.extractLsb' 26 1) (w.extractLsb' 25 1) (w.extractLsb' 24 1) (w.extractLsb' 22 2)
      (w.extractLsb' 0 22) (w.extractLsb' 0 22 != 0) { k := ((w.extractLsb' 0 22).toNat : Int), n := 20 }))

/-! ### Commands -/

/-- CFG_TC (R154): the channel, the cold-junction id, then the word. Every `tc` names a type, `cj = ch` is accepted and
`caddr` is encoded for every type (D23, D36). -/
def execCfgTc (ch : BitVec 5) (tc : BitVec 3) (cj : BitVec 5) (mode : BitVec 1) (exc : BitVec 3) (caddr : BitVec 12)
    (s : State) : Result :=
  answer
    (do
      checkChannel ch
      checkColdJunction cj
      buildAnswer ch (tcFields s.par tc cj mode exc caddr))
    s

/-- CFG_RSENSE (R156): the channel, the codec's answer for `(27, RSENSE_FRAC, unsigned)`, then the word. -/
def execCfgRsense (ch : BitVec 5) (r : FloatOp) (s : State) : Result :=
  answer
    (do
      checkChannel ch
      let rv ← fxEncode s.par.fxRound r 27 s.par.rsenseFrac false
      buildAnswer ch (rsenseFields s.par rv))
    s

/-- CFG_DIODE (R158): the channel, the ideality value, then the word. -/
def execCfgDiode (ch : BitVec 5) (mode rd avg : BitVec 1) (exc : BitVec 2) (hasEta : BitVec 1) (eta : FloatOp)
    (s : State) : Result :=
  answer
    (do
      checkChannel ch
      let id ← idealValue s.par hasEta eta
      buildAnswer ch (diodeFields s.par mode rd avg exc id))
    s

/-- CFG_UNSUP (R159): never `Ok`. The family `fam` (R72: 0 RTD, 1 thermistor, 2 custom thermocouple, 3 direct ADC) does
not change the answer. -/
def execCfgUnsup (ch : BitVec 5) (_fam : BitVec 2) (s : State) : Result :=
  answer
    (do
      checkChannel ch
      .error .unsupported)
    s

/-- CFG_DECODE (R161): the class of bits [31:27], then its answer. -/
def execCfgDecode (word : Word) (s : State) : Result :=
  answer (classAnswer s.par (classify s.par.probeId (word.extractLsb' 27 5)) word) s

/-- CFG_CHECK (R163): any nonzero identifier is configured (D40). -/
def execCfgCheck (word : Word) (s : State) : Result :=
  answer
    (if word.extractLsb' 27 5 = 0 then .error .notConfigured else .ok (.pid (word.extractLsb' 27 5)))
    s

/-- CFG_READ_REQ (R164). -/
def execCfgReadReq (ch : BitVec 5) (s : State) : Result :=
  answer
    (do
      checkChannel ch
      .ok (.request (txnReadBytes (startAddr ch))))
    s

end Sys2Proof.Machine
end

