-- ==== Sys2Proof/Machine/FixedPoint.lean ====
section
/-! DEFINITION. The fixed-point codec's commands (spec/41_fixed_point.md R124, R126, R127). -/

namespace Sys2Proof.Machine

open Sys2Proof

/-- FX_ENCODE (R124): the pattern, zero-extended to 64 bits. -/
def execFxEncode (x : FloatOp) (w n : BitVec 7) (sg : BitVec 1) (s : State) : Result :=
  answer
    (do
      let t ← fxEncode s.par.fxRound x w.toNat n.toNat (isSigned sg)
      .ok (.pattern (BitVec.ofNat 64 t)))
    s

/-- FX_DECODE (R126): the exact value. -/
def execFxDecode (bits : BitVec 64) (w n : BitVec 7) (sg : BitVec 1) (s : State) : Result :=
  answer
    (do
      let d ← fxDecode bits.toNat w.toNat n.toNat (isSigned sg)
      .ok (.dyadic d))
    s

/-- FX_DECODE24 (R127): `raw`, `k` and the value `dy(k, 10)`; total. -/
def execFxDecode24 (b0 b1 b2 : Byte) (s : State) : Result :=
  answer (.ok (.dec24 (raw24 b0 b1 b2) (dec24 b0 b1 b2) { k := dec24 b0 b1 b2, n := 10 })) s

end Sys2Proof.Machine
end

