-- ==== Sys2Proof/Machine/ResultDecoder.lean ====
section
/-! DEFINITION. The result register decoder's commands (spec/44_result_decoder.md R180 to R185). -/

namespace Sys2Proof.Machine

open Sys2Proof

/-- The outcome of a status byte (R75, R183): its tag, and whether it carries a value; none for the 248 bytes that are
not one-hot (R76). The byte is compared by exact value, with no priority between bits (R181). -/
def statusOutcome? (b : Byte) : Option (BitVec 3 × Bool) :=
  match b.toNat with
  | 0x01 => some (0, true)
  | 0x02 => some (1, true)
  | 0x04 => some (2, true)
  | 0x08 => some (3, true)
  | 0x10 => some (4, true)
  | 0x20 => some (5, false)
  | 0x40 => some (6, false)
  | 0x80 => some (7, false)
  | _ => none

/-- The payload of an outcome (R182, R183): `k` and the value `dy(k, 10)` where it carries one, `k = 0` and no value
where it does not. -/
def outcomePayload (tag : BitVec 3) (hasValue : Bool) (k : Int) : Payload :=
  if hasValue then .outcome tag true k (some { k := k, n := 10 }) else .outcome tag false 0 none

/-- RES_DECODE's pseudocode (R183). -/
def resAnswer (b0 b1 b2 b3 : Byte) : Except ErrCode Payload :=
  match statusOutcome? b0 with
  | none => .error .malformedStatus
  | some (tag, hasValue) => .ok (outcomePayload tag hasValue (dec24 b1 b2 b3))

/-- RES_DECODE's answer for a result word, bits [31:24] the status byte (R74). -/
def resWordAnswer (w : Word) : Except ErrCode Payload :=
  resAnswer (w.extractLsb' 24 8) (w.extractLsb' 16 8) (w.extractLsb' 8 8) (w.extractLsb' 0 8)

/-- RES_DECODE (R183). -/
def execResDecode (b0 b1 b2 b3 : Byte) (s : State) : Result := answer (resAnswer b0 b1 b2 b3) s

/-- RES_READ_REQ (R185). -/
def execResReadReq (ch : BitVec 5) (s : State) : Result :=
  answer
    (do
      checkChannel ch
      .ok (.request (txnReadBytes (resultAddr ch))))
    s

end Sys2Proof.Machine
end

