-- ==== Sys2Proof/Machine/Transactions.lean ====
section
/-! DEFINITION. The two transaction rows (spec/30_encoding.md R78 to R81): what a transaction the host submits to its
transport does to the remote registers (spec/10_state.md R32, R33). The block takes no part in it: it "emits a
transaction in a response and never submits one" (R54), so no response is given and the block state is untouched
(log 7). -/

namespace Sys2Proof.Machine

open Sys2Proof

/-- TXN_WRITE (R79): the 32-bit payload is written to the channel's configuration register, bits [31:24] at its first
byte (R40; log 9). The source gives no other register that is written (R33, I18): any other address is refused (log 10). -/
def execTxnWrite (addr : Addr) (word : Word) (s : State) : Result :=
  if isCfgReg addr then
    .next { s with remote := { s.remote with regs := s.remote.regs.writeBytes addr.toNat (wordBytes word) } }
  else .refused .remoteAddress

/-- TXN_READ (R80): the transport "returns the 4 bytes of the register, first byte = bits [31:24]", of a configuration
or a result register. A byte no transaction has written is any value (I17; log 8). Any other address is refused (I18;
log 10). -/
def execTxnRead (addr : Addr) (s : State) : Result :=
  if isCfgReg addr || isResReg addr then
    .next { s with
      remote := { s.remote with
        answers := s.remote.answers ++ [s.remote.register addr.toNat]
        draws := s.remote.draws + 1 } }
  else .refused .remoteAddress

end Sys2Proof.Machine
end

