-- ==== Sys2Proof/Machine/Words.lean ====
section
/-! DEFINITION. The configuration-word and result-word rows of the opcode table (spec/30_encoding.md R69 to R76). Such a
word presented to the block is decoded, and the answer is the one CFG_DECODE (R161) or RES_DECODE (R183) gives for it
(log 5). -/

namespace Sys2Proof.Machine

open Sys2Proof

/-- A configuration word of a known class, presented to the block (R161). -/
def answerCfgWord (c : CfgClass) (w : Word) (s : State) : Result := answer (classAnswer s.par c w) s

/-- A thermocouple word of type index `t` (R69, R161). -/
def answerTcWord (t : BitVec 3) (cj : BitVec 5) (mode : BitVec 1) (exc : BitVec 3) (rsv : BitVec 6)
    (caddr : BitVec 12) (s : State) : Result :=
  answerCfgWord (.thermocouple t) (tcWord (tcId s.par.probeId t) cj mode exc rsv caddr) s

/-- CFGW_TC_J (R70, R161). -/
def execCfgwTcJ (cj : BitVec 5) (mode : BitVec 1) (exc : BitVec 3) (rsv : BitVec 6) (caddr : BitVec 12) (s : State) :
    Result :=
  answerTcWord 0 cj mode exc rsv caddr s

/-- CFGW_TC_K (R70, R161). -/
def execCfgwTcK (cj : BitVec 5) (mode : BitVec 1) (exc : BitVec 3) (rsv : BitVec 6) (caddr : BitVec 12) (s : State) :
    Result :=
  answerTcWord 1 cj mode exc rsv caddr s

/-- CFGW_TC_E (R70, R161). -/
def execCfgwTcE (cj : BitVec 5) (mode : BitVec 1) (exc : BitVec 3) (rsv : BitVec 6) (caddr : BitVec 12) (s : State) :
    Result :=
  answerTcWord 2 cj mode exc rsv caddr s

/-- CFGW_TC_N (R70, R161). -/
def execCfgwTcN (cj : BitVec 5) (mode : BitVec 1) (exc : BitVec 3) (rsv : BitVec 6) (caddr : BitVec 12) (s : State) :
    Result :=
  answerTcWord 3 cj mode exc rsv caddr s

/-- CFGW_TC_R (R70, R161). -/
def execCfgwTcR (cj : BitVec 5) (mode : BitVec 1) (exc : BitVec 3) (rsv : BitVec 6) (caddr : BitVec 12) (s : State) :
    Result :=
  answerTcWord 4 cj mode exc rsv caddr s

/-- CFGW_TC_S (R70, R161). -/
def execCfgwTcS (cj : BitVec 5) (mode : BitVec 1) (exc : BitVec 3) (rsv : BitVec 6) (caddr : BitVec 12) (s : State) :
    Result :=
  answerTcWord 5 cj mode exc rsv caddr s

/-- CFGW_TC_T (R70, R161). -/
def execCfgwTcT (cj : BitVec 5) (mode : BitVec 1) (exc : BitVec 3) (rsv : BitVec 6) (caddr : BitVec 12) (s : State) :
    Result :=
  answerTcWord 6 cj mode exc rsv caddr s

/-- CFGW_TC_B (R70, R161). -/
def execCfgwTcB (cj : BitVec 5) (mode : BitVec 1) (exc : BitVec 3) (rsv : BitVec 6) (caddr : BitVec 12) (s : State) :
    Result :=
  answerTcWord 7 cj mode exc rsv caddr s

/-- CFGW_DIODE (R70, R161). -/
def execCfgwDiode (mode rd avg : BitVec 1) (exc : BitVec 2) (ideal : BitVec 22) (s : State) : Result :=
  answerCfgWord .diode (diodeWord s.par.probeId.diode mode rd avg exc ideal) s

/-- CFGW_RSENSE (R70, R161). -/
def execCfgwRsense (rval : BitVec 27) (s : State) : Result :=
  answerCfgWord .senseResistor (rsenseWord s.par.probeId.rsense rval) s

/-- CFGW_UNCONFIGURED (R71, R161): bits [26:0] are ignored. -/
def execCfgwUnconfigured (ignored : BitVec 27) (s : State) : Result :=
  answerCfgWord .unconfigured (rsenseWord 0 ignored) s

/-- A result word with status byte `status`, presented to the block (R183). -/
def answerResWord (status : Byte) (value : BitVec 24) (s : State) : Result :=
  answer (resWordAnswer (resWord status value)) s

/-- RESW_VALID, status byte 0x01 (R75, R183). -/
def execReswValid (value : BitVec 24) (s : State) : Result := answerResWord 0x01 value s

/-- RESW_ADC_OUT_OF_RANGE, status byte 0x02 (R75, R183). -/
def execReswAdcOutOfRange (value : BitVec 24) (s : State) : Result := answerResWord 0x02 value s

/-- RESW_SENSOR_UNDER_RANGE, status byte 0x04 (R75, R183). -/
def execReswSensorUnderRange (value : BitVec 24) (s : State) : Result := answerResWord 0x04 value s

/-- RESW_SENSOR_OVER_RANGE, status byte 0x08 (R75, R183). -/
def execReswSensorOverRange (value : BitVec 24) (s : State) : Result := answerResWord 0x08 value s

/-- RESW_CJ_SOFT_FAULT, status byte 0x10 (R75, R183). -/
def execReswCjSoftFault (value : BitVec 24) (s : State) : Result := answerResWord 0x10 value s

/-- RESW_CJ_HARD_FAULT, status byte 0x20: no value (R75, R183). -/
def execReswCjHardFault (ignored : BitVec 24) (s : State) : Result := answerResWord 0x20 ignored s

/-- RESW_ADC_HARD_OUT_OF_RANGE, status byte 0x40: no value (R75, R183). -/
def execReswAdcHardOutOfRange (ignored : BitVec 24) (s : State) : Result := answerResWord 0x40 ignored s

/-- RESW_SENSOR_HARD_FAULT, status byte 0x80: no value (R75, R183). -/
def execReswSensorHardFault (ignored : BitVec 24) (s : State) : Result := answerResWord 0x80 ignored s

end Sys2Proof.Machine
end

