-- ==== Sys2Proof/Machine/Dispatch.lean ====
section
/-! DEFINITION. One arm per row of spec/opcode_table.json: the meaning of each instruction. -/

namespace Sys2Proof.Machine

open Sys2Proof

def exec (i : Instr) (s : State) : Host.Outcome State Fault Refusal :=
  match i with
  -- bit-stream packer/unpacker (40_bitstream.md)
  | .bsReset => Sys2Proof.Machine.execBsReset s
  | .bsWrite v w => Sys2Proof.Machine.execBsWrite v w s
  | .bsAlign => Sys2Proof.Machine.execBsAlign s
  | .bsTake => Sys2Proof.Machine.execBsTake s
  | .bsLoad data => Sys2Proof.Machine.execBsLoad data s
  | .bsRead w => Sys2Proof.Machine.execBsRead w s
  | .bsStat => Sys2Proof.Machine.execBsStat s
  -- fixed-point codec (41_fixed_point.md)
  | .fxEncode x w n sg => Sys2Proof.Machine.execFxEncode x w n sg s
  | .fxDecode bits w n sg => Sys2Proof.Machine.execFxDecode bits w n sg s
  | .fxDecode24 b0 b1 b2 => Sys2Proof.Machine.execFxDecode24 b0 b1 b2 s
  -- channel address table (42_address_table.md)
  | .chStartAddr ch => Sys2Proof.Machine.execChStartAddr ch s
  | .chResultAddr ch => Sys2Proof.Machine.execChResultAddr ch s
  | .chMask ch => Sys2Proof.Machine.execChMask ch s
  | .chMaskSet chs => Sys2Proof.Machine.execChMaskSet chs s
  -- configuration assembler (43_config_assembler.md)
  | .cfgTc ch tc cj mode exc caddr => Sys2Proof.Machine.execCfgTc ch tc cj mode exc caddr s
  | .cfgRsense ch r => Sys2Proof.Machine.execCfgRsense ch r s
  | .cfgDiode ch mode rd avg exc hasEta eta => Sys2Proof.Machine.execCfgDiode ch mode rd avg exc hasEta eta s
  | .cfgUnsup ch fam => Sys2Proof.Machine.execCfgUnsup ch fam s
  | .cfgDecode word => Sys2Proof.Machine.execCfgDecode word s
  | .cfgCheck word => Sys2Proof.Machine.execCfgCheck word s
  | .cfgReadReq ch => Sys2Proof.Machine.execCfgReadReq ch s
  -- result decoder (44_result_decoder.md)
  | .resDecode b0 b1 b2 b3 => Sys2Proof.Machine.execResDecode b0 b1 b2 b3 s
  | .resReadReq ch => Sys2Proof.Machine.execResReadReq ch s
  -- configuration words, by the class of bits [31:27] (30_encoding.md R69 to R71)
  | .cfgwTcJ cj mode exc rsv caddr => Sys2Proof.Machine.execCfgwTcJ cj mode exc rsv caddr s
  | .cfgwTcK cj mode exc rsv caddr => Sys2Proof.Machine.execCfgwTcK cj mode exc rsv caddr s
  | .cfgwTcE cj mode exc rsv caddr => Sys2Proof.Machine.execCfgwTcE cj mode exc rsv caddr s
  | .cfgwTcN cj mode exc rsv caddr => Sys2Proof.Machine.execCfgwTcN cj mode exc rsv caddr s
  | .cfgwTcR cj mode exc rsv caddr => Sys2Proof.Machine.execCfgwTcR cj mode exc rsv caddr s
  | .cfgwTcS cj mode exc rsv caddr => Sys2Proof.Machine.execCfgwTcS cj mode exc rsv caddr s
  | .cfgwTcT cj mode exc rsv caddr => Sys2Proof.Machine.execCfgwTcT cj mode exc rsv caddr s
  | .cfgwTcB cj mode exc rsv caddr => Sys2Proof.Machine.execCfgwTcB cj mode exc rsv caddr s
  | .cfgwDiode mode rd avg exc ideal => Sys2Proof.Machine.execCfgwDiode mode rd avg exc ideal s
  | .cfgwRsense rval => Sys2Proof.Machine.execCfgwRsense rval s
  | .cfgwUnconfigured ignored => Sys2Proof.Machine.execCfgwUnconfigured ignored s
  -- result words, by the status byte (30_encoding.md R74, R75)
  | .reswValid value => Sys2Proof.Machine.execReswValid value s
  | .reswAdcOutOfRange value => Sys2Proof.Machine.execReswAdcOutOfRange value s
  | .reswSensorUnderRange value => Sys2Proof.Machine.execReswSensorUnderRange value s
  | .reswSensorOverRange value => Sys2Proof.Machine.execReswSensorOverRange value s
  | .reswCjSoftFault value => Sys2Proof.Machine.execReswCjSoftFault value s
  | .reswCjHardFault ignored => Sys2Proof.Machine.execReswCjHardFault ignored s
  | .reswAdcHardOutOfRange ignored => Sys2Proof.Machine.execReswAdcHardOutOfRange ignored s
  | .reswSensorHardFault ignored => Sys2Proof.Machine.execReswSensorHardFault ignored s
  -- transactions (30_encoding.md R78 to R81)
  | .txnWrite addr word => Sys2Proof.Machine.execTxnWrite addr word s
  | .txnRead addr => Sys2Proof.Machine.execTxnRead addr s

end Sys2Proof.Machine
end

