-- ==== Sys2Proof/Machine/Step.lean ====
section
/-! DEFINITION. One step (spec/00_scope.md R12): take the next input the host presents, and perform it. -/

namespace Sys2Proof.Machine

open Sys2Proof

/-- One input, already taken from the sequence: the reset input (R230), or bits at a port, decoded and performed (R12). -/
def performInput (x : Input) (s : State) : Result :=
  match x with
  | .reset => .next (resetInput s)
  | .bits port b =>
    match decode s.par port b with
    | .ok i => exec i s
    | .error r => onReject r s

/-- One step. An instance with parameters the spec does not allow is refused (R70; log 13). With nothing presented the
machine keeps its state (log 1). -/
def step (s : State) : Host.Outcome State Fault Refusal :=
  if s.par.ok then
    match s.inputs with
    | [] => .next s
    | x :: _ => performInput x (popInput s)
  else .refused .badParameters

/-- The state in which the next step takes the table word `w` of `nbits` bits: it is presented first, at the port its
format gives it (log 11, log 15). -/
def State.withFetchWord (s : State) (nbits w : Nat) : State :=
  pushInput (.bits (tablePort nbits w) (tableBits s.par.floatFmt nbits w)) s

end Sys2Proof.Machine
end

