-- ==== Sys2Proof/Machine/Flags.lean ====
section
/-! DEFINITION. The status a command reports. The block has no flags (spec/10_state.md R27): "The only per-command status
is the Ok/Err tag of the response and the error code it carries". Here are the codes' numbers (spec/60_exceptions.md
R201) and the order in which several errors of one command are reported (R203). -/

namespace Sys2Proof.Machine

/-- The 8-bit error code (R201). -/
def ErrCode.code : ErrCode → Byte
  | .illegalCmd => 0x01
  | .width => 0x02
  | .underrun => 0x03
  | .overflow => 0x04
  | .fxFormat => 0x05
  | .fxRange => 0x06
  | .channel => 0x07
  | .field => 0x08
  | .unsupported => 0x09
  | .malformedStatus => 0x0A
  | .notConfigured => 0x0B
  | .payloadWidth => 0x0C

/-- The place of an error in the order of R203: the applicable error of least place is reported. The decoders' errors
exclude one another, so their place settles nothing. -/
def ErrCode.place : ErrCode → Nat
  | .illegalCmd => 1
  | .channel => 2
  | .width | .fxFormat | .field => 3
  | .unsupported | .malformedStatus | .notConfigured => 4
  | .fxRange => 5
  | .overflow | .underrun => 6
  | .payloadWidth => 7

/-- The `Err` code of a response, none for `Ok` (R200). -/
def Response.errCode? : Response → Option Byte
  | .ok _ => none
  | .err e => some e.code

/-- The class tag of a decoded record (R161): 0 thermocouple, 1 sense resistor, 2 diode. -/
def Record.tag : Record → Nat
  | .tc _ _ _ _ _ _ => 0
  | .rs _ _ => 1
  | .di _ _ _ _ _ _ _ => 2

end Sys2Proof.Machine
end

