-- ==== Sys2Proof/Machine/Assembler.lean ====
section
/-! DEFINITION. The assembler notation of spec/30_encoding.md R66 and the pseudo-instructions of R67, on lines already cut
into a mnemonic and its operands (log 19). A number operand is one that fits its field's width. -/

namespace Sys2Proof.Machine

open Sys2Proof

/-- One operand of a line, as R66 writes it. -/
inductive AsmArg where
  /-- a number -/
  | num (n : Nat)
  /-- a floating-point number, already in the instance's format -/
  | float (x : FloatOp)
  /-- `[b0, b1, ...]` -/
  | bytes (ns : List Nat)
  /-- the set of `ch.maskset` -/
  | set (ns : List Nat)
  /-- a name: `u`, `s`, a thermocouple type of R70 or an unsupported family of R72 -/
  | name (nm : String)
  /-- `key=n` -/
  | keyNum (key : String) (n : Nat)
  /-- `key=x` -/
  | keyFloat (key : String) (x : FloatOp)
  /-- `key=none` -/
  | keyNone (key : String)
  deriving DecidableEq, Repr

/-- A line: `mnemonic operand, operand, ...` (R66). -/
structure AsmLine where
  mnemonic : String
  args     : List AsmArg
  deriving DecidableEq, Repr

/-- The value of a decimal digit. -/
def decDigit? (c : Char) : Option Nat := if '0' ≤ c ∧ c ≤ '9' then some (c.toNat - 48) else none

/-- The value of a hexadecimal digit. -/
def hexDigit? (c : Char) : Option Nat :=
  if '0' ≤ c ∧ c ≤ '9' then some (c.toNat - 48)
  else if 'a' ≤ c ∧ c ≤ 'f' then some (c.toNat - 87)
  else if 'A' ≤ c ∧ c ≤ 'F' then some (c.toNat - 55)
  else none

/-- Digits in a base, the first most significant, after the value `acc` of those before them. -/
def readDigits (base : Nat) (digit? : Char → Option Nat) (acc : Nat) : List Char → Option Nat
  | [] => some acc
  | c :: cs =>
    match digit? c with
    | some d => readDigits base digit? (acc * base + d) cs
    | none => none

/-- A number "in decimal or 0x hexadecimal" (R66). -/
def readNumber : List Char → Option Nat
  | [] => none
  | ['0', 'x'] => none
  | '0' :: 'x' :: ds => readDigits 16 hexDigit? 0 ds
  | ds => readDigits 10 decDigit? 0 ds

/-- A number that fits a `w`-bit field. -/
def numField (w n : Nat) : Option (BitVec w) := if n < 2 ^ w then some (BitVec.ofNat w n) else none

/-- Numbers that each fit a `w`-bit field. -/
def numFields (w : Nat) : List Nat → Option (List (BitVec w))
  | [] => some []
  | n :: ns => do
    let v ← numField w n
    let vs ← numFields w ns
    some (v :: vs)

/-- `u` or `s` (R66). -/
def signName (nm : String) : Option (BitVec 1) :=
  if nm = "u" then some 0 else if nm = "s" then some 1 else none

/-- The type names of R70. -/
def tcName (nm : String) : Option (BitVec 3) :=
  match nm with
  | "J" => some 0
  | "K" => some 1
  | "E" => some 2
  | "N" => some 3
  | "R" => some 4
  | "S" => some 5
  | "T" => some 6
  | "B" => some 7
  | _ => none

/-- A thermocouple type: 0..7 or a name of R70. -/
def tcArg : AsmArg → Option (BitVec 3)
  | .num n => numField 3 n
  | .name nm => tcName nm
  | .float _ | .bytes _ | .set _ | .keyNum _ _ | .keyFloat _ _ | .keyNone _ => none

/-- The unsupported families of R72, by the names of R66. -/
def famName (nm : String) : Option (BitVec 2) :=
  match nm with
  | "rtd" => some 0
  | "thermistor" => some 1
  | "custom_tc" => some 2
  | "direct_adc" => some 3
  | _ => none

/-- The key of an operand written `key=...`. -/
def AsmArg.key? : AsmArg → Option String
  | .keyNum k _ | .keyFloat k _ | .keyNone k => some k
  | .num _ | .float _ | .bytes _ | .set _ | .name _ => none

/-- Every operand is written with one of the keys, and none twice. -/
def keysOk (keys : List String) (args : List AsmArg) : Bool :=
  args.all (fun a => match a.key? with
    | some k => keys.contains k
    | none => false) && decide ((args.filterMap AsmArg.key?).Nodup)

/-- The `w`-bit number written for a key, 0 where it is omitted (R67). -/
def keyField (w : Nat) (key : String) : List AsmArg → Option (BitVec w)
  | [] => some 0
  | .keyNum k n :: rest => if k = key then numField w n else keyField w key rest
  | .keyFloat k _ :: rest => if k = key then none else keyField w key rest
  | .keyNone k :: rest => if k = key then none else keyField w key rest
  | .num _ :: rest | .float _ :: rest | .bytes _ :: rest | .set _ :: rest | .name _ :: rest => keyField w key rest

/-- The zero pattern of a format, the operand that stands where `eta` is absent; it is not read (R158). -/
def floatZero : FloatFmt → FloatOp
  | .binary32 => .b32 0
  | .binary64 => .b64 0

/-- `eta=x`, or `eta=none`, which an omitted `eta` stands for (R67): `has_eta` and the operand. -/
def etaField (fmt : FloatFmt) : List AsmArg → Option (BitVec 1 × FloatOp)
  | [] => some (0, floatZero fmt)
  | .keyFloat k x :: rest => if k = "eta" then (if x.fmt = fmt then some (1, x) else none) else etaField fmt rest
  | .keyNum k _ :: rest => if k = "eta" then none else etaField fmt rest
  | .keyNone k :: rest => if k = "eta" then some (0, floatZero fmt) else etaField fmt rest
  | .num _ :: rest | .float _ :: rest | .bytes _ :: rest | .set _ :: rest | .name _ :: rest => etaField fmt rest

/-- A floating-point operand of the instance's format. -/
def floatArg (fmt : FloatFmt) (x : FloatOp) : Option FloatOp := if x.fmt = fmt then some x else none

/-- A list whose length fits its 8-bit count (R65). -/
def countArg {α : Type} (l : List α) : Option (List α) := if countOk l.length then some l else none

/-- The operands of `cfg.tc` after its channel and type (R66, R67). -/
def asmTc (ch : BitVec 5) (tc : BitVec 3) (args : List AsmArg) : Option Instr :=
  if keysOk ["cj", "mode", "exc", "caddr"] args then do
    let cj ← keyField 5 "cj" args
    let mode ← keyField 1 "mode" args
    let exc ← keyField 3 "exc" args
    let caddr ← keyField 12 "caddr" args
    some (.cfgTc ch tc cj mode exc caddr)
  else none

/-- The operands of `cfg.diode` after its channel (R66, R67). -/
def asmDiode (fmt : FloatFmt) (ch : BitVec 5) (args : List AsmArg) : Option Instr :=
  if keysOk ["mode", "rd", "avg", "exc", "eta"] args then do
    let mode ← keyField 1 "mode" args
    let rd ← keyField 1 "rd" args
    let avg ← keyField 1 "avg" args
    let exc ← keyField 2 "exc" args
    let (hasEta, eta) ← etaField fmt args
    some (.cfgDiode ch mode rd avg exc hasEta eta)
  else none

/-- The instruction a line of R66 stands for. -/
def assembleCore (p : Params) (l : AsmLine) : Option Instr :=
  match l.mnemonic, l.args with
  | "bs.reset", [] => some .bsReset
  | "bs.write", [.num v, .num w] => do some (.bsWrite (← numField 64 v) (← numField 7 w))
  | "bs.align", [] => some .bsAlign
  | "bs.take", [] => some .bsTake
  | "bs.load", [.bytes ns] => do some (.bsLoad (← countArg (← numFields 8 ns)))
  | "bs.read", [.num w] => do some (.bsRead (← numField 7 w))
  | "bs.stat", [] => some .bsStat
  | "fx.enc", [.float x, .num w, .num n, .name sg] => do
    some (.fxEncode (← floatArg p.floatFmt x) (← numField 7 w) (← numField 7 n) (← signName sg))
  | "fx.dec", [.num b, .num w, .num n, .name sg] => do
    some (.fxDecode (← numField 64 b) (← numField 7 w) (← numField 7 n) (← signName sg))
  | "fx.dec24", [.num b0, .num b1, .num b2] => do
    some (.fxDecode24 (← numField 8 b0) (← numField 8 b1) (← numField 8 b2))
  | "ch.cfgaddr", [.num c] => do some (.chStartAddr (← numField 5 c))
  | "ch.resaddr", [.num c] => do some (.chResultAddr (← numField 5 c))
  | "ch.mask", [.num c] => do some (.chMask (← numField 5 c))
  | "ch.maskset", [.set cs] => do some (.chMaskSet (← countArg (← numFields 5 cs)))
  | "cfg.tc", .num c :: t :: args => do asmTc (← numField 5 c) (← tcArg t) args
  | "cfg.rsense", [.num c, .float r] => do some (.cfgRsense (← numField 5 c) (← floatArg p.floatFmt r))
  | "cfg.diode", .num c :: args => do asmDiode p.floatFmt (← numField 5 c) args
  | "cfg.unsup", [.num c, .name fam] => do some (.cfgUnsup (← numField 5 c) (← famName fam))
  | "cfg.decode", [.num w] => do some (.cfgDecode (← numField 32 w))
  | "cfg.check", [.num w] => do some (.cfgCheck (← numField 32 w))
  | "cfg.rdreq", [.num c] => do some (.cfgReadReq (← numField 5 c))
  | "res.decode", [.num b0, .num b1, .num b2, .num b3] => do
    some (.resDecode (← numField 8 b0) (← numField 8 b1) (← numField 8 b2) (← numField 8 b3))
  | "res.rdreq", [.num c] => do some (.resReadReq (← numField 5 c))
  | _, _ => none

/-- The expansion of a pseudo-instruction (R67); a line that is none is itself. -/
def expandPseudo (p : Params) (l : AsmLine) : AsmLine :=
  match l.mnemonic, l.args with
  | "bs.write32", [v] => { mnemonic := "bs.write", args := [v, .num 32] }
  | "cfg.tc.plain", [c, t] =>
    { mnemonic := "cfg.tc", args := [c, t, .keyNum "cj" 0, .keyNum "mode" 0, .keyNum "exc" 0, .keyNum "caddr" 0] }
  | "cfg.diode.default", [c] =>
    { mnemonic := "cfg.diode",
      args := [c, .keyNum "mode" 0, .keyNum "rd" 0, .keyNum "avg" 0, .keyNum "exc" 0, .keyNone "eta"] }
  | "fx.enc.rsense", [r] => { mnemonic := "fx.enc", args := [r, .num 27, .num p.rsenseFrac, .name "u"] }
  | "fx.enc.ideal", [x] => { mnemonic := "fx.enc", args := [x, .num p.idealPremaskW, .num 20, .name "u"] }
  | "res.value", [b1, b2, b3] => { mnemonic := "fx.dec24", args := [b1, b2, b3] }
  | _, _ => l

/-- Assemble a line: expand it where it is a pseudo-instruction, then read it (R66, R67). -/
def assemble (p : Params) (l : AsmLine) : Option Instr := assembleCore p (expandPseudo p l)

end Sys2Proof.Machine
end

