-- ==== Sys2Proof/Safety.lean ====
section
/-! DEFINITION. What counts as a safe run, in the terms claims use: the state invariant of spec/10_state.md R22 with the
canonical form of the remote registers, the inputs the spec gives a meaning, the exact numbers of the codec as rationals (R10,
R121), and when each error applies to a command (R201). -/

namespace Sys2Proof.Machine

open Sys2Proof

/-- R22: the packer and the unpacker fit the capacity, and the cursor is within the loaded bytes. -/
def Block.inv (p : Params) (b : Block) : Prop :=
  b.wbits.length ≤ p.bsCapBits ∧ 8 * b.rbytes.length ≤ p.bsCapBits ∧ b.rpos ≤ 8 * b.rbytes.length

/-- The invariant of the whole machine. -/
structure State.Inv (s : State) : Prop where
  /-- the parameters are ones an instance may have (R5, R70) -/
  par    : s.par.ok = true
  /-- the block's invariants (R22) -/
  blk    : s.blk.inv s.par
  /-- the remote registers are in canonical form -/
  remote : s.remote.regs.wf = true

/-- An input the spec gives a meaning: the reset input, a request of the length its code gives or with an illegal code
(R60, R62), a 32-bit word at a word port, or a transaction for a register the spec gives (R47). -/
def Input.described (p : Params) : Input → Prop
  | .reset => True
  | .bits port b =>
    match decode p port b with
    | .ok (.txnWrite addr _) => isCfgReg addr = true
    | .ok (.txnRead addr) => isCfgReg addr = true ∨ isResReg addr = true
    | .ok _ => True
    | .error .illegalCmd => True
    | .error .unsupportedWord => True
    | .error .malformedStatus => True
    | .error .requestLength => False
    | .error .wordLength => False
    | .error .noTransaction => False

/-! ### What a command answers -/

/-- The instruction answers `Ok(p)`, and nothing of the state but the response sequence changes. -/
def AnswersOk (i : Instr) (s : State) (p : Payload) : Prop := exec i s = .next (respond (.ok p) s)

/-- The instruction answers `Err(e)`, and nothing of the state but the response sequence changes (R202). -/
def AnswersErr (i : Instr) (s : State) (e : ErrCode) : Prop := exec i s = .next (respond (.err e) s)

/-- Instructions performed one after another, each on the state the one before left (R49). -/
def execAll : List Instr → State → Result
  | [], s => .next s
  | i :: is, s =>
    match exec i s with
    | .next t => execAll is t
    | .fault r => .fault r
    | .refused r => .refused r

/-- The commands that hold no state: the codec's, the address table's, the assembler's and the result decoder's (R23). -/
def pureCommand : Instr → Bool
  | .fxEncode _ _ _ _ | .fxDecode _ _ _ _ | .fxDecode24 _ _ _ => true
  | .chStartAddr _ | .chResultAddr _ | .chMask _ | .chMaskSet _ => true
  | .cfgTc _ _ _ _ _ _ | .cfgRsense _ _ | .cfgDiode _ _ _ _ _ _ _ | .cfgUnsup _ _ => true
  | .cfgDecode _ | .cfgCheck _ | .cfgReadReq _ | .resDecode _ _ _ _ | .resReadReq _ => true
  | _ => false

/-! ### Exact numbers -/

/-- The number an IEEE 754 operand denotes, as the standard writes it: `(-1)^sign * 1.frac * 2^(exp - bias)`, subnormal
`(-1)^sign * 0.frac * 2^(1 - bias)`, none for NaN and the infinities (R10, R64; log 14). -/
def ieeeVal (eb mb : Nat) (bias : Int) (neg : Bool) (exp frac : Nat) : Option ℚ :=
  let sign : ℚ := if neg then -1 else 1
  if exp = 2 ^ eb - 1 then none
  else if exp = 0 then some (sign * ((frac : ℚ) / 2 ^ mb) * (2 : ℚ) ^ (1 - bias))
  else some (sign * (1 + (frac : ℚ) / 2 ^ mb) * (2 : ℚ) ^ ((exp : Int) - bias))

/-- `val(x)` (R10). -/
def floatVal : FloatOp → Option ℚ
  | .b32 v => ieeeVal 8 23 127 (v.getLsbD 31) (v.extractLsb' 23 8).toNat (v.extractLsb' 0 23).toNat
  | .b64 v => ieeeVal 11 52 1023 (v.getLsbD 63) (v.extractLsb' 52 11).toNat (v.extractLsb' 0 52).toNat

/-- `round(r)` (R121): truncation, floor, or nearest with ties to even. -/
def roundQ (mode : FxRound) (r : ℚ) : Int :=
  match mode with
  | .rtz => if 0 ≤ r then ⌊r⌋ else ⌈r⌉
  | .rdn => ⌊r⌋
  | .rne =>
    if r - ⌊r⌋ < 1 / 2 then ⌊r⌋
    else if 1 / 2 < r - ⌊r⌋ then ⌊r⌋ + 1
    else if ⌊r⌋ % 2 = 0 then ⌊r⌋
    else ⌊r⌋ + 1

/-- The least integer of a format (R120). -/
def formatMin (w : Nat) (signed : Bool) : Int := if signed then -(2 ^ (w - 1)) else 0

/-- The greatest integer of a format (R120). -/
def formatMax (w : Nat) (signed : Bool) : Int := if signed then 2 ^ (w - 1) - 1 else 2 ^ w - 1

/-- The operand is finite and its rounded scaled value is the integer `t`, in the range of the format (R123). -/
def Encodes (mode : FxRound) (x : FloatOp) (w n : Nat) (signed : Bool) (t : Int) : Prop :=
  ∃ r, floatVal x = some r ∧ t = roundQ mode (r * 2 ^ n) ∧ formatMin w signed ≤ t ∧ t ≤ formatMax w signed

/-- The twenty channels (R139). -/
def IsChannel (c : BitVec 5) : Prop := 1 ≤ c.toNat ∧ c.toNat ≤ 20

/-- The write transaction of R79, byte by byte, for the configuration register of channel `ch` (R140). -/
def writeTransaction (ch : BitVec 5) (w : Word) : List Byte :=
  [0x02, BitVec.ofNat 8 ((0x200 + 4 * (ch.toNat - 1)) / 256), BitVec.ofNat 8 ((0x200 + 4 * (ch.toNat - 1)) % 256),
    w.extractLsb' 24 8, w.extractLsb' 16 8, w.extractLsb' 8 8, w.extractLsb' 0 8]

/-! ### When an error applies -/

/-- The cause of each error, command by command, as R201 and the commands' rules give it: whether the error applies to
the command in the state, whatever other error applies too. -/
def Applies (s : State) : ErrCode → Instr → Prop
  | .width, .bsWrite _ w => ¬ (1 ≤ w.toNat ∧ w.toNat ≤ 64)
  | .width, .bsRead w => ¬ (1 ≤ w.toNat ∧ w.toNat ≤ 64)
  | .underrun, .bsRead w => 8 * s.blk.rbytes.length < s.blk.rpos + w.toNat
  | .overflow, .bsWrite _ w => s.par.bsCapBits < s.blk.wbits.length + w.toNat
  | .overflow, .bsLoad data => s.par.bsCapBits < 8 * data.length
  | .fxFormat, .fxEncode _ w n _ => ¬ (1 ≤ w.toNat ∧ w.toNat ≤ 64 ∧ n.toNat ≤ w.toNat)
  | .fxFormat, .fxDecode _ w n _ => ¬ (1 ≤ w.toNat ∧ w.toNat ≤ 64 ∧ n.toNat ≤ w.toNat)
  | .fxRange, .fxEncode x w n sg => ∀ t, ¬ Encodes s.par.fxRound x w.toNat n.toNat (sg == 1) t
  | .fxRange, .cfgRsense _ r => ∀ t, ¬ Encodes s.par.fxRound r 27 s.par.rsenseFrac false t
  | .fxRange, .cfgDiode _ _ _ _ _ hasEta eta =>
    hasEta = 1 ∧ ∀ t, ¬ Encodes s.par.fxRound eta s.par.idealPremaskW 20 false t
  | .channel, .chStartAddr ch => ¬ IsChannel ch
  | .channel, .chResultAddr ch => ¬ IsChannel ch
  | .channel, .chMask ch => ¬ IsChannel ch
  | .channel, .chMaskSet chs => ∃ c ∈ chs, ¬ IsChannel c
  | .channel, .cfgTc ch _ _ _ _ _ => ¬ IsChannel ch
  | .channel, .cfgRsense ch _ => ¬ IsChannel ch
  | .channel, .cfgDiode ch _ _ _ _ _ _ => ¬ IsChannel ch
  | .channel, .cfgUnsup ch _ => ¬ IsChannel ch
  | .channel, .cfgReadReq ch => ¬ IsChannel ch
  | .channel, .resReadReq ch => ¬ IsChannel ch
  | .field, .cfgTc _ _ cj _ _ _ => 20 < cj.toNat
  | .unsupported, .cfgUnsup _ _ => True
  | .unsupported, .cfgDecode word =>
    word.extractLsb' 27 5 ≠ 0 ∧ word.extractLsb' 27 5 ∉ s.par.probeId.ids
  | .malformedStatus, .resDecode b0 _ _ _ => ∀ j < 8, b0.toNat ≠ 2 ^ j
  | .notConfigured, .cfgDecode word => word.extractLsb' 27 5 = 0
  | .notConfigured, .cfgCheck word => word.extractLsb' 27 5 = 0
  | _, _ => False

end Sys2Proof.Machine
end

