-- ==== Sys2Proof/Certificates/Slice0/Obligations.lean ====
section
/-! DEFINITION. The statements for the provers, in the order of OBLIGATIONS.json. Each docstring names the rule of spec/ it
formalises. `AnswersOk i s p` says that the instruction answers a NEXT state in which `Ok(p)` has been given and nothing
else has changed: the frame is part of every such statement. -/

open Sys2Proof Sys2Proof.Machine

/-! ### Reset, steps and the invariant -/

/-- The reset state (R35), reached by BS_RESET (R100) and by the reset input, which gives no response (R230) and leaves the
parameters (R231). That it leaves the inputs to come and the remote device too is the model's choice (log 16), as is the
input sequence itself (log 1). -/
def Obligations.ResetAndBsResetEmptyTheBlock : Prop :=
  State.reset.blk = ⟨[], [], 0⟩ ∧
  (∀ (s : State) (rest : List Input), s.par.ok = true → s.inputs = .reset :: rest →
    step s = .next { s with blk := ⟨[], [], 0⟩, inputs := rest }) ∧
  (∀ s : State, exec .bsReset s = .next (respond (.ok .unit) { s with blk := ⟨[], [], 0⟩ }))

/-- The reset state meets the invariant of R22 (with the model's remote registers, log 7, and the default parameters,
log 12). -/
def Obligations.ResetStateMeetsTheInvariant : Prop := State.reset.Inv

/-- Every step keeps the invariant, and the commands that would break R22's part of it end with an error and leave `S`.
Beside R22 the invariant holds the canonical form of the remote registers (the model's, log 7) and the admissible
parameters (the model's ranges, log 13). -/
def Obligations.EveryStepKeepsTheInvariant : Prop :=
  (∀ s t : State, s.Inv → step s = .next t → t.Inv) ∧
  (∀ (s : State) (v : BitVec 64) (w : BitVec 7), 1 ≤ w.toNat → w.toNat ≤ 64 →
    s.par.bsCapBits < s.blk.wbits.length + w.toNat → AnswersErr (.bsWrite v w) s .overflow) ∧
  (∀ (s : State) (data : List Byte), s.par.bsCapBits < 8 * data.length → AnswersErr (.bsLoad data) s .overflow) ∧
  (∀ (s : State) (w : BitVec 7), 1 ≤ w.toNat → w.toNat ≤ 64 → 8 * s.blk.rbytes.length < s.blk.rpos + w.toNat →
    AnswersErr (.bsRead w) s .underrun)

/-- A step whose first input decodes performs the decoded instruction, on the state with that input taken (R12; the input
sequence is the model's choice, log 1). -/
def Obligations.StepPerformsTheDecodedInstruction : Prop :=
  ∀ (s : State) (port : Port) (b : Bits) (rest : List Input) (i : Instr), s.par.ok = true →
    s.inputs = .bits port b :: rest → decode s.par port b = .ok i → step s = exec i { s with inputs := rest }

/-- A well-formed instruction presented as its encoding is the one that is performed (R12, R60; the input sequence and the
bit layout of a request are the model's choices, logs 1 and 4). -/
def Obligations.StepPerformsTheEncodedInstruction : Prop :=
  ∀ (s : State) (rest : List Input) (i : Instr), s.par.ok = true → i.wf s.par = true →
    s.inputs = .bits i.port (encode s.par i) :: rest → step s = exec i { s with inputs := rest }

/-- With no input presented the machine keeps its state: the model's choice (log 1). -/
def Obligations.StepWithoutInputKeepsTheState : Prop :=
  ∀ s : State, s.par.ok = true → s.inputs = [] → step s = .next s

/-- R231: no step changes the parameters. -/
def Obligations.NoStepChangesTheParameters : Prop := ∀ s t : State, step s = .next t → t.par = s.par

/-- "the model refuses any other table" (R70): a table with a repeated or a zero identifier. -/
def Obligations.BadProbeTablesAreRefused : Prop :=
  ∀ s : State, (¬ s.par.probeId.ids.Nodup ∨ (0 : BitVec 5) ∈ s.par.probeId.ids) → step s = .refused .badParameters

/-- Every described input is performed: the step answers a next state with that input taken (R12, R205; what is described
beyond the requests of R60 is the model's reading, logs 4 to 7 and 10). -/
def Obligations.DescribedInputsNeverStop : Prop :=
  ∀ (s : State) (x : Input) (rest : List Input), s.par.ok = true → s.inputs = x :: rest → x.described s.par →
    ∃ t, step s = .next t ∧ t.inputs = rest ∧ t.par = s.par

/-! ### Encoding -/

/-- Decoding the encoding of any well-formed instruction of any instance gives it back (R60, R61, R69, R74, R79, R80; the
placing of a request's operands in its bits is the model's choice, log 4). -/
def Obligations.DecodeOfEncodeIsTheInstruction : Prop :=
  ∀ (p : Params) (i : Instr), p.ok = true → i.wf p = true → decode p i.port (encode p i) = .ok i

/-- What decodes is the encoding of a well-formed instruction of its port: no bit pattern has a second reading (the placing
of a request's operands in its bits, and that a longer one is refused, are the model's choices, log 4). -/
def Obligations.DecodedBitsAreTheEncoding : Prop :=
  ∀ (p : Params) (port : Port) (b : Bits) (i : Instr), decode p port b = .ok i →
    i.port = port ∧ i.wf p = true ∧ encode p i = b

/-- A code that is not in R61 is answered `E_ILLEGAL_CMD` and changes nothing (R62). That the code is the first 8 bits,
most-significant first, and that the answer is the same whatever bits follow, are the model's choices (log 4). -/
def Obligations.IllegalCodesAnswerIllegalCmd : Prop :=
  ∀ (s : State) (code : Nat) (b : Bits) (rest : List Input), s.par.ok = true → code < 256 →
    code ∉ [0x01, 0x02, 0x03, 0x04, 0x05, 0x06, 0x07, 0x10, 0x11, 0x12, 0x20, 0x21, 0x22, 0x23, 0x30, 0x31, 0x32, 0x33,
      0x34, 0x35, 0x36, 0x40, 0x41] →
    s.inputs = .bits .cmd (bitsOf 8 code ++ b) :: rest →
    step s = .next (respond (.err .illegalCmd) { s with inputs := rest })

/-- Words written out from the tables of R61, R69, R74, R79 and R80 decode to the rows they stand for. The placing of the
operands in the bits of the two requests is the model's choice (log 4), and so is the port of a bare word (log 5). -/
def Obligations.WordsOfTheTablesDecode : Prop :=
  decode Params.default .cmd
    [false, false, true, false, false, false, false, false, false, false, true, false, false] = .ok (.chStartAddr 4) ∧
  decode Params.default .cmd
    [false, false, false, false, false, true, true, false, false, false, true, true, false, true, true] =
      .ok (.bsRead 27) ∧
  decode Params.default .cfgw (bitsOf 32 0x10B00000) = .ok (.cfgwTcK 2 1 4 0 0) ∧
  decode Params.default .resw (bitsOf 32 0x01FBBB67) = .ok (.reswValid 0xFBBB67) ∧
  decode Params.default .txn (bitsOfBytes [0x02, 0x02, 0x0C, 0x10, 0xB0, 0x00, 0x00]) =
    .ok (.txnWrite 0x020C 0x10B00000) ∧
  decode Params.default .txn (bitsOfBytes [0x03, 0x00, 0x18]) = .ok (.txnRead 0x0018)

/-! ### The bit-stream packer/unpacker -/

/-- R101, R102: BS_WRITE checks the width, then the capacity; it appends the low `w` bits, most-significant first, and
the bits above them have no effect. -/
def Obligations.BsWriteAppendsTheLowBits : Prop :=
  ∀ (s : State) (v : BitVec 64) (w : BitVec 7),
    (¬ (1 ≤ w.toNat ∧ w.toNat ≤ 64) → AnswersErr (.bsWrite v w) s .width) ∧
    (1 ≤ w.toNat → w.toNat ≤ 64 → s.par.bsCapBits < s.blk.wbits.length + w.toNat →
      AnswersErr (.bsWrite v w) s .overflow) ∧
    (1 ≤ w.toNat → w.toNat ≤ 64 → s.blk.wbits.length + w.toNat ≤ s.par.bsCapBits →
      ∃ b : Bits, b.length = w.toNat ∧ (∀ j < w.toNat, b[j]? = some (v.toNat.testBit (w.toNat - 1 - j))) ∧
        exec (.bsWrite v w) s =
          .next (respond (.ok .unit) { s with blk := { s.blk with wbits := s.blk.wbits ++ b } })) ∧
    (∀ v' : BitVec 64, v'.toNat % 2 ^ w.toNat = v.toNat % 2 ^ w.toNat →
      exec (.bsWrite v' w) s = exec (.bsWrite v w) s)

/-- R103: BS_ALIGN pads the pending bits to a byte with zeros, before or after them, and never past the capacity. -/
def Obligations.BsAlignPadsToAByte : Prop :=
  ∀ s : State, ∃ b : Bits,
    exec .bsAlign s = .next (respond (.ok .unit) { s with blk := { s.blk with wbits := b } }) ∧
    b.length % 8 = 0 ∧ (s.Inv → b.length ≤ s.par.bsCapBits) ∧
    (s.blk.wbits.length % 8 = 0 → b = s.blk.wbits) ∧
    (s.blk.wbits.length % 8 ≠ 0 → s.par.padMode = .leading →
      b = s.blk.wbits.take (8 * (s.blk.wbits.length / 8)) ++ List.replicate (8 - s.blk.wbits.length % 8) false
        ++ s.blk.wbits.drop (8 * (s.blk.wbits.length / 8))) ∧
    (s.blk.wbits.length % 8 ≠ 0 → s.par.padMode = .trailing →
      b = s.blk.wbits ++ List.replicate (8 - s.blk.wbits.length % 8) false)

/-- R104: BS_TAKE returns the bytes of the packer after BS_ALIGN and leaves it empty. -/
def Obligations.BsTakeReturnsTheAlignedBytes : Prop :=
  ∀ s : State, ∃ (bytes : List Byte) (t : State), exec .bsAlign s = .next t ∧ bitsOfBytes bytes = t.blk.wbits ∧
    exec .bsTake s = .next (respond (.ok (.bytes bytes)) { s with blk := { s.blk with wbits := [] } })

/-- R105: BS_LOAD replaces the unpacker's bytes and rewinds it, or answers `E_OVERFLOW`. -/
def Obligations.BsLoadReplacesTheReader : Prop :=
  ∀ (s : State) (data : List Byte),
    (s.par.bsCapBits < 8 * data.length → AnswersErr (.bsLoad data) s .overflow) ∧
    (8 * data.length ≤ s.par.bsCapBits →
      exec (.bsLoad data) s = .next (respond (.ok .unit) { s with blk := { s.blk with rbytes := data, rpos := 0 } }))

/-- R106: BS_READ checks the width, then the bits there are; it returns the next `w` bits, the first read most
significant, zero-extended, and advances the cursor. -/
def Obligations.BsReadReturnsTheNextBits : Prop :=
  ∀ (s : State) (w : BitVec 7),
    (¬ (1 ≤ w.toNat ∧ w.toNat ≤ 64) → AnswersErr (.bsRead w) s .width) ∧
    (1 ≤ w.toNat → w.toNat ≤ 64 → 8 * s.blk.rbytes.length < s.blk.rpos + w.toNat →
      AnswersErr (.bsRead w) s .underrun) ∧
    (1 ≤ w.toNat → w.toNat ≤ 64 → s.blk.rpos + w.toNat ≤ 8 * s.blk.rbytes.length →
      ∃ v : BitVec 64, v.toNat < 2 ^ w.toNat ∧
        (∀ j < w.toNat, (bitsOfBytes s.blk.rbytes)[s.blk.rpos + j]? = some (v.toNat.testBit (w.toNat - 1 - j))) ∧
        exec (.bsRead w) s =
          .next (respond (.ok (.value v)) { s with blk := { s.blk with rpos := s.blk.rpos + w.toNat } }))

/-- R107: BS_STAT reports the two lengths, which the capacity bounds, and changes nothing. -/
def Obligations.BsStatReportsTheLengths : Prop :=
  ∀ s : State,
    AnswersOk .bsStat s (.stat s.blk.wbits.length (8 * s.blk.rbytes.length - s.blk.rpos)) ∧
    (s.Inv → s.blk.wbits.length ≤ s.par.bsCapBits ∧ 8 * s.blk.rbytes.length - s.blk.rpos ≤ s.par.bsCapBits)

/-- Two adjacent fields are one field of the summed width, for the packer and for the unpacker (R41). -/
def Obligations.AdjacentFieldsAreOneField : Prop :=
  (∀ (s : State) (v1 v2 : BitVec 64) (w1 w2 w : BitVec 7), 1 ≤ w1.toNat → 1 ≤ w2.toNat →
    w.toNat = w1.toNat + w2.toNat → w.toNat ≤ 64 → s.blk.wbits.length + w.toNat ≤ s.par.bsCapBits →
    ∃ t t' u, exec (.bsWrite v1 w1) s = .next t ∧ exec (.bsWrite v2 w2) t = .next t' ∧
      exec (.bsWrite (BitVec.ofNat 64 (v1.toNat * 2 ^ w2.toNat + v2.toNat % 2 ^ w2.toNat)) w) s = .next u ∧
      t'.blk = u.blk) ∧
  (∀ (s : State) (w1 w2 w : BitVec 7), 1 ≤ w1.toNat → 1 ≤ w2.toNat →
    w.toNat = w1.toNat + w2.toNat → w.toNat ≤ 64 → s.blk.rpos + w.toNat ≤ 8 * s.blk.rbytes.length →
    ∃ t t' u v1 v2 v, exec (.bsRead w1) s = .next t ∧ exec (.bsRead w2) t = .next t' ∧ exec (.bsRead w) s = .next u ∧
      t.resps = s.resps ++ [.ok (.value v1)] ∧ t'.resps = t.resps ++ [.ok (.value v2)] ∧
      u.resps = s.resps ++ [.ok (.value v)] ∧ v.toNat = v1.toNat * 2 ^ w2.toNat + v2.toNat ∧ t'.blk = u.blk)

/-- R109: fields packed from BS_RESET and taken, loaded and read with the same widths, come back masked, for a whole
number of bytes or `TRAILING`; under `LEADING` the pending bits come after the pad. -/
def Obligations.PackedFieldsAreReadBack : Prop :=
  ∀ (s : State) (fs : List (BitVec 64 × BitVec 7)), s.par.ok = true →
    (∀ f ∈ fs, 1 ≤ f.2.toNat ∧ f.2.toNat ≤ 64) → (fs.map fun f => f.2.toNat).sum ≤ s.par.bsCapBits →
    ∃ (bytes : List Byte) (t : State),
      execAll (.bsReset :: (fs.map fun f => .bsWrite f.1 f.2) ++ [.bsTake]) s = .next t ∧
      t.resps = s.resps ++ List.replicate (fs.length + 1) (.ok .unit) ++ [.ok (.bytes bytes)] ∧
      ((fs.map fun f => f.2.toNat).sum % 8 = 0 ∨ s.par.padMode = .trailing →
        ∃ u, execAll (.bsLoad bytes :: fs.map fun f => .bsRead f.2) t = .next u ∧
          u.resps = t.resps ++ .ok .unit ::
            fs.map fun f => .ok (.value (BitVec.ofNat 64 (f.1.toNat % 2 ^ f.2.toNat)))) ∧
      ((fs.map fun f => f.2.toNat).sum % 8 ≠ 0 → s.par.padMode = .leading →
        ∃ front pending : Bits, fs.flatMap (fun f => bitsOf f.2.toNat f.1.toNat) = front ++ pending ∧
          pending.length = (fs.map fun f => f.2.toNat).sum % 8 ∧
          bitsOfBytes bytes = front ++ List.replicate (8 - pending.length) false ++ pending)

/-! ### The fixed-point codec -/

/-- R121, R125: the codec scales exactly and rounds once; truncation, floor, or nearest with ties to even; truncation is
the default and agrees with floor on non-negative numbers. -/
def Obligations.CodecRoundsTheExactValueOnce : Prop :=
  (∀ (mode : FxRound) (x : FloatOp) (n : Nat),
    scaledInt mode x n = (floatVal x).map fun r => roundQ mode (r * 2 ^ n)) ∧
  (∀ r : ℚ, (0 ≤ r → roundQ .rtz r = ⌊r⌋) ∧ (r < 0 → roundQ .rtz r = ⌈r⌉) ∧ roundQ .rdn r = ⌊r⌋ ∧
    |r - roundQ .rne r| ≤ 1 / 2 ∧ (|r - roundQ .rne r| = 1 / 2 → Even (roundQ .rne r)) ∧
    (0 ≤ r → roundQ .rtz r = roundQ .rdn r)) ∧
  State.reset.par.fxRound = .rtz

/-- R123, R124: FX_ENCODE checks the format, then that the operand is finite and its rounded scaled value in range; it
returns the two's-complement pattern. -/
def Obligations.FxEncodeReturnsThePattern : Prop :=
  ∀ (s : State) (x : FloatOp) (w n : BitVec 7) (sg : BitVec 1),
    (¬ (1 ≤ w.toNat ∧ w.toNat ≤ 64 ∧ n.toNat ≤ w.toNat) → AnswersErr (.fxEncode x w n sg) s .fxFormat) ∧
    (1 ≤ w.toNat ∧ w.toNat ≤ 64 ∧ n.toNat ≤ w.toNat → (∀ t, ¬ Encodes s.par.fxRound x w.toNat n.toNat (sg == 1) t) →
      AnswersErr (.fxEncode x w n sg) s .fxRange) ∧
    (1 ≤ w.toNat ∧ w.toNat ≤ 64 ∧ n.toNat ≤ w.toNat → ∀ t, Encodes s.par.fxRound x w.toNat n.toNat (sg == 1) t →
      ∃ b : BitVec 64, (b.toNat : Int) = t % 2 ^ w.toNat ∧ AnswersOk (.fxEncode x w n sg) s (.pattern b))

/-- R122, R126: FX_DECODE reads the low `w` bits, signed or not, over `2^n`, exactly; an illegal format ends FX_ENCODE
and FX_DECODE alike. -/
def Obligations.FxDecodeReturnsTheExactValue : Prop :=
  ∀ (s : State) (bits : BitVec 64) (w n : BitVec 7) (sg : BitVec 1),
    (¬ (1 ≤ w.toNat ∧ w.toNat ≤ 64 ∧ n.toNat ≤ w.toNat) → AnswersErr (.fxDecode bits w n sg) s .fxFormat ∧
      ∀ x : FloatOp, AnswersErr (.fxEncode x w n sg) s .fxFormat) ∧
    (1 ≤ w.toNat ∧ w.toNat ≤ 64 ∧ n.toNat ≤ w.toNat →
      ∃ k : Int, AnswersOk (.fxDecode bits w n sg) s (.dyadic ⟨k, n.toNat⟩) ∧
        (sg = 0 → k = (bits.toNat : Int) % 2 ^ w.toNat) ∧
        (sg = 1 → -(2 ^ (w.toNat - 1)) ≤ k ∧ k < 2 ^ (w.toNat - 1) ∧
          k % 2 ^ w.toNat = (bits.toNat : Int) % 2 ^ w.toNat))

/-- R127, R128: FX_DECODE24 prepends the sign byte; its value is the one FX_DECODE gives for the 24-bit signed format. -/
def Obligations.FxDecode24SignExtends : Prop :=
  ∀ (s : State) (b0 b1 b2 : Byte),
    AnswersOk (.fxDecode24 b0 b1 b2) s
      (.dec24 ((if b0.msb then (0xFF : Byte) else 0x00) ++ b0 ++ b1 ++ b2) (b0 ++ b1 ++ b2 : BitVec 24).toInt
        ⟨(b0 ++ b1 ++ b2 : BitVec 24).toInt, 10⟩) ∧
    ((if b0.msb then (0xFF : Byte) else 0x00) ++ b0 ++ b1 ++ b2 : Word).toInt = (b0 ++ b1 ++ b2 : BitVec 24).toInt ∧
    AnswersOk (.fxDecode ((b0 ++ b1 ++ b2 : BitVec 24).setWidth 64) 24 10 1) s
      (.dyadic ⟨(b0 ++ b1 ++ b2 : BitVec 24).toInt, 10⟩)

/-- R129: every value of the result format is a value of both floating-point formats, exactly. -/
def Obligations.ResultValuesAreExactFloats : Prop :=
  (∀ (s : State) (b0 b1 b2 : Byte), ∃ (raw : Word) (k : Int), -(2 ^ 23) ≤ k ∧ k ≤ 2 ^ 23 - 1 ∧
    AnswersOk (.fxDecode24 b0 b1 b2) s (.dec24 raw k ⟨k, 10⟩)) ∧
  (∀ k : Int, -(2 ^ 23) ≤ k → k ≤ 2 ^ 23 - 1 → ∀ fmt : FloatFmt, ∃ x : FloatOp, x.fmt = fmt ∧
    floatVal x = some ((k : ℚ) / 1024))

/-- R130: decoding what FX_ENCODE returned gives the rounded scaled value, less than one step from the operand; encoding
a decoded value gives its pattern back under every rounding. -/
def Obligations.EncodeAndDecodeAgree : Prop :=
  (∀ (s : State) (x : FloatOp) (w n : BitVec 7) (sg : BitVec 1) (b : BitVec 64),
    AnswersOk (.fxEncode x w n sg) s (.pattern b) →
    ∃ r, floatVal x = some r ∧
      AnswersOk (.fxDecode b w n sg) s (.dyadic ⟨roundQ s.par.fxRound (r * 2 ^ n.toNat), n.toNat⟩) ∧
      |Dy.val ⟨roundQ s.par.fxRound (r * 2 ^ n.toNat), n.toNat⟩ - r| < 1 / 2 ^ n.toNat ∧
      (s.par.fxRound = .rne →
        |Dy.val ⟨roundQ s.par.fxRound (r * 2 ^ n.toNat), n.toNat⟩ - r| ≤ 1 / 2 ^ (n.toNat + 1))) ∧
  (∀ (s : State) (x : FloatOp) (f : BitVec 64) (w n : BitVec 7) (sg : BitVec 1) (d : Dy),
    AnswersOk (.fxDecode f w n sg) s (.dyadic d) → floatVal x = some d.val → f.toNat < 2 ^ w.toNat →
    ∀ mode : FxRound, AnswersOk (.fxEncode x w n sg) { s with par := { s.par with fxRound := mode } } (.pattern f))

/-! ### The channel address table -/

/-- R139: every command with a target channel operand answers `E_CHANNEL` for an ordinal outside 1..20, whatever its
other operands are. -/
def Obligations.BadChannelsAnswerEChannel : Prop :=
  ∀ (s : State) (ch : BitVec 5), ¬ IsChannel ch →
    AnswersErr (.chStartAddr ch) s .channel ∧ AnswersErr (.chResultAddr ch) s .channel ∧
    AnswersErr (.chMask ch) s .channel ∧ AnswersErr (.cfgReadReq ch) s .channel ∧
    AnswersErr (.resReadReq ch) s .channel ∧
    (∀ tc cj mode exc caddr, AnswersErr (.cfgTc ch tc cj mode exc caddr) s .channel) ∧
    (∀ r, AnswersErr (.cfgRsense ch r) s .channel) ∧
    (∀ mode rd avg exc hasEta eta, AnswersErr (.cfgDiode ch mode rd avg exc hasEta eta) s .channel) ∧
    (∀ fam, AnswersErr (.cfgUnsup ch fam) s .channel)

/-- R140, R141, R142: the start address, the result address and the mask of a channel. -/
def Obligations.ChannelTableAnswers : Prop :=
  ∀ (s : State) (ch : BitVec 5),
    (¬ IsChannel ch → AnswersErr (.chStartAddr ch) s .channel ∧ AnswersErr (.chResultAddr ch) s .channel ∧
      AnswersErr (.chMask ch) s .channel) ∧
    (IsChannel ch → ∃ (a r : Addr) (m : Word), a.toNat = 0x200 + 4 * (ch.toNat - 1) ∧
      r.toNat = 0x010 + 4 * (ch.toNat - 1) ∧ m.toNat = 2 ^ (ch.toNat - 1) ∧
      AnswersOk (.chStartAddr ch) s (.addr a) ∧ AnswersOk (.chResultAddr ch) s (.addr r) ∧
      AnswersOk (.chMask ch) s (.mask m))

/-- R143, R77: the mask of a list has exactly the bits of its channels, none of them at or above bit 20; a bad ordinal
anywhere is `E_CHANNEL`. -/
def Obligations.ChMaskSetSelectsItsChannels : Prop :=
  ∀ (s : State) (chs : List (BitVec 5)),
    ((∃ c ∈ chs, ¬ IsChannel c) → AnswersErr (.chMaskSet chs) s .channel) ∧
    ((∀ c ∈ chs, IsChannel c) → ∃ m : Word, AnswersOk (.chMaskSet chs) s (.mask m) ∧
      (∀ j < 32, m.getLsbD j = true ↔ ∃ c ∈ chs, c.toNat = j + 1) ∧ m.toNat < 2 ^ 20)

/-- R144: the twenty start addresses, result addresses and masks are distinct, and no start address is a result
address. -/
def Obligations.ChannelTableIsOneToOne : Prop :=
  ∃ (start result : BitVec 5 → Addr) (mask : BitVec 5 → Word),
    (∀ (s : State) (c : BitVec 5), IsChannel c → AnswersOk (.chStartAddr c) s (.addr (start c)) ∧
      AnswersOk (.chResultAddr c) s (.addr (result c)) ∧ AnswersOk (.chMask c) s (.mask (mask c))) ∧
    (∀ c : BitVec 5, IsChannel c → (start c).toNat = 0x200 + 4 * (c.toNat - 1) ∧
      (result c).toNat = 0x010 + 4 * (c.toNat - 1) ∧ (mask c).toNat = 2 ^ (c.toNat - 1)) ∧
    (∀ c d : BitVec 5, IsChannel c → IsChannel d → start c ≠ result d ∧
      (c ≠ d → start c ≠ start d ∧ result c ≠ result d ∧ mask c ≠ mask d))

/-! ### The configuration assembler -/

/-- R154, R165: CFG_TC returns the thermocouple layout and its write transaction; a cold-junction id in 21..31 is
`E_FIELD`, and a bad channel is reported first. -/
def Obligations.CfgTcBuildsTheThermocoupleWord : Prop :=
  ∀ (s : State) (ch : BitVec 5) (tc : BitVec 3) (cj : BitVec 5) (mode : BitVec 1) (exc : BitVec 3) (caddr : BitVec 12),
    (¬ IsChannel ch → AnswersErr (.cfgTc ch tc cj mode exc caddr) s .channel) ∧
    (IsChannel ch → 20 < cj.toNat → AnswersErr (.cfgTc ch tc cj mode exc caddr) s .field) ∧
    (IsChannel ch → cj.toNat ≤ 20 → ∃ (pid : BitVec 5) (word : Word), s.par.probeId.ids[tc.toNat]? = some pid ∧
      word = pid ++ cj ++ mode ++ exc ++ (0 : BitVec 6) ++ caddr ∧
      AnswersOk (.cfgTc ch tc cj mode exc caddr) s (.build word (writeTransaction ch word)))

/-- R155: without a cold junction and a custom address, bits [26:22] and [11:0] of the word are zero. -/
def Obligations.PlainThermocoupleFieldsAreZero : Prop :=
  ∀ (s : State) (ch : BitVec 5) (tc : BitVec 3) (mode : BitVec 1) (exc : BitVec 3), IsChannel ch →
    ∃ (word : Word) (txn : List Byte), AnswersOk (.cfgTc ch tc 0 mode exc 0) s (.build word txn) ∧
      word.extractLsb' 22 5 = 0 ∧ word.extractLsb' 0 12 = 0

/-- R156: CFG_RSENSE returns the sense-resistor layout with the codec's 27-bit value; what does not encode is
`E_FX_RANGE`. -/
def Obligations.CfgRsenseBuildsTheResistorWord : Prop :=
  ∀ (s : State) (ch : BitVec 5) (r : FloatOp), s.par.ok = true →
    (¬ IsChannel ch → AnswersErr (.cfgRsense ch r) s .channel) ∧
    (IsChannel ch → (∀ t, ¬ Encodes s.par.fxRound r 27 s.par.rsenseFrac false t) →
      AnswersErr (.cfgRsense ch r) s .fxRange) ∧
    (IsChannel ch → ∀ t, Encodes s.par.fxRound r 27 s.par.rsenseFrac false t →
      ∃ word : Word, word = s.par.probeId.rsense ++ BitVec.ofInt 27 t ∧
        AnswersOk (.cfgRsense ch r) s (.build word (writeTransaction ch word)))

/-- R158: CFG_DIODE returns the diode layout; without an override the ideality field is 0 whatever `eta` is, with one it
is the low 22 bits of the codec's value. -/
def Obligations.CfgDiodeBuildsTheDiodeWord : Prop :=
  ∀ (s : State) (ch : BitVec 5) (mode rd avg : BitVec 1) (exc : BitVec 2) (eta : FloatOp), s.par.ok = true →
    (¬ IsChannel ch → ∀ hasEta, AnswersErr (.cfgDiode ch mode rd avg exc hasEta eta) s .channel) ∧
    (IsChannel ch → (∀ t, ¬ Encodes s.par.fxRound eta s.par.idealPremaskW 20 false t) →
      AnswersErr (.cfgDiode ch mode rd avg exc 1 eta) s .fxRange) ∧
    (IsChannel ch → ∃ word : Word, word = s.par.probeId.diode ++ mode ++ rd ++ avg ++ exc ++ (0 : BitVec 22) ∧
      AnswersOk (.cfgDiode ch mode rd avg exc 0 eta) s (.build word (writeTransaction ch word))) ∧
    (IsChannel ch → ∀ t, Encodes s.par.fxRound eta s.par.idealPremaskW 20 false t →
      ∃ word : Word, word = s.par.probeId.diode ++ mode ++ rd ++ avg ++ exc ++ BitVec.ofInt 22 t ∧
        AnswersOk (.cfgDiode ch mode rd avg exc 1 eta) s (.build word (writeTransaction ch word)))

/-- R159: CFG_UNSUP never answers `Ok`: `E_CHANNEL` for a bad channel, else `E_UNSUPPORTED` for every family. -/
def Obligations.CfgUnsupAnswersUnsupported : Prop :=
  ∀ (s : State) (ch : BitVec 5) (fam : BitVec 2),
    (¬ IsChannel ch → AnswersErr (.cfgUnsup ch fam) s .channel) ∧
    (IsChannel ch → AnswersErr (.cfgUnsup ch fam) s .unsupported)

/-- R161: CFG_DECODE answers the record of the word's class, its fields as they are, or the class's error. -/
def Obligations.CfgDecodeReadsTheWord : Prop :=
  ∀ (s : State) (word : Word), s.par.ok = true →
    (word.extractLsb' 27 5 = 0 → AnswersErr (.cfgDecode word) s .notConfigured) ∧
    (word.extractLsb' 27 5 ≠ 0 → word.extractLsb' 27 5 ∉ s.par.probeId.ids →
      AnswersErr (.cfgDecode word) s .unsupported) ∧
    (∀ t : BitVec 3, s.par.probeId.ids[t.toNat]? = some (word.extractLsb' 27 5) →
      AnswersOk (.cfgDecode word) s (.record (.tc t (word.extractLsb' 22 5) (word.extractLsb' 21 1)
        (word.extractLsb' 18 3) (word.extractLsb' 12 6) (word.extractLsb' 0 12)))) ∧
    (s.par.probeId.rsense = word.extractLsb' 27 5 →
      AnswersOk (.cfgDecode word) s (.record (.rs (word.extractLsb' 0 27)
        ⟨(word.extractLsb' 0 27).toNat, s.par.rsenseFrac⟩))) ∧
    (s.par.probeId.diode = word.extractLsb' 27 5 →
      AnswersOk (.cfgDecode word) s (.record (.di (word.extractLsb' 26 1) (word.extractLsb' 25 1)
        (word.extractLsb' 24 1) (word.extractLsb' 22 2) (word.extractLsb' 0 22) (word.extractLsb' 0 22 != 0)
        ⟨(word.extractLsb' 0 22).toNat, 20⟩)))

/-- R162: CFG_DECODE of a built word gives the operands' field values back. -/
def Obligations.BuiltWordsDecodeToTheirFields : Prop :=
  (∀ (s : State) ch tc cj mode exc caddr word txn, s.par.ok = true →
    AnswersOk (.cfgTc ch tc cj mode exc caddr) s (.build word txn) →
    AnswersOk (.cfgDecode word) s (.record (.tc tc cj mode exc 0 caddr))) ∧
  (∀ (s : State) ch r word txn, s.par.ok = true → AnswersOk (.cfgRsense ch r) s (.build word txn) →
    ∃ x, floatVal r = some x ∧
      AnswersOk (.cfgDecode word) s (.record (.rs (BitVec.ofInt 27 (roundQ s.par.fxRound (x * 2 ^ s.par.rsenseFrac)))
        ⟨roundQ s.par.fxRound (x * 2 ^ s.par.rsenseFrac), s.par.rsenseFrac⟩))) ∧
  (∀ (s : State) ch mode rd avg exc hasEta eta word txn, s.par.ok = true →
    AnswersOk (.cfgDiode ch mode rd avg exc hasEta eta) s (.build word txn) →
    ∃ id : BitVec 22, (hasEta = 0 → id = 0) ∧
      (hasEta = 1 → ∃ x, floatVal eta = some x ∧ id = BitVec.ofInt 22 (roundQ s.par.fxRound (x * 2 ^ 20))) ∧
      AnswersOk (.cfgDecode word) s (.record (.di mode rd avg exc id (id != 0) ⟨id.toNat, 20⟩)))

/-- R163: CFG_CHECK answers the identifier, any nonzero one, or `E_NOT_CONFIGURED`. -/
def Obligations.CfgCheckTestsTheTopBits : Prop :=
  ∀ (s : State) (word : Word),
    (word.toNat < 2 ^ 27 → AnswersErr (.cfgCheck word) s .notConfigured) ∧
    (2 ^ 27 ≤ word.toNat → ∃ pid : BitVec 5, pid.toNat = word.toNat / 2 ^ 27 ∧ AnswersOk (.cfgCheck word) s (.pid pid))

/-- R164, R185: the read requests of a channel's configuration and result registers. -/
def Obligations.ReadRequestsNameTheRegister : Prop :=
  ∀ (s : State) (ch : BitVec 5),
    (¬ IsChannel ch → AnswersErr (.cfgReadReq ch) s .channel ∧ AnswersErr (.resReadReq ch) s .channel) ∧
    (IsChannel ch →
      AnswersOk (.cfgReadReq ch) s (.request [0x03, BitVec.ofNat 8 ((0x200 + 4 * (ch.toNat - 1)) / 256),
        BitVec.ofNat 8 ((0x200 + 4 * (ch.toNat - 1)) % 256)]) ∧
      AnswersOk (.resReadReq ch) s (.request [0x03, BitVec.ofNat 8 ((0x010 + 4 * (ch.toNat - 1)) / 256),
        BitVec.ofNat 8 ((0x010 + 4 * (ch.toNat - 1)) % 256)]))

/-- A thermocouple write packed by hand with the packer is byte for byte the transaction CFG_TC returns (R150, R238). -/
def Obligations.HandPackedWriteIsTheAssemblers : Prop :=
  ∀ (s : State) (ch : BitVec 5) (tc : BitVec 3) (cj : BitVec 5) (mode : BitVec 1) (exc : BitVec 3) (caddr : BitVec 12)
    (pid : BitVec 5), s.blk.wbits = [] → 56 ≤ s.par.bsCapBits → IsChannel ch → cj.toNat ≤ 20 →
    s.par.probeId.ids[tc.toNat]? = some pid →
    ∃ (word : Word) (txn : List Byte) (t : State), AnswersOk (.cfgTc ch tc cj mode exc caddr) s (.build word txn) ∧
      execAll [.bsWrite 0x02 8, .bsWrite (BitVec.ofNat 64 (0x200 + 4 * (ch.toNat - 1))) 16,
        .bsWrite (pid.setWidth 64) 5, .bsWrite (cj.setWidth 64) 5, .bsWrite (mode.setWidth 64) 1,
        .bsWrite (exc.setWidth 64) 3, .bsWrite 0 6, .bsWrite (caddr.setWidth 64) 12, .bsTake] s = .next t ∧
      t.resps = s.resps ++ List.replicate 8 (.ok .unit) ++ [.ok (.bytes txn)]

/-! ### The result decoder -/

/-- R182, R183: the eight one-bit status bytes give their outcome, with the value where it carries one; every other byte
is `E_MALFORMED_STATUS`, whatever the value bytes are. -/
def Obligations.ResDecodeGivesTheOutcome : Prop :=
  ∀ (s : State) (b0 b1 b2 b3 : Byte),
    (∀ j < 5, b0.toNat = 2 ^ j → AnswersOk (.resDecode b0 b1 b2 b3) s
      (.outcome (BitVec.ofNat 3 j) true (b1 ++ b2 ++ b3 : BitVec 24).toInt
        (some ⟨(b1 ++ b2 ++ b3 : BitVec 24).toInt, 10⟩))) ∧
    (∀ j, 5 ≤ j → j < 8 → b0.toNat = 2 ^ j →
      AnswersOk (.resDecode b0 b1 b2 b3) s (.outcome (BitVec.ofNat 3 j) false 0 none)) ∧
    ((∀ j < 8, b0.toNat ≠ 2 ^ j) → AnswersErr (.resDecode b0 b1 b2 b3) s .malformedStatus)

/-- R184: RES_DECODE is total, and the map from defined status byte to outcome is one-to-one and onto. -/
def Obligations.StatusBytesAndOutcomesAgree : Prop :=
  (∀ (s : State) (b0 b1 b2 b3 : Byte), (∃ tag h k v, AnswersOk (.resDecode b0 b1 b2 b3) s (.outcome tag h k v)) ∨
    AnswersErr (.resDecode b0 b1 b2 b3) s .malformedStatus) ∧
  (∀ (s : State) (b0 b1 b2 b3 c0 c1 c2 c3 : Byte) (tag : BitVec 3) h k v h' k' v',
    AnswersOk (.resDecode b0 b1 b2 b3) s (.outcome tag h k v) →
    AnswersOk (.resDecode c0 c1 c2 c3) s (.outcome tag h' k' v') → b0 = c0) ∧
  (∀ (s : State) (tag : BitVec 3) (b1 b2 b3 : Byte), ∃ b0 h k v,
    AnswersOk (.resDecode b0 b1 b2 b3) s (.outcome tag h k v))

/-! ### Configuration words, result words and transactions -/

/-- A thermocouple word presented to the block is answered with its record, as CFG_DECODE answers it (R161; the word as
an instruction is the model's reading, log 5). -/
def Obligations.ThermocoupleWordsAnswerTheirRecord : Prop :=
  ∀ (s : State) (cj : BitVec 5) (mode : BitVec 1) (exc : BitVec 3) (rsv : BitVec 6) (caddr : BitVec 12),
    (AnswersOk (.cfgwTcJ cj mode exc rsv caddr) s (.record (.tc 0 cj mode exc rsv caddr)) ∧
      AnswersOk (.cfgwTcK cj mode exc rsv caddr) s (.record (.tc 1 cj mode exc rsv caddr)) ∧
      AnswersOk (.cfgwTcE cj mode exc rsv caddr) s (.record (.tc 2 cj mode exc rsv caddr)) ∧
      AnswersOk (.cfgwTcN cj mode exc rsv caddr) s (.record (.tc 3 cj mode exc rsv caddr)) ∧
      AnswersOk (.cfgwTcR cj mode exc rsv caddr) s (.record (.tc 4 cj mode exc rsv caddr)) ∧
      AnswersOk (.cfgwTcS cj mode exc rsv caddr) s (.record (.tc 5 cj mode exc rsv caddr)) ∧
      AnswersOk (.cfgwTcT cj mode exc rsv caddr) s (.record (.tc 6 cj mode exc rsv caddr)) ∧
      AnswersOk (.cfgwTcB cj mode exc rsv caddr) s (.record (.tc 7 cj mode exc rsv caddr))) ∧
    (s.par.ok = true → ∀ (t : BitVec 3) (pid : BitVec 5), s.par.probeId.ids[t.toNat]? = some pid →
      AnswersOk (.cfgDecode (pid ++ cj ++ mode ++ exc ++ rsv ++ caddr)) s (.record (.tc t cj mode exc rsv caddr)))

/-- Diode, sense-resistor and unconfigured words presented to the block are answered as CFG_DECODE answers them (R161; the
word as an instruction is the model's reading, log 5). -/
def Obligations.OtherWordsAnswerAsCfgDecode : Prop :=
  ∀ s : State,
    (∀ (mode rd avg : BitVec 1) (exc : BitVec 2) (ideal : BitVec 22),
      AnswersOk (.cfgwDiode mode rd avg exc ideal) s
        (.record (.di mode rd avg exc ideal (ideal != 0) ⟨ideal.toNat, 20⟩)) ∧
      (s.par.ok = true → exec (.cfgDecode (s.par.probeId.diode ++ mode ++ rd ++ avg ++ exc ++ ideal)) s =
        exec (.cfgwDiode mode rd avg exc ideal) s)) ∧
    (∀ rval : BitVec 27,
      AnswersOk (.cfgwRsense rval) s (.record (.rs rval ⟨rval.toNat, s.par.rsenseFrac⟩)) ∧
      (s.par.ok = true → exec (.cfgDecode (s.par.probeId.rsense ++ rval)) s = exec (.cfgwRsense rval) s)) ∧
    (∀ ignored : BitVec 27,
      AnswersErr (.cfgwUnconfigured ignored) s .notConfigured ∧
      exec (.cfgDecode ((0 : BitVec 5) ++ ignored)) s = exec (.cfgwUnconfigured ignored) s)

/-- A result word presented to the block is answered with its outcome, as RES_DECODE answers it (R75, R183; the word as
an instruction is the model's reading, log 5). -/
def Obligations.ResultWordsAnswerTheirOutcome : Prop :=
  ∀ (s : State) (v : BitVec 24),
    AnswersOk (.reswValid v) s (.outcome 0 true v.toInt (some ⟨v.toInt, 10⟩)) ∧
    AnswersOk (.reswAdcOutOfRange v) s (.outcome 1 true v.toInt (some ⟨v.toInt, 10⟩)) ∧
    AnswersOk (.reswSensorUnderRange v) s (.outcome 2 true v.toInt (some ⟨v.toInt, 10⟩)) ∧
    AnswersOk (.reswSensorOverRange v) s (.outcome 3 true v.toInt (some ⟨v.toInt, 10⟩)) ∧
    AnswersOk (.reswCjSoftFault v) s (.outcome 4 true v.toInt (some ⟨v.toInt, 10⟩)) ∧
    AnswersOk (.reswCjHardFault v) s (.outcome 5 false 0 none) ∧
    AnswersOk (.reswAdcHardOutOfRange v) s (.outcome 6 false 0 none) ∧
    AnswersOk (.reswSensorHardFault v) s (.outcome 7 false 0 none)

/-- A configuration word of no class and a result word with no defined status, presented to the block, are answered as
CFG_DECODE and RES_DECODE answer them (R161, R183; the model's reading, log 6). -/
def Obligations.WordsOfNoRowAreAnswered : Prop :=
  ∀ (s : State) (w : Word) (rest : List Input), s.par.ok = true →
    (w.extractLsb' 27 5 ≠ 0 → w.extractLsb' 27 5 ∉ s.par.probeId.ids →
      s.inputs = .bits .cfgw (fieldBits w) :: rest →
      step s = .next (respond (.err .unsupported) { s with inputs := rest })) ∧
    ((∀ j < 8, w.toNat / 2 ^ 24 ≠ 2 ^ j) → s.inputs = .bits .resw (fieldBits w) :: rest →
      step s = .next (respond (.err .malformedStatus) { s with inputs := rest }))

/-- TXN_WRITE writes the four bytes of the word at the configuration register's address, most-significant first, and
changes nothing else; it is refused at any other address (R32, R79; the device in State is the model's, logs 7, 9, 10). -/
def Obligations.TxnWriteStoresTheWord : Prop :=
  ∀ (s : State) (addr : Addr) (word : Word),
    ((∀ ch, IsChannel ch → addr.toNat ≠ 0x200 + 4 * (ch.toNat - 1)) →
      exec (.txnWrite addr word) s = .refused .remoteAddress) ∧
    (∀ ch, IsChannel ch → addr.toNat = 0x200 + 4 * (ch.toNat - 1) →
      ∃ regs : Memory, exec (.txnWrite addr word) s = .next { s with remote := { s.remote with regs := regs } } ∧
        regs.read addr.toNat = some (word.extractLsb' 24 8) ∧
        regs.read (addr.toNat + 1) = some (word.extractLsb' 16 8) ∧
        regs.read (addr.toNat + 2) = some (word.extractLsb' 8 8) ∧
        regs.read (addr.toNat + 3) = some (word.extractLsb' 0 8) ∧
        ∀ a, a < addr.toNat ∨ addr.toNat + 4 ≤ a → regs.read a = s.remote.regs.read a)

/-- TXN_READ answers four bytes, those a transaction wrote where one did, and changes no register; it is refused at an
address of no register (R80; the device in State is the model's, logs 7, 8, 10). -/
def Obligations.TxnReadReturnsTheRegister : Prop :=
  ∀ (s : State) (addr : Addr),
    ((∀ ch, IsChannel ch → addr.toNat ≠ 0x200 + 4 * (ch.toNat - 1) ∧ addr.toNat ≠ 0x010 + 4 * (ch.toNat - 1)) →
      exec (.txnRead addr) s = .refused .remoteAddress) ∧
    (∀ ch, IsChannel ch → addr.toNat = 0x200 + 4 * (ch.toNat - 1) ∨ addr.toNat = 0x010 + 4 * (ch.toNat - 1) →
      ∃ bytes : List Byte, bytes.length = 4 ∧
        (∀ k < 4, ∀ v, s.remote.regs.read (addr.toNat + k) = some v → bytes[k]? = some v) ∧
        exec (.txnRead addr) s = .next { s with
          remote := ⟨s.remote.regs, s.remote.answers ++ [bytes], s.remote.draws + 1⟩ })

/-- A configuration register read after it is written answers the word written (R33, R80; the model's device, logs 7
and 9). -/
def Obligations.RegisterReadsBackAsWritten : Prop :=
  ∀ (s : State) (ch : BitVec 5) (addr : Addr) (word : Word), IsChannel ch →
    addr.toNat = 0x200 + 4 * (ch.toNat - 1) →
    ∃ t, execAll [.txnWrite addr word, .txnRead addr] s = .next t ∧
      t.remote.answers = s.remote.answers ++ [[word.extractLsb' 24 8, word.extractLsb' 16 8, word.extractLsb' 8 8,
        word.extractLsb' 0 8]] ∧ t.blk = s.blk ∧ t.resps = s.resps

/-! ### Whole-machine rules -/

/-- Every command, and every word, is answered by exactly one response, in a next state that differs in the block's
state and the response sequence alone (R12 for the commands; that a bare configuration or result word gets a response is
the model's choice, log 5). -/
def Obligations.EveryCommandGetsOneResponse : Prop :=
  ∀ (i : Instr) (s : State), i.port ≠ .txn → ∃ r b, exec i s = .next (respond r { s with blk := b })

/-- R202: an instruction that ends with an error changes nothing but the response sequence. -/
def Obligations.ErrorsChangeNothing : Prop :=
  ∀ (i : Instr) (s t : State) (e : ErrCode), exec i s = .next t → t.resps = s.resps ++ [.err e] →
    t = respond (.err e) s

/-- R203: a command answers `Ok` exactly when no error applies to it, and otherwise the applicable error that is first
in the order of R203. -/
def Obligations.FirstApplicableErrorIsReported : Prop :=
  (∀ (i : Instr) (s : State), i.port = .cmd → s.par.ok = true →
    ((∀ e, ¬ Applies s e i) ∧ ∃ p b, exec i s = .next (respond (.ok p) { s with blk := b })) ∨
    (∃ e, Applies s e i ∧ (∀ e', Applies s e' i → e.place ≤ e'.place) ∧ AnswersErr i s e)) ∧
  [ErrCode.illegalCmd, .channel, .width, .fxFormat, .field, .unsupported, .fxRange, .overflow, .underrun,
    .payloadWidth].map ErrCode.place = [1, 2, 3, 3, 3, 4, 5, 6, 6, 7]

/-- The numbers of the error codes: distinct, 0x01 to 0x0C, in the order of R201. -/
def Obligations.ErrorCodesAreNumbered : Prop :=
  [ErrCode.illegalCmd, .width, .underrun, .overflow, .fxFormat, .fxRange, .channel, .field, .unsupported,
    .malformedStatus, .notConfigured, .payloadWidth].map ErrCode.code =
      [0x01, 0x02, 0x03, 0x04, 0x05, 0x06, 0x07, 0x08, 0x09, 0x0A, 0x0B, 0x0C] ∧
  ∀ e : ErrCode, 1 ≤ e.code.toNat ∧ e.code.toNat ≤ 0x0C

/-- R23: a command of the codec, the address table, the assembler or the result decoder answers from its operands and the
parameters alone, and writes no state. -/
def Obligations.PureCommandsIgnoreTheState : Prop :=
  ∀ (i : Instr) (s s' : State), pureCommand i = true → s.par = s'.par →
    ∃ r, exec i s = .next (respond r s) ∧ exec i s' = .next (respond r s')

/-- A command's effect depends on the parameters and the block's state alone: not on earlier responses, on inputs still
to come or on the device (R12, R200, R54). -/
def Obligations.CommandsDependOnTheBlockAlone : Prop :=
  ∀ (i : Instr) (s s' : State), i.port = .cmd → s.par = s'.par → s.blk = s'.blk →
    ∃ r b, exec i s = .next (respond r { s with blk := b }) ∧ exec i s' = .next (respond r { s' with blk := b })

/-! ### The assembler notation -/

/-- A line of each command assembles to it, a thermocouple type may be named, and numbers are decimal or hexadecimal
(R66, on lines already cut into operands, log 19). -/
def Obligations.LinesAssembleToTheirCommand : Prop :=
  ∀ p : Params,
    assemble p ⟨"bs.reset", []⟩ = some .bsReset ∧ assemble p ⟨"bs.align", []⟩ = some .bsAlign ∧
    assemble p ⟨"bs.take", []⟩ = some .bsTake ∧ assemble p ⟨"bs.stat", []⟩ = some .bsStat ∧
    (∀ (v : BitVec 64) (w : BitVec 7), assemble p ⟨"bs.write", [.num v.toNat, .num w.toNat]⟩ = some (.bsWrite v w) ∧
      assemble p ⟨"bs.read", [.num w.toNat]⟩ = some (.bsRead w)) ∧
    (∀ data : List Byte, data.length < 256 →
      assemble p ⟨"bs.load", [.bytes (data.map BitVec.toNat)]⟩ = some (.bsLoad data)) ∧
    (∀ (x : FloatOp) (b : BitVec 64) (w n : BitVec 7), x.fmt = p.floatFmt →
      assemble p ⟨"fx.enc", [.float x, .num w.toNat, .num n.toNat, .name "u"]⟩ = some (.fxEncode x w n 0) ∧
      assemble p ⟨"fx.enc", [.float x, .num w.toNat, .num n.toNat, .name "s"]⟩ = some (.fxEncode x w n 1) ∧
      assemble p ⟨"fx.dec", [.num b.toNat, .num w.toNat, .num n.toNat, .name "u"]⟩ = some (.fxDecode b w n 0) ∧
      assemble p ⟨"fx.dec", [.num b.toNat, .num w.toNat, .num n.toNat, .name "s"]⟩ = some (.fxDecode b w n 1)) ∧
    (∀ b0 b1 b2 b3 : Byte,
      assemble p ⟨"fx.dec24", [.num b0.toNat, .num b1.toNat, .num b2.toNat]⟩ = some (.fxDecode24 b0 b1 b2) ∧
      assemble p ⟨"res.decode", [.num b0.toNat, .num b1.toNat, .num b2.toNat, .num b3.toNat]⟩ =
        some (.resDecode b0 b1 b2 b3)) ∧
    (∀ c : BitVec 5, assemble p ⟨"ch.cfgaddr", [.num c.toNat]⟩ = some (.chStartAddr c) ∧
      assemble p ⟨"ch.resaddr", [.num c.toNat]⟩ = some (.chResultAddr c) ∧
      assemble p ⟨"ch.mask", [.num c.toNat]⟩ = some (.chMask c) ∧
      assemble p ⟨"cfg.rdreq", [.num c.toNat]⟩ = some (.cfgReadReq c) ∧
      assemble p ⟨"res.rdreq", [.num c.toNat]⟩ = some (.resReadReq c)) ∧
    (∀ chs : List (BitVec 5), chs.length < 256 →
      assemble p ⟨"ch.maskset", [.set (chs.map BitVec.toNat)]⟩ = some (.chMaskSet chs)) ∧
    (∀ (c : BitVec 5) (t : BitVec 3) (j : BitVec 5) (m : BitVec 1) (e : BitVec 3) (a : BitVec 12),
      assemble p ⟨"cfg.tc", [.num c.toNat, .num t.toNat, .keyNum "cj" j.toNat, .keyNum "mode" m.toNat,
        .keyNum "exc" e.toNat, .keyNum "caddr" a.toNat]⟩ = some (.cfgTc c t j m e a)) ∧
    (∀ (c : AsmArg) (args : List AsmArg),
      ∀ q ∈ [("J", 0), ("K", 1), ("E", 2), ("N", 3), ("R", 4), ("S", 5), ("T", 6), ("B", 7)],
      assemble p ⟨"cfg.tc", c :: .name q.1 :: args⟩ = assemble p ⟨"cfg.tc", c :: .num q.2 :: args⟩) ∧
    (∀ n : Nat, readNumber (Nat.toDigits 10 n) = some n ∧
      readNumber (['0', 'x'] ++ Nat.toDigits 16 n) = some n) ∧
    (∀ (c : BitVec 5) (x : FloatOp), x.fmt = p.floatFmt →
      assemble p ⟨"cfg.rsense", [.num c.toNat, .float x]⟩ = some (.cfgRsense c x)) ∧
    (∀ (c : BitVec 5) (m r g : BitVec 1) (e : BitVec 2) (x : FloatOp), x.fmt = p.floatFmt →
      assemble p ⟨"cfg.diode", [.num c.toNat, .keyNum "mode" m.toNat, .keyNum "rd" r.toNat, .keyNum "avg" g.toNat,
        .keyNum "exc" e.toNat, .keyFloat "eta" x]⟩ = some (.cfgDiode c m r g e 1 x)) ∧
    (∀ (c : BitVec 5) (m r g : BitVec 1) (e : BitVec 2), ∃ x : FloatOp,
      assemble p ⟨"cfg.diode", [.num c.toNat, .keyNum "mode" m.toNat, .keyNum "rd" r.toNat, .keyNum "avg" g.toNat,
        .keyNum "exc" e.toNat, .keyNone "eta"]⟩ = some (.cfgDiode c m r g e 0 x)) ∧
    (∀ c : BitVec 5, assemble p ⟨"cfg.unsup", [.num c.toNat, .name "rtd"]⟩ = some (.cfgUnsup c 0) ∧
      assemble p ⟨"cfg.unsup", [.num c.toNat, .name "thermistor"]⟩ = some (.cfgUnsup c 1) ∧
      assemble p ⟨"cfg.unsup", [.num c.toNat, .name "custom_tc"]⟩ = some (.cfgUnsup c 2) ∧
      assemble p ⟨"cfg.unsup", [.num c.toNat, .name "direct_adc"]⟩ = some (.cfgUnsup c 3)) ∧
    (∀ w : Word, assemble p ⟨"cfg.decode", [.num w.toNat]⟩ = some (.cfgDecode w) ∧
      assemble p ⟨"cfg.check", [.num w.toNat]⟩ = some (.cfgCheck w))

/-- Each pseudo-instruction assembles as its expansion does, and an omitted operand is its sentinel or 0 (R67). The clauses
on omitted operands put the operand before any others: that `key=value` operands stand in any order is the model's choice
(log 19). -/
def Obligations.PseudoInstructionsExpand : Prop :=
  ∀ p : Params,
    (∀ v, assemble p ⟨"bs.write32", [v]⟩ = assemble p ⟨"bs.write", [v, .num 32]⟩) ∧
    (∀ c t, assemble p ⟨"cfg.tc.plain", [c, t]⟩ = assemble p ⟨"cfg.tc", [c, t, .keyNum "cj" 0, .keyNum "mode" 0,
      .keyNum "exc" 0, .keyNum "caddr" 0]⟩) ∧
    (∀ c, assemble p ⟨"cfg.diode.default", [c]⟩ = assemble p ⟨"cfg.diode", [c, .keyNum "mode" 0, .keyNum "rd" 0,
      .keyNum "avg" 0, .keyNum "exc" 0, .keyNone "eta"]⟩) ∧
    (∀ r, assemble p ⟨"fx.enc.rsense", [r]⟩ =
      assemble p ⟨"fx.enc", [r, .num 27, .num p.rsenseFrac, .name "u"]⟩) ∧
    (∀ x, assemble p ⟨"fx.enc.ideal", [x]⟩ =
      assemble p ⟨"fx.enc", [x, .num p.idealPremaskW, .num 20, .name "u"]⟩) ∧
    (∀ b1 b2 b3, assemble p ⟨"res.value", [b1, b2, b3]⟩ = assemble p ⟨"fx.dec24", [b1, b2, b3]⟩) ∧
    (∀ (c t : AsmArg) (args : List AsmArg), ∀ key ∈ ["cj", "mode", "exc", "caddr"],
      (∀ a ∈ args, a.key? ≠ some key) →
      assemble p ⟨"cfg.tc", c :: t :: args⟩ = assemble p ⟨"cfg.tc", c :: t :: .keyNum key 0 :: args⟩) ∧
    (∀ (c : AsmArg) (args : List AsmArg), ∀ key ∈ ["mode", "rd", "avg", "exc"],
      (∀ a ∈ args, a.key? ≠ some key) →
      assemble p ⟨"cfg.diode", c :: args⟩ = assemble p ⟨"cfg.diode", c :: .keyNum key 0 :: args⟩) ∧
    (∀ (c : AsmArg) (args : List AsmArg), (∀ a ∈ args, a.key? ≠ some "eta") →
      assemble p ⟨"cfg.diode", c :: args⟩ = assemble p ⟨"cfg.diode", c :: .keyNone "eta" :: args⟩)
end

