-- ==== Sys2Proof/Laws/Bits.lean ====
section
/-! SUPPORT. The laws of the conversions of Machine/Bits.lean: lengths, and that each conversion is undone by its inverse. -/

namespace Sys2Proof

@[simp] theorem bitsOf_length (w v : Nat) : (bitsOf w v).length = w := by
  induction w with
  | zero => rfl
  | succ w ih => simp [bitsOf, ih]

theorem natOf_lt (b : Bits) : natOf b < 2 ^ b.length := by
  induction b with
  | nil => simp [natOf]
  | cons x xs ih =>
    have hx : x.toNat ≤ 1 := by cases x <;> simp
    have hm : x.toNat * 2 ^ xs.length ≤ 1 * 2 ^ xs.length := Nat.mul_le_mul_right _ hx
    simp only [natOf, List.length_cons, pow_succ]
    omega

/-- The low bits of a number, split at bit `w`. -/
theorem mod_two_pow_succ_testBit (v w : Nat) : v % 2 ^ (w + 1) = (v.testBit w).toNat * 2 ^ w + v % 2 ^ w := by
  have h : (v.testBit w).toNat = v / 2 ^ w % 2 := Nat.toNat_testBit v w
  rw [h, pow_succ, Nat.mod_mul]
  ring

@[simp] theorem natOf_bitsOf (w v : Nat) : natOf (bitsOf w v) = v % 2 ^ w := by
  induction w with
  | zero => simp [bitsOf, natOf, Nat.mod_one]
  | succ w ih => simp [bitsOf, natOf, ih, mod_two_pow_succ_testBit]

theorem natOf_append (a b : Bits) : natOf (a ++ b) = natOf a * 2 ^ b.length + natOf b := by
  induction a with
  | nil => simp [natOf]
  | cons x xs ih =>
    simp only [List.cons_append, natOf, ih, List.length_append, pow_add]
    ring

/-- A value and its low `w` bits give the same bits (R102). -/
@[simp] theorem bitsOf_mod (w v : Nat) : bitsOf w (v % 2 ^ w) = bitsOf w v := by
  have h : ∀ k, k ≤ w → bitsOf k (v % 2 ^ w) = bitsOf k v := by
    intro k
    induction k with
    | zero => intro _; rfl
    | succ k ih =>
      intro hk
      have hb : k < w := hk
      simp [bitsOf, ih (by omega), Nat.testBit_mod_two_pow, hb]
  exact h w le_rfl

/-- Bit sequences of one length are equal when they denote one number. -/
theorem natOf_inj : ∀ {a b : Bits}, a.length = b.length → natOf a = natOf b → a = b
  | [], [], _, _ => rfl
  | [], _ :: _, hl, _ => by simp at hl
  | _ :: _, [], hl, _ => by simp at hl
  | x :: xs, y :: ys, hl, hn => by
    have hlen : xs.length = ys.length := by simpa using hl
    have hx := natOf_lt xs
    have hy := natOf_lt ys
    simp only [natOf] at hn
    rw [hlen] at hn hx
    have hxy : x = y := by
      cases x <;> cases y <;> simp at hn ⊢ <;> omega
    subst hxy
    have : natOf xs = natOf ys := by omega
    rw [natOf_inj hlen this]

@[simp] theorem bitsOf_natOf (b : Bits) : bitsOf b.length (natOf b) = b := by
  apply natOf_inj (by simp)
  simp [Nat.mod_eq_of_lt (natOf_lt b)]

/-- Two fields side by side are one field of the summed width (R41). -/
theorem bitsOf_append (a b x y : Nat) : bitsOf a x ++ bitsOf b y = bitsOf (a + b) (x * 2 ^ b + y % 2 ^ b) := by
  apply natOf_inj (by simp)
  have hy : y % 2 ^ b < 2 ^ b := Nat.mod_lt _ (by positivity)
  have hd : (x * 2 ^ b + y % 2 ^ b) / 2 ^ b = x := by
    rw [Nat.add_comm, Nat.add_mul_div_right _ _ (by positivity), Nat.div_eq_of_lt hy, Nat.zero_add]
  rw [natOf_append, natOf_bitsOf, natOf_bitsOf, natOf_bitsOf, bitsOf_length, Nat.add_comm a b, pow_add,
    Nat.mod_mul, hd, Nat.add_comm (x * 2 ^ b), Nat.add_mul_mod_self_right, Nat.mod_mod]
  ring

@[simp] theorem fieldBits_length {w : Nat} (v : BitVec w) : (fieldBits v).length = w := by simp [fieldBits]

@[simp] theorem natOf_fieldBits {w : Nat} (v : BitVec w) : natOf (fieldBits v) = v.toNat := by
  simp [fieldBits, Nat.mod_eq_of_lt v.isLt]

/-- A field's bits, read back. -/
@[simp] theorem ofNat_natOf_fieldBits {w : Nat} (v : BitVec w) : BitVec.ofNat w (natOf (fieldBits v)) = v := by simp

/-- Concatenated fields (R7, R150). -/
theorem fieldBits_append {a b : Nat} (x : BitVec a) (y : BitVec b) : fieldBits (x ++ y) = fieldBits x ++ fieldBits y := by
  apply natOf_inj (by simp)
  rw [natOf_append]
  rw [natOf_fieldBits, natOf_fieldBits, natOf_fieldBits, fieldBits_length, BitVec.toNat_append,
    ← Nat.shiftLeft_add_eq_or_of_lt y.isLt, Nat.shiftLeft_eq]

/-! ### Bytes -/

@[simp] theorem bitsOfBytes_length (l : List Byte) : (bitsOfBytes l).length = 8 * l.length := by
  induction l with
  | nil => rfl
  | cons b bs ih => simp [bitsOfBytes, ih]; omega

theorem bitsOfBytes_append (a b : List Byte) : bitsOfBytes (a ++ b) = bitsOfBytes a ++ bitsOfBytes b := by
  induction a with
  | nil => rfl
  | cons x xs ih => simp [bitsOfBytes, ih]

/-- Eight bits and what follows them: one byte and the bytes that follow. -/
theorem bytesOf_eight (b rest : Bits) (h : b.length = 8) :
    bytesOf (b ++ rest) = BitVec.ofNat 8 (natOf b) :: bytesOf rest := by
  match b, h with
  | [b7, b6, b5, b4, b3, b2, b1, b0], _ => rfl

@[simp] theorem bytesOf_nil : bytesOf [] = [] := rfl

@[simp] theorem bytesOf_fieldBits_append (b : Byte) (rest : Bits) :
    bytesOf (fieldBits b ++ rest) = b :: bytesOf rest := by
  rw [bytesOf_eight _ _ (by simp), ofNat_natOf_fieldBits]

@[simp] theorem bytesOf_bitsOfBytes (l : List Byte) : bytesOf (bitsOfBytes l) = l := by
  induction l with
  | nil => rfl
  | cons b bs ih => simp [bitsOfBytes, ih]

/-- Whole bytes of bits, as bytes and back (R9). -/
theorem bitsOfBytes_bytesOf (n : Nat) : ∀ b : Bits, b.length = 8 * n → bitsOfBytes (bytesOf b) = b := by
  induction n with
  | zero =>
    intro b h
    have : b = [] := List.length_eq_zero_iff.mp (by omega)
    subst this
    rfl
  | succ n ih =>
    intro b h
    have h8 : (b.take 8).length = 8 := by simp; omega
    have hd : (b.drop 8).length = 8 * n := by simp; omega
    conv_lhs => rw [← List.take_append_drop 8 b]
    rw [bytesOf_eight _ _ h8, bitsOfBytes, ih _ hd]
    have hb : fieldBits (BitVec.ofNat 8 (natOf (b.take 8))) = b.take 8 := by
      apply natOf_inj (by simp; omega)
      have := natOf_lt (b.take 8)
      rw [h8] at this
      simpa using this
    rw [hb, List.take_append_drop]

/-- The number of bytes of a whole-byte bit sequence. -/
theorem bytesOf_length (n : Nat) (b : Bits) (h : b.length = 8 * n) : (bytesOf b).length = n := by
  have := congrArg List.length (bitsOfBytes_bytesOf n b h)
  simp at this
  omega

@[simp] theorem zeroBits_length (k : Nat) : (zeroBits k).length = k := by simp [zeroBits]

@[simp] theorem natOf_zeroBits (k : Nat) : natOf (zeroBits k) = 0 := by
  induction k with
  | zero => rfl
  | succ k ih => simpa [zeroBits, List.replicate_succ, natOf] using ih

/-! ### Signed numbers -/

/-- `signed_w` is the two's-complement reading of the low `w` bits (R8). -/
theorem signedOf_eq_toInt (w v : Nat) (hw : 1 ≤ w) : signedOf w v = (BitVec.ofNat w v).toInt := by
  have h2 : 2 ^ w = 2 * 2 ^ (w - 1) := by
    conv_lhs => rw [show w = (w - 1) + 1 by omega, pow_succ]
    ring
  have hb : v.testBit (w - 1) = decide (2 ^ (w - 1) ≤ v % 2 ^ w) := by
    have hlt : v % 2 ^ w < 2 ^ w := Nat.mod_lt _ (by positivity)
    have e : (v % 2 ^ w).testBit (w - 1) = v.testBit (w - 1) := by
      rw [Nat.testBit_mod_two_pow]
      have : w - 1 < w := by omega
      simp [this]
    rw [← e]
    rw [Nat.testBit_eq_decide_div_mod_eq]
    by_cases hc : 2 ^ (w - 1) ≤ v % 2 ^ w
    · have : v % 2 ^ w / 2 ^ (w - 1) = 1 := by
        apply Nat.div_eq_of_lt_le <;> omega
      simp [this, hc]
    · have : v % 2 ^ w / 2 ^ (w - 1) = 0 := Nat.div_eq_of_lt (by omega)
      simp [this, hc]
  rw [signedOf, BitVec.toInt_eq_toNat_cond, BitVec.toNat_ofNat, hb]
  by_cases hc : 2 ^ (w - 1) ≤ v % 2 ^ w
  · have : ¬ 2 * (v % 2 ^ w) < 2 ^ w := by omega
    simp [hc, this]
  · have : 2 * (v % 2 ^ w) < 2 ^ w := by omega
    simp [hc, this]

end Sys2Proof
end

