-- ==== Sys2Proof/Laws/Decode.lean ====
section
/-! SUPPORT. What the field readers of the decoder give back on the encoder's bits, and the classes of a probe-type
identifier. -/

namespace Sys2Proof

/-- A field is read back whole, and nothing after it is touched. -/
@[simp] theorem takeField_fieldBits {w : Nat} (v : BitVec w) (rest : Bits) :
    takeField w (fieldBits v ++ rest) = some (v, rest) := by
  have ht : (fieldBits v ++ rest).take w = fieldBits v := by
    rw [List.take_append_of_le_length (by simp), List.take_of_length_le (by simp)]
  have hd : (fieldBits v ++ rest).drop w = rest := by
    rw [List.drop_append_of_le_length (by simp), List.drop_of_length_le (by simp), List.nil_append]
  simp [takeField, ht, hd]

@[simp] theorem takeField_fieldBits_nil {w : Nat} (v : BitVec w) : takeField w (fieldBits v) = some (v, []) := by
  simpa using takeField_fieldBits v []

theorem takeField_bitsOf (w v : Nat) (rest : Bits) :
    takeField w (bitsOf w v ++ rest) = some (BitVec.ofNat w v, rest) := by
  have h : bitsOf w v = fieldBits (BitVec.ofNat w v) := by simp [fieldBits]
  rw [h, takeField_fieldBits]

/-- A field that is read is the front of the bits it is read from. -/
theorem takeField_eq_some {w : Nat} {b rest : Bits} {v : BitVec w} (h : takeField w b = some (v, rest)) :
    b = fieldBits v ++ rest := by
  unfold takeField at h
  split at h
  · rename_i hl
    simp only [Option.some.injEq, Prod.mk.injEq] at h
    obtain ⟨rfl, rfl⟩ := h
    have : fieldBits (BitVec.ofNat w (natOf (b.take w))) = b.take w := by
      apply natOf_inj (by simpa using hl.symm)
      have := natOf_lt (b.take w)
      rw [hl] at this
      simpa using Nat.mod_eq_of_lt this
    rw [this, List.take_append_drop]
  · simp at h

@[simp] theorem takeFields_itemBits {w : Nat} (l : List (BitVec w)) (rest : Bits) :
    takeFields w l.length (itemBits l ++ rest) = some (l, rest) := by
  induction l with
  | nil => rfl
  | cons v vs ih => simp [takeFields, itemBits, List.append_assoc, ih]

theorem takeFields_eq_some {w : Nat} : ∀ {k : Nat} {b rest : Bits} {l : List (BitVec w)},
    takeFields w k b = some (l, rest) → l.length = k ∧ b = itemBits l ++ rest
  | 0, b, rest, l, h => by
    simp only [takeFields, Option.some.injEq, Prod.mk.injEq] at h
    obtain ⟨rfl, rfl⟩ := h
    simp [itemBits]
  | k + 1, b, rest, l, h => by
    simp only [takeFields] at h
    split at h
    · simp at h
    · rename_i v r hv
      split at h
      · simp at h
      · rename_i vs r' hvs
        simp only [Option.some.injEq, Prod.mk.injEq] at h
        obtain ⟨rfl, rfl⟩ := h
        obtain ⟨h1, h2⟩ := takeFields_eq_some hvs
        have := takeField_eq_some hv
        simp [itemBits, h1, this, h2]

@[simp] theorem takeFloat_floatBits (x : FloatOp) (rest : Bits) :
    takeFloat x.fmt (floatBits x ++ rest) = some (x, rest) := by
  cases x <;> simp [takeFloat, floatBits, FloatOp.fmt]

@[simp] theorem takeFloat_floatBits_nil (x : FloatOp) : takeFloat x.fmt (floatBits x) = some (x, []) := by
  simpa using takeFloat_floatBits x []

theorem takeFloat_eq_some {fmt : FloatFmt} {b rest : Bits} {x : FloatOp} (h : takeFloat fmt b = some (x, rest)) :
    x.fmt = fmt ∧ b = floatBits x ++ rest := by
  cases fmt <;> simp only [takeFloat, Option.map_eq_some_iff, Prod.mk.injEq] at h <;>
    obtain ⟨⟨v, r⟩, hv, rfl, rfl⟩ := h <;> exact ⟨rfl, takeField_eq_some hv⟩

@[simp] theorem itemBits_nil (w : Nat) : itemBits ([] : List (BitVec w)) = [] := rfl

@[simp] theorem takeFields_itemBits_nil {w : Nat} (l : List (BitVec w)) :
    takeFields w l.length (itemBits l) = some (l, []) := by simpa using takeFields_itemBits l []

/-- A request whose operands are read to its end decodes to its instruction (R60). -/
theorem decodeCmd_of_operands (fmt : FloatFmt) (code : Nat) (b : Bits) (i : Instr) (h : code < 256)
    (hc : isCommandCode code = true) (ho : takeOperands fmt code b = some (i, [])) :
    decodeCmd fmt (codeBits code ++ b) = .ok i := by
  have hn : (BitVec.ofNat 8 code).toNat = code := by simp [Nat.mod_eq_of_lt h]
  rw [decodeCmd, codeBits, takeField_bitsOf]
  simp only [hn, hc, ho, if_true]

/-- A code that is not in R61 is illegal whatever follows it (R62). -/
theorem decodeCmd_of_illegal (fmt : FloatFmt) (code : Nat) (b : Bits) (h : code < 256)
    (hc : isCommandCode code = false) : decodeCmd fmt (codeBits code ++ b) = .error .illegalCmd := by
  have hn : (BitVec.ofNat 8 code).toNat = code := by simp [Nat.mod_eq_of_lt h]
  rw [decodeCmd, codeBits, takeField_bitsOf]
  simp [hn, hc]

/-- A word presented whole. -/
@[simp] theorem decodeWord_fieldBits (row : Word → Except Reject Instr) (w : Word) :
    decodeWord row (fieldBits w) = row w := by simp [decodeWord]

/-! ### Probe-type identifiers -/

/-- What a table a model may be given says: ten identifiers, none 0, no two equal (R70). -/
theorem ProbeId.ok_iff (t : ProbeId) : t.ok = true ↔ t.ids.Nodup ∧ (0 : BitVec 5) ∉ t.ids := by
  simp only [ProbeId.ok, Bool.and_eq_true, decide_eq_true_eq, List.all_eq_true, bne_iff_ne, ne_eq]
  constructor
  · rintro ⟨h1, h2⟩
    exact ⟨h1, fun h => h2 0 h rfl⟩
  · rintro ⟨h1, h2⟩
    exact ⟨h1, fun x hx h => h2 (h ▸ hx)⟩

theorem Params.ok_probeId {p : Params} (h : p.ok = true) : p.probeId.ok = true := by
  simp only [Params.ok, Bool.and_eq_true] at h
  exact h.2

/-- The inequalities the classes of R71 rest on: no identifier is 0, and each differs from those tested before it. -/
theorem ProbeId.ok_ne {t : ProbeId} (h : t.ok = true) :
    (t.ids.reverse).Nodup ∧ (∀ k, tcId t k ≠ 0) ∧ t.rsense ≠ 0 ∧ t.diode ≠ 0 ∧ t.diode ≠ t.rsense := by
  obtain ⟨hn, h0⟩ := (ProbeId.ok_iff t).mp h
  have hm : ∀ x ∈ t.ids, x ≠ 0 := fun x hx e => h0 (e ▸ hx)
  refine ⟨List.nodup_reverse.mpr hn, fun k => hm _ ?_, hm _ (by simp [ProbeId.ids]), hm _ (by simp [ProbeId.ids]), ?_⟩
  · unfold tcId
    split <;> simp [ProbeId.ids]
  · simp only [ProbeId.ids, List.nodup_cons, List.mem_cons, not_or] at hn
    tauto

/-- The class of a thermocouple identifier (R71). -/
theorem classify_tcId {t : ProbeId} (h : t.ok = true) (k : BitVec 3) : classify t (tcId t k) = .thermocouple k := by
  obtain ⟨hn, h0, -⟩ := ProbeId.ok_ne h
  simp only [ProbeId.ids, List.reverse_cons, List.reverse_nil, List.nil_append, List.cons_append, List.nodup_cons,
    List.mem_cons, not_or, List.not_mem_nil, not_false_eq_true, and_true] at hn
  have hk : k = 0 ∨ k = 1 ∨ k = 2 ∨ k = 3 ∨ k = 4 ∨ k = 5 ∨ k = 6 ∨ k = 7 := by
    revert k; decide
  have h0 := h0 k
  rcases hk with rfl | rfl | rfl | rfl | rfl | rfl | rfl | rfl <;>
    simp [tcId] at h0 <;> simp [classify, tcId, hn, h0]

/-- The class of the sense-resistor identifier (R71). -/
theorem classify_rsense {t : ProbeId} (h : t.ok = true) : classify t t.rsense = .senseResistor := by
  obtain ⟨hn, -, h0, -⟩ := ProbeId.ok_ne h
  simp only [ProbeId.ids, List.reverse_cons, List.reverse_nil, List.nil_append, List.cons_append, List.nodup_cons,
    List.mem_cons, not_or, List.not_mem_nil, not_false_eq_true, and_true] at hn
  simp at h0
  simp [classify, hn, h0]

/-- The class of the diode identifier (R71). -/
theorem classify_diode {t : ProbeId} (h : t.ok = true) : classify t t.diode = .diode := by
  obtain ⟨hn, -, -, h0, hd⟩ := ProbeId.ok_ne h
  simp only [ProbeId.ids, List.reverse_cons, List.reverse_nil, List.nil_append, List.cons_append, List.nodup_cons,
    List.mem_cons, not_or, List.not_mem_nil, not_false_eq_true, and_true] at hn
  simp at h0
  simp [classify, hn, h0, hd]

@[simp] theorem classify_zero (t : ProbeId) : classify t 0 = .unconfigured := by simp [classify]

/-! ### The fields of the layouts (R69, R74) -/

/-- A field above the low part of a concatenation lies in its high part. -/
theorem extract_append_high {a b : Nat} (x : BitVec a) (y : BitVec b) (s w : Nat) (h : b ≤ s) :
    (x ++ y).extractLsb' s w = x.extractLsb' (s - b) w := by
  apply BitVec.eq_of_getElem_eq
  intro i hi
  have : ¬ s + i < b := by omega
  have e : s + i - b = s - b + i := by omega
  simp [BitVec.getElem_extractLsb', BitVec.getLsbD_append, this, e]

/-- A field within the low part of a concatenation. -/
theorem extract_append_low {a b : Nat} (x : BitVec a) (y : BitVec b) (s w : Nat) (h : s + w ≤ b) :
    (x ++ y).extractLsb' s w = y.extractLsb' s w := by
  apply BitVec.eq_of_getElem_eq
  intro i hi
  have : s + i < b := by omega
  simp [BitVec.getElem_extractLsb', BitVec.getLsbD_append, this]

@[simp] theorem extract_self {w : Nat} (x : BitVec w) : x.extractLsb' 0 w = x := by
  apply BitVec.eq_of_getElem_eq
  intro i hi
  simp

section TcWord
variable (pid cj : BitVec 5) (mode : BitVec 1) (exc : BitVec 3) (rsv : BitVec 6) (caddr : BitVec 12)

@[simp] theorem tcWord_pid : (tcWord pid cj mode exc rsv caddr).extractLsb' 27 5 = pid :=
  (extract_append_high (a := 20) (pid ++ cj ++ mode ++ exc ++ rsv) caddr 27 5 (by decide)).trans <|
    (extract_append_high (a := 14) (pid ++ cj ++ mode ++ exc) rsv 15 5 (by decide)).trans <|
    (extract_append_high (a := 11) (pid ++ cj ++ mode) exc 9 5 (by decide)).trans <|
    (extract_append_high (a := 10) (pid ++ cj) mode 6 5 (by decide)).trans <|
    (extract_append_high (a := 5) (pid) cj 5 5 (by decide)).trans <|
    (extract_self pid)
@[simp] theorem tcWord_cj : (tcWord pid cj mode exc rsv caddr).extractLsb' 22 5 = cj :=
  (extract_append_high (a := 20) (pid ++ cj ++ mode ++ exc ++ rsv) caddr 22 5 (by decide)).trans <|
    (extract_append_high (a := 14) (pid ++ cj ++ mode ++ exc) rsv 10 5 (by decide)).trans <|
    (extract_append_high (a := 11) (pid ++ cj ++ mode) exc 4 5 (by decide)).trans <|
    (extract_append_high (a := 10) (pid ++ cj) mode 1 5 (by decide)).trans <|
    (extract_append_low (a := 5) (pid) cj 0 5 (by decide)).trans <|
    (extract_self cj)
@[simp] theorem tcWord_mode : (tcWord pid cj mode exc rsv caddr).extractLsb' 21 1 = mode :=
  (extract_append_high (a := 20) (pid ++ cj ++ mode ++ exc ++ rsv) caddr 21 1 (by decide)).trans <|
    (extract_append_high (a := 14) (pid ++ cj ++ mode ++ exc) rsv 9 1 (by decide)).trans <|
    (extract_append_high (a := 11) (pid ++ cj ++ mode) exc 3 1 (by decide)).trans <|
    (extract_append_low (a := 10) (pid ++ cj) mode 0 1 (by decide)).trans <|
    (extract_self mode)
@[simp] theorem tcWord_exc : (tcWord pid cj mode exc rsv caddr).extractLsb' 18 3 = exc :=
  (extract_append_high (a := 20) (pid ++ cj ++ mode ++ exc ++ rsv) caddr 18 3 (by decide)).trans <|
    (extract_append_high (a := 14) (pid ++ cj ++ mode ++ exc) rsv 6 3 (by decide)).trans <|
    (extract_append_low (a := 11) (pid ++ cj ++ mode) exc 0 3 (by decide)).trans <|
    (extract_self exc)
@[simp] theorem tcWord_rsv : (tcWord pid cj mode exc rsv caddr).extractLsb' 12 6 = rsv :=
  (extract_append_high (a := 20) (pid ++ cj ++ mode ++ exc ++ rsv) caddr 12 6 (by decide)).trans <|
    (extract_append_low (a := 14) (pid ++ cj ++ mode ++ exc) rsv 0 6 (by decide)).trans <|
    (extract_self rsv)
@[simp] theorem tcWord_caddr : (tcWord pid cj mode exc rsv caddr).extractLsb' 0 12 = caddr :=
  (extract_append_low (a := 20) (pid ++ cj ++ mode ++ exc ++ rsv) caddr 0 12 (by decide)).trans <|
    (extract_self caddr)

end TcWord

section RsenseWord
variable (pid : BitVec 5) (rval : BitVec 27)

@[simp] theorem rsenseWord_pid : (rsenseWord pid rval).extractLsb' 27 5 = pid :=
  (extract_append_high (a := 5) (pid) rval 27 5 (by decide)).trans <|
    (extract_self pid)
@[simp] theorem rsenseWord_rval : (rsenseWord pid rval).extractLsb' 0 27 = rval :=
  (extract_append_low (a := 5) (pid) rval 0 27 (by decide)).trans <|
    (extract_self rval)

end RsenseWord

section DiodeWord
variable (pid : BitVec 5) (mode rd avg : BitVec 1) (exc : BitVec 2) (ideal : BitVec 22)

@[simp] theorem diodeWord_pid : (diodeWord pid mode rd avg exc ideal).extractLsb' 27 5 = pid :=
  (extract_append_high (a := 10) (pid ++ mode ++ rd ++ avg ++ exc) ideal 27 5 (by decide)).trans <|
    (extract_append_high (a := 8) (pid ++ mode ++ rd ++ avg) exc 5 5 (by decide)).trans <|
    (extract_append_high (a := 7) (pid ++ mode ++ rd) avg 3 5 (by decide)).trans <|
    (extract_append_high (a := 6) (pid ++ mode) rd 2 5 (by decide)).trans <|
    (extract_append_high (a := 5) (pid) mode 1 5 (by decide)).trans <|
    (extract_self pid)
@[simp] theorem diodeWord_mode : (diodeWord pid mode rd avg exc ideal).extractLsb' 26 1 = mode :=
  (extract_append_high (a := 10) (pid ++ mode ++ rd ++ avg ++ exc) ideal 26 1 (by decide)).trans <|
    (extract_append_high (a := 8) (pid ++ mode ++ rd ++ avg) exc 4 1 (by decide)).trans <|
    (extract_append_high (a := 7) (pid ++ mode ++ rd) avg 2 1 (by decide)).trans <|
    (extract_append_high (a := 6) (pid ++ mode) rd 1 1 (by decide)).trans <|
    (extract_append_low (a := 5) (pid) mode 0 1 (by decide)).trans <|
    (extract_self mode)
@[simp] theorem diodeWord_rd : (diodeWord pid mode rd avg exc ideal).extractLsb' 25 1 = rd :=
  (extract_append_high (a := 10) (pid ++ mode ++ rd ++ avg ++ exc) ideal 25 1 (by decide)).trans <|
    (extract_append_high (a := 8) (pid ++ mode ++ rd ++ avg) exc 3 1 (by decide)).trans <|
    (extract_append_high (a := 7) (pid ++ mode ++ rd) avg 1 1 (by decide)).trans <|
    (extract_append_low (a := 6) (pid ++ mode) rd 0 1 (by decide)).trans <|
    (extract_self rd)
@[simp] theorem diodeWord_avg : (diodeWord pid mode rd avg exc ideal).extractLsb' 24 1 = avg :=
  (extract_append_high (a := 10) (pid ++ mode ++ rd ++ avg ++ exc) ideal 24 1 (by decide)).trans <|
    (extract_append_high (a := 8) (pid ++ mode ++ rd ++ avg) exc 2 1 (by decide)).trans <|
    (extract_append_low (a := 7) (pid ++ mode ++ rd) avg 0 1 (by decide)).trans <|
    (extract_self avg)
@[simp] theorem diodeWord_exc : (diodeWord pid mode rd avg exc ideal).extractLsb' 22 2 = exc :=
  (extract_append_high (a := 10) (pid ++ mode ++ rd ++ avg ++ exc) ideal 22 2 (by decide)).trans <|
    (extract_append_low (a := 8) (pid ++ mode ++ rd ++ avg) exc 0 2 (by decide)).trans <|
    (extract_self exc)
@[simp] theorem diodeWord_ideal : (diodeWord pid mode rd avg exc ideal).extractLsb' 0 22 = ideal :=
  (extract_append_low (a := 10) (pid ++ mode ++ rd ++ avg ++ exc) ideal 0 22 (by decide)).trans <|
    (extract_self ideal)

end DiodeWord

section ResWord
variable (status : Byte) (value : BitVec 24)

@[simp] theorem resWord_status : (resWord status value).extractLsb' 24 8 = status :=
  (extract_append_high (a := 8) (status) value 24 8 (by decide)).trans <|
    (extract_self status)
@[simp] theorem resWord_value : (resWord status value).extractLsb' 0 24 = value :=
  (extract_append_low (a := 8) (status) value 0 24 (by decide)).trans <|
    (extract_self value)

end ResWord

end Sys2Proof
end

