-- ==== Sys2Proof/Laws/Memory.lean ====
section
/-! SUPPORT. The laws of the remote register space: a read after a write, other addresses, and that every write keeps the
canonical form. -/

namespace Sys2Proof.Machine

open Sys2Proof

@[simp] theorem Memory.read_nil (a : Nat) : Memory.read [] a = none := rfl

@[simp] theorem Memory.read_write_same (m : Memory) (a : Nat) (v : Byte) : (m.write a v).read a = some v := by
  induction m with
  | nil => simp [Memory.write, Memory.read]
  | cons c rest ih =>
    unfold Memory.write
    split
    · simp [Memory.read]
    · split
      · simp [Memory.read]
      · rename_i _ h
        simp [Memory.read, h, ih]

theorem Memory.read_write_other (m : Memory) {a b : Nat} (v : Byte) (h : b ≠ a) : (m.write a v).read b = m.read b := by
  induction m with
  | nil => simp [Memory.write, Memory.read, h]
  | cons c rest ih =>
    unfold Memory.write
    split
    · simp [Memory.read, h]
    · split
      · rename_i _ e
        have : b ≠ c.1 := e ▸ h
        simp [Memory.read, h, this]
      · simp only [Memory.read, ih]

/-- Every listed address is at or above the first listed one. -/
theorem Memory.wf_cons {c : Host.Cell} {m : Memory} :
    Memory.wf (c :: m) = true ↔ Memory.wf m = true ∧ ∀ d ∈ m.head?, c.1 < d.1 := by
  cases m with
  | nil => simp [Memory.wf]
  | cons d rest => simp [Memory.wf, and_comm]

theorem Memory.head?_write (m : Memory) (a : Nat) (v : Byte) :
    ∀ d ∈ (m.write a v).head?, d.1 = a ∨ ∃ e ∈ m.head?, e.1 = d.1 := by
  cases m with
  | nil => simp [Memory.write]
  | cons c rest =>
    unfold Memory.write
    split
    · simp
    · split <;> simp

/-- A write keeps the canonical form. -/
theorem Memory.write_wf {m : Memory} (a : Nat) (v : Byte) (h : m.wf = true) : (m.write a v).wf = true := by
  induction m with
  | nil => simp [Memory.write, Memory.wf]
  | cons c rest ih =>
    obtain ⟨h1, h2⟩ := Memory.wf_cons.mp h
    unfold Memory.write
    split
    · rename_i hlt
      exact Memory.wf_cons.mpr ⟨h, by simpa using hlt⟩
    · split
      · rename_i _ e
        subst e
        exact Memory.wf_cons.mpr ⟨h1, h2⟩
      · rename_i hge hne
        refine Memory.wf_cons.mpr ⟨ih h1, fun d hd => ?_⟩
        rcases Memory.head?_write rest a v d hd with e | ⟨e, he, hed⟩
        · omega
        · have := h2 e he
          omega

theorem Memory.writeBytes_wf {m : Memory} (a : Nat) (l : List Byte) (h : m.wf = true) :
    (m.writeBytes a l).wf = true := by
  induction l generalizing m a with
  | nil => exact h
  | cons v vs ih => exact ih (a + 1) (Memory.write_wf a v h)

/-- A write of consecutive bytes leaves every other address alone. -/
theorem Memory.read_writeBytes_other (m : Memory) (a b : Nat) (l : List Byte) (h : b < a ∨ a + l.length ≤ b) :
    (m.writeBytes a l).read b = m.read b := by
  induction l generalizing m a with
  | nil => rfl
  | cons v vs ih =>
    simp only [List.length_cons] at h
    rw [Memory.writeBytes, ih _ _ (by omega), Memory.read_write_other _ _ (by omega)]

/-- A write of consecutive bytes is read back, byte by byte. -/
theorem Memory.read_writeBytes_same (m : Memory) (a k : Nat) (l : List Byte) (h : k < l.length) :
    (m.writeBytes a l).read (a + k) = l[k]? := by
  induction l generalizing m a k with
  | nil => simp at h
  | cons v vs ih =>
    cases k with
    | zero =>
      rw [Memory.writeBytes, Memory.read_writeBytes_other _ _ _ _ (by omega)]
      simp
    | succ k =>
      have := ih (m.write a v) (a + 1) k (by simpa using h)
      rw [Memory.writeBytes, show a + (k + 1) = a + 1 + k by omega, this]
      simp

theorem Remote.reset_wf : Remote.reset.regs.wf = true := rfl

end Sys2Proof.Machine
end

