-- ==== Sys2Proof/Laws/State.lean ====
section
/-! SUPPORT. One lemma per field per update of the state, so that no proof unfolds a record update. -/

namespace Sys2Proof.Machine

open Sys2Proof

@[simp] theorem respond_par (r : Response) (s : State) : (respond r s).par = s.par := rfl
@[simp] theorem respond_blk (r : Response) (s : State) : (respond r s).blk = s.blk := rfl
@[simp] theorem respond_resps (r : Response) (s : State) : (respond r s).resps = s.resps ++ [r] := rfl
@[simp] theorem respond_inputs (r : Response) (s : State) : (respond r s).inputs = s.inputs := rfl
@[simp] theorem respond_remote (r : Response) (s : State) : (respond r s).remote = s.remote := rfl

@[simp] theorem resetInput_par (s : State) : (resetInput s).par = s.par := rfl
@[simp] theorem resetInput_blk (s : State) : (resetInput s).blk = Block.reset := rfl
@[simp] theorem resetInput_resps (s : State) : (resetInput s).resps = s.resps := rfl
@[simp] theorem resetInput_inputs (s : State) : (resetInput s).inputs = s.inputs := rfl
@[simp] theorem resetInput_remote (s : State) : (resetInput s).remote = s.remote := rfl

@[simp] theorem popInput_par (s : State) : (popInput s).par = s.par := rfl
@[simp] theorem popInput_blk (s : State) : (popInput s).blk = s.blk := rfl
@[simp] theorem popInput_resps (s : State) : (popInput s).resps = s.resps := rfl
@[simp] theorem popInput_inputs (s : State) : (popInput s).inputs = s.inputs.tail := rfl
@[simp] theorem popInput_remote (s : State) : (popInput s).remote = s.remote := rfl

@[simp] theorem pushInput_par (x : Input) (s : State) : (pushInput x s).par = s.par := rfl
@[simp] theorem pushInput_blk (x : Input) (s : State) : (pushInput x s).blk = s.blk := rfl
@[simp] theorem pushInput_resps (x : Input) (s : State) : (pushInput x s).resps = s.resps := rfl
@[simp] theorem pushInput_inputs (x : Input) (s : State) : (pushInput x s).inputs = x :: s.inputs := rfl
@[simp] theorem pushInput_remote (x : Input) (s : State) : (pushInput x s).remote = s.remote := rfl

theorem popInput_pushInput (x : Input) (s : State) : popInput (pushInput x s) = s := rfl

@[simp] theorem Block.reset_wbits : Block.reset.wbits = [] := rfl
@[simp] theorem Block.reset_rbytes : Block.reset.rbytes = [] := rfl
@[simp] theorem Block.reset_rpos : Block.reset.rpos = 0 := rfl

/-- Two responses appended to one sequence are the same sequence only if they are the same response. -/
theorem resps_append_inj {l : List Response} {r r' : Response} : l ++ [r] = l ++ [r'] ↔ r = r' := by simp

end Sys2Proof.Machine
end

