-- ==== Sys2Proof/Laws/Ops.lean ====
section
/-! SUPPORT. One lemma per shared operation that says everything it can do. -/

namespace Sys2Proof.Machine

open Sys2Proof

/-- An error only adds its response. -/
theorem raise_eq (e : ErrCode) (s : State) : raise e s = .next (respond (.err e) s) := rfl

/-- A command that does not touch the block answers its response and nothing else. -/
theorem answer_cases {r : Except ErrCode Payload} {s t : State} (h : answer r s = .next t) :
    (∃ p, r = .ok p ∧ t = respond (.ok p) s) ∨ (∃ e, r = .error e ∧ t = respond (.err e) s) := by
  cases r with
  | ok p => exact .inl ⟨p, rfl, by simpa [answer] using h.symm⟩
  | error e => exact .inr ⟨e, rfl, by simpa [answer, raise] using h.symm⟩

/-- A command on the block answers `Ok` and the next block state, or an error and the same state. -/
theorem complete_cases {r : Except ErrCode (Payload × Block)} {s t : State} (h : complete r s = .next t) :
    (∃ p b, r = .ok (p, b) ∧ t = respond (.ok p) { s with blk := b }) ∨
      (∃ e, r = .error e ∧ t = respond (.err e) s) := by
  cases r with
  | ok pb => exact .inl ⟨pb.1, pb.2, rfl, by simpa [complete] using h.symm⟩
  | error e => exact .inr ⟨e, rfl, by simpa [complete, raise] using h.symm⟩

@[simp] theorem answer_ok (p : Payload) (s : State) : answer (.ok p) s = .next (respond (.ok p) s) := rfl
@[simp] theorem answer_error (e : ErrCode) (s : State) : answer (.error e) s = .next (respond (.err e) s) := rfl
@[simp] theorem complete_ok (p : Payload) (b : Block) (s : State) :
    complete (.ok (p, b)) s = .next (respond (.ok p) { s with blk := b }) := rfl
@[simp] theorem complete_error (e : ErrCode) (s : State) : complete (.error e) s = .next (respond (.err e) s) := rfl

/-- The packer takes the bits exactly when they fit (R101). -/
theorem packBits_cases {cap w v : Nat} {b : Block} {r : Except ErrCode Block} (h : packBits cap b w v = r) :
    (cap < b.wbits.length + w ∧ r = .error .overflow) ∨
      (b.wbits.length + w ≤ cap ∧ r = .ok { b with wbits := b.wbits ++ bitsOf w v }) := by
  subst h
  unfold packBits
  split
  · exact .inl ⟨by omega, rfl⟩
  · exact .inr ⟨by omega, rfl⟩

/-- The unpacker gives the bits exactly when there are enough (R106). -/
theorem unpackBits_cases {w : Nat} {b : Block} {r : Except ErrCode (Nat × Block)} (h : unpackBits b w = r) :
    (8 * b.rbytes.length < b.rpos + w ∧ r = .error .underrun) ∨
      (b.rpos + w ≤ 8 * b.rbytes.length ∧ r = .ok (natOf ((unread b).take w), { b with rpos := b.rpos + w })) := by
  subst h
  unfold unpackBits
  split
  · exact .inl ⟨by omega, rfl⟩
  · exact .inr ⟨by omega, rfl⟩

/-- The unpacker takes the bytes exactly when they fit (R105). -/
theorem loadBytes_cases {cap : Nat} {b : Block} {data : List Byte} {r : Except ErrCode Block}
    (h : loadBytes cap b data = r) :
    (cap < 8 * data.length ∧ r = .error .overflow) ∨
      (8 * data.length ≤ cap ∧ r = .ok { b with rbytes := data, rpos := 0 }) := by
  subst h
  unfold loadBytes
  split
  · exact .inl ⟨by omega, rfl⟩
  · exact .inr ⟨by omega, rfl⟩

/-- The aligned packer is a whole number of bytes, the fewest that hold its bits (R103). -/
theorem alignBits_length (m : PadMode) (w : Bits) : (alignBits m w).length = 8 * ((w.length + 7) / 8) := by
  by_cases h : w.length % 8 = 0
  · simp only [alignBits, h, if_true]
    omega
  · cases m <;> simp [alignBits, h] <;> omega

/-- Alignment keeps a capacity that is a multiple of 8 (R103). -/
theorem alignBits_length_le (m : PadMode) (w : Bits) {cap : Nat} (hc : cap % 8 = 0) (h : w.length ≤ cap) :
    (alignBits m w).length ≤ cap := by
  rw [alignBits_length]
  omega

/-- Aligned bits stay as they are (R103). -/
theorem alignBits_of_aligned (m : PadMode) {w : Bits} (h : w.length % 8 = 0) : alignBits m w = w := by
  simp [alignBits, h]

theorem checkChannel_cases {c : BitVec 5} {r : Except ErrCode Unit} (h : checkChannel c = r) :
    (validCh c = true ∧ r = .ok ()) ∨ (validCh c = false ∧ r = .error .channel) := by
  subst h
  unfold checkChannel
  split
  · exact .inl ⟨‹_›, rfl⟩
  · rename_i h
    exact .inr ⟨by simpa using h, rfl⟩

theorem checkWidth_cases {w : BitVec 7} {r : Except ErrCode Unit} (h : checkWidth w = r) :
    ((1 ≤ w.toNat ∧ w.toNat ≤ 64) ∧ r = .ok ()) ∨ (¬ (1 ≤ w.toNat ∧ w.toNat ≤ 64) ∧ r = .error .width) := by
  subst h
  unfold checkWidth Config.wmax
  split
  · exact .inl ⟨‹_›, rfl⟩
  · exact .inr ⟨‹_›, rfl⟩

theorem checkFormat_cases {w n : Nat} {r : Except ErrCode Unit} (h : checkFormat w n = r) :
    ((1 ≤ w ∧ w ≤ 64 ∧ n ≤ w) ∧ r = .ok ()) ∨ (¬ (1 ≤ w ∧ w ≤ 64 ∧ n ≤ w) ∧ r = .error .fxFormat) := by
  subst h
  unfold checkFormat formatOk
  split
  · refine .inl ⟨?_, rfl⟩
    simp_all
  · refine .inr ⟨?_, rfl⟩
    simp_all

theorem checkColdJunction_cases {cj : BitVec 5} {r : Except ErrCode Unit} (h : checkColdJunction cj = r) :
    (cj.toNat ≤ 20 ∧ r = .ok ()) ∨ (20 < cj.toNat ∧ r = .error .field) := by
  subst h
  unfold checkColdJunction
  split
  · exact .inl ⟨‹_›, rfl⟩
  · exact .inr ⟨by omega, rfl⟩

/-- The packed fields are as long as their widths together (R150, R153). -/
theorem packFields_length (fs : List Field) : (packFields fs).length = (fs.map Prod.fst).sum := by
  induction fs with
  | nil => rfl
  | cons f fs ih => simp [packFields, ih]

/-- The bits of the thermocouple layout's word are its fields' bits in order (R69, R150). -/
theorem fieldBits_tcWord (pid cj : BitVec 5) (mode : BitVec 1) (exc : BitVec 3) (rsv : BitVec 6) (caddr : BitVec 12) :
    fieldBits (tcWord pid cj mode exc rsv caddr) = fieldBits pid ++ (fieldBits cj ++ (fieldBits mode ++ (fieldBits exc
      ++ (fieldBits rsv ++ fieldBits caddr)))) := by
  refine (fieldBits_append (pid ++ cj ++ mode ++ exc ++ rsv) caddr).trans ?_
  rw [fieldBits_append, fieldBits_append, fieldBits_append, fieldBits_append]
  simp only [List.append_assoc]

theorem fieldBits_rsenseWord (pid : BitVec 5) (rval : BitVec 27) :
    fieldBits (rsenseWord pid rval) = fieldBits pid ++ fieldBits rval := fieldBits_append pid rval

theorem fieldBits_diodeWord (pid : BitVec 5) (mode rd avg : BitVec 1) (exc : BitVec 2) (ideal : BitVec 22) :
    fieldBits (diodeWord pid mode rd avg exc ideal) = fieldBits pid ++ (fieldBits mode ++ (fieldBits rd ++ (fieldBits avg
      ++ (fieldBits exc ++ fieldBits ideal)))) := by
  refine (fieldBits_append (pid ++ mode ++ rd ++ avg ++ exc) ideal).trans ?_
  rw [fieldBits_append, fieldBits_append, fieldBits_append, fieldBits_append]
  simp only [List.append_assoc]

/-- A packed list of fields whose bits are a word's bits assembles to that word (R150, R153). -/
theorem assembleWord_of_bits {fs : List Field} {w : Word} (h : packFields fs = fieldBits w) :
    assembleWord fs = .ok w := by simp [assembleWord, h]

/-- The layouts of R69 total 32 bits, so the payload-width check never fires (R153). -/
theorem assembleWord_tcFields (p : Params) (tc : BitVec 3) (cj : BitVec 5) (mode : BitVec 1) (exc : BitVec 3)
    (caddr : BitVec 12) : assembleWord (tcFields p tc cj mode exc caddr) =
      .ok (tcWord (tcId p.probeId tc) cj mode exc 0 caddr) := by
  apply assembleWord_of_bits
  rw [fieldBits_tcWord]
  simp [packFields, tcFields, fieldBits]

theorem assembleWord_rsenseFields (p : Params) (rv : Nat) :
    assembleWord (rsenseFields p rv) = .ok (rsenseWord p.probeId.rsense (BitVec.ofNat 27 rv)) := by
  apply assembleWord_of_bits
  rw [fieldBits_rsenseWord]
  simp only [packFields, rsenseFields, fieldBits, BitVec.toNat_ofNat, bitsOf_mod, List.append_nil]

theorem assembleWord_diodeFields (p : Params) (mode rd avg : BitVec 1) (exc : BitVec 2) (id : Nat) :
    assembleWord (diodeFields p mode rd avg exc id) =
      .ok (diodeWord p.probeId.diode mode rd avg exc (BitVec.ofNat 22 id)) := by
  apply assembleWord_of_bits
  rw [fieldBits_diodeWord]
  simp only [packFields, diodeFields, fieldBits, BitVec.toNat_ofNat, bitsOf_mod, List.append_nil]

end Sys2Proof.Machine
end

