-- ==== Sys2Proof/Laws/PerInstr.lean ====
section
/-! SUPPORT. The family RoundTrip of LAWS.json: for each row of the opcode table, the decoder gives the encoded
instruction back. -/

namespace Sys2Proof.Laws.RoundTrip

open Sys2Proof

/-- The decoder of an instance, at the instruction's port, reads the encoder's bits as that instruction. -/
def Statement (i : Instr) : Prop :=
  ∀ p : Params, p.ok = true → i.wf p = true → decode p i.port (encode p i) = .ok i

/-- A request: its code is legal and its operands are read to the end (R60). -/
theorem of_request {p : Params} {i : Instr} {code : Nat} {b : Bits} (hp : i.port = .cmd)
    (he : encode p i = codeBits code ++ b) (hc : code < 256 ∧ isCommandCode code = true)
    (ho : takeOperands p.floatFmt code b = some (i, [])) : decode p i.port (encode p i) = .ok i := by
  rw [hp, he]
  exact decodeCmd_of_operands _ _ _ _ hc.1 hc.2 ho

/-- A configuration word (R69, R71). -/
theorem of_cfgWord {p : Params} {i : Instr} {w : Word} (hp : i.port = .cfgw) (he : encode p i = fieldBits w)
    (hr : cfgWordRow p.probeId w = .ok i) : decode p i.port (encode p i) = .ok i := by
  rw [hp, he]
  simpa [decode] using hr

/-- A thermocouple word of type index `t` (R69, R71). -/
theorem cfgWordRow_tcWord {p : ProbeId} (h : p.ok = true) (t : BitVec 3) (cj : BitVec 5) (mode : BitVec 1)
    (exc : BitVec 3) (rsv : BitVec 6) (caddr : BitVec 12) :
    cfgWordRow p (tcWord (tcId p t) cj mode exc rsv caddr) = .ok (cfgwTc t cj mode exc rsv caddr) := by
  simp [cfgWordRow, classify_tcId h]

/-- A result word (R74, R75). -/
theorem of_resWord {p : Params} {i : Instr} {w : Word} (hp : i.port = .resw) (he : encode p i = fieldBits w)
    (hr : resWordRow w = .ok i) : decode p i.port (encode p i) = .ok i := by
  rw [hp, he]
  simpa [decode] using hr

theorem bsReset : Statement .bsReset := by
  intro p _ _
  exact of_request (b := []) (code := 0x01) rfl (by simp [encode]) (by decide) rfl

theorem bsWrite (v : BitVec 64) (w : BitVec 7) : Statement (.bsWrite v w) := by
  intro p _ _
  exact of_request rfl rfl (by decide) (by simp [takeOperands])

theorem bsAlign : Statement .bsAlign := by
  intro p _ _
  exact of_request (b := []) (code := 0x03) rfl (by simp [encode]) (by decide) rfl

theorem bsTake : Statement .bsTake := by
  intro p _ _
  exact of_request (b := []) (code := 0x04) rfl (by simp [encode]) (by decide) rfl

theorem bsLoad (data : List Byte) : Statement (.bsLoad data) := by
  intro p _ hw
  refine of_request rfl rfl (by decide) ?_
  have hl : data.length < 256 := by simpa [Instr.wf, countOk] using hw
  simp [takeOperands, takeField_bitsOf, Nat.mod_eq_of_lt hl]

theorem bsRead (w : BitVec 7) : Statement (.bsRead w) := by
  intro p _ _
  exact of_request rfl rfl (by decide) (by simp [takeOperands])

theorem bsStat : Statement .bsStat := by
  intro p _ _
  exact of_request (b := []) (code := 0x07) rfl (by simp [encode]) (by decide) rfl

theorem fxEncode (x : FloatOp) (w : BitVec 7) (n : BitVec 7) (s : BitVec 1) : Statement (.fxEncode x w n s) := by
  intro p _ hw
  refine of_request rfl rfl (by decide) ?_
  have hf : p.floatFmt = x.fmt := (by simpa [Instr.wf, floatOk] using hw : x.fmt = p.floatFmt).symm
  simp [takeOperands, hf]

theorem fxDecode (bits : BitVec 64) (w : BitVec 7) (n : BitVec 7) (s : BitVec 1) : Statement (.fxDecode bits w n s) := by
  intro p _ _
  exact of_request rfl rfl (by decide) (by simp [takeOperands])

theorem fxDecode24 (b0 b1 b2 : Byte) : Statement (.fxDecode24 b0 b1 b2) := by
  intro p _ _
  exact of_request rfl rfl (by decide) (by simp [takeOperands])

theorem chStartAddr (ch : BitVec 5) : Statement (.chStartAddr ch) := by
  intro p _ _
  exact of_request rfl rfl (by decide) (by simp [takeOperands])

theorem chResultAddr (ch : BitVec 5) : Statement (.chResultAddr ch) := by
  intro p _ _
  exact of_request rfl rfl (by decide) (by simp [takeOperands])

theorem chMask (ch : BitVec 5) : Statement (.chMask ch) := by
  intro p _ _
  exact of_request rfl rfl (by decide) (by simp [takeOperands])

theorem chMaskSet (chs : List (BitVec 5)) : Statement (.chMaskSet chs) := by
  intro p _ hw
  refine of_request rfl rfl (by decide) ?_
  have hl : chs.length < 256 := by simpa [Instr.wf, countOk] using hw
  simp [takeOperands, takeField_bitsOf, Nat.mod_eq_of_lt hl]

theorem cfgTc (ch : BitVec 5) (tc : BitVec 3) (cj : BitVec 5) (mode : BitVec 1) (exc : BitVec 3) (caddr : BitVec 12) : Statement (.cfgTc ch tc cj mode exc caddr) := by
  intro p _ _
  exact of_request rfl rfl (by decide) (by simp [takeOperands])

theorem cfgRsense (ch : BitVec 5) (r : FloatOp) : Statement (.cfgRsense ch r) := by
  intro p _ hw
  refine of_request rfl rfl (by decide) ?_
  have hf : p.floatFmt = r.fmt := (by simpa [Instr.wf, floatOk] using hw : r.fmt = p.floatFmt).symm
  simp [takeOperands, hf]

theorem cfgDiode (ch : BitVec 5) (mode rd avg : BitVec 1) (exc : BitVec 2) (hasEta : BitVec 1) (eta : FloatOp) : Statement (.cfgDiode ch mode rd avg exc hasEta eta) := by
  intro p _ hw
  refine of_request rfl rfl (by decide) ?_
  have hf : p.floatFmt = eta.fmt := (by simpa [Instr.wf, floatOk] using hw : eta.fmt = p.floatFmt).symm
  simp [takeOperands, hf]

theorem cfgUnsup (ch : BitVec 5) (fam : BitVec 2) : Statement (.cfgUnsup ch fam) := by
  intro p _ _
  exact of_request rfl rfl (by decide) (by simp [takeOperands])

theorem cfgDecode (word : Word) : Statement (.cfgDecode word) := by
  intro p _ _
  exact of_request rfl rfl (by decide) (by simp [takeOperands])

theorem cfgCheck (word : Word) : Statement (.cfgCheck word) := by
  intro p _ _
  exact of_request rfl rfl (by decide) (by simp [takeOperands])

theorem cfgReadReq (ch : BitVec 5) : Statement (.cfgReadReq ch) := by
  intro p _ _
  exact of_request rfl rfl (by decide) (by simp [takeOperands])

theorem resDecode (b0 b1 b2 b3 : Byte) : Statement (.resDecode b0 b1 b2 b3) := by
  intro p _ _
  exact of_request rfl rfl (by decide) (by simp [takeOperands])

theorem resReadReq (ch : BitVec 5) : Statement (.resReadReq ch) := by
  intro p _ _
  exact of_request rfl rfl (by decide) (by simp [takeOperands])

theorem cfgwTcJ (cj : BitVec 5) (mode : BitVec 1) (exc : BitVec 3) (rsv : BitVec 6) (caddr : BitVec 12) : Statement (.cfgwTcJ cj mode exc rsv caddr) := by
  intro p hp _
  exact of_cfgWord rfl rfl (cfgWordRow_tcWord (Params.ok_probeId hp) 0 cj mode exc rsv caddr)

theorem cfgwTcK (cj : BitVec 5) (mode : BitVec 1) (exc : BitVec 3) (rsv : BitVec 6) (caddr : BitVec 12) : Statement (.cfgwTcK cj mode exc rsv caddr) := by
  intro p hp _
  exact of_cfgWord rfl rfl (cfgWordRow_tcWord (Params.ok_probeId hp) 1 cj mode exc rsv caddr)

theorem cfgwTcE (cj : BitVec 5) (mode : BitVec 1) (exc : BitVec 3) (rsv : BitVec 6) (caddr : BitVec 12) : Statement (.cfgwTcE cj mode exc rsv caddr) := by
  intro p hp _
  exact of_cfgWord rfl rfl (cfgWordRow_tcWord (Params.ok_probeId hp) 2 cj mode exc rsv caddr)

theorem cfgwTcN (cj : BitVec 5) (mode : BitVec 1) (exc : BitVec 3) (rsv : BitVec 6) (caddr : BitVec 12) : Statement (.cfgwTcN cj mode exc rsv caddr) := by
  intro p hp _
  exact of_cfgWord rfl rfl (cfgWordRow_tcWord (Params.ok_probeId hp) 3 cj mode exc rsv caddr)

theorem cfgwTcR (cj : BitVec 5) (mode : BitVec 1) (exc : BitVec 3) (rsv : BitVec 6) (caddr : BitVec 12) : Statement (.cfgwTcR cj mode exc rsv caddr) := by
  intro p hp _
  exact of_cfgWord rfl rfl (cfgWordRow_tcWord (Params.ok_probeId hp) 4 cj mode exc rsv caddr)

theorem cfgwTcS (cj : BitVec 5) (mode : BitVec 1) (exc : BitVec 3) (rsv : BitVec 6) (caddr : BitVec 12) : Statement (.cfgwTcS cj mode exc rsv caddr) := by
  intro p hp _
  exact of_cfgWord rfl rfl (cfgWordRow_tcWord (Params.ok_probeId hp) 5 cj mode exc rsv caddr)

theorem cfgwTcT (cj : BitVec 5) (mode : BitVec 1) (exc : BitVec 3) (rsv : BitVec 6) (caddr : BitVec 12) : Statement (.cfgwTcT cj mode exc rsv caddr) := by
  intro p hp _
  exact of_cfgWord rfl rfl (cfgWordRow_tcWord (Params.ok_probeId hp) 6 cj mode exc rsv caddr)

theorem cfgwTcB (cj : BitVec 5) (mode : BitVec 1) (exc : BitVec 3) (rsv : BitVec 6) (caddr : BitVec 12) : Statement (.cfgwTcB cj mode exc rsv caddr) := by
  intro p hp _
  exact of_cfgWord rfl rfl (cfgWordRow_tcWord (Params.ok_probeId hp) 7 cj mode exc rsv caddr)

theorem cfgwDiode (mode rd avg : BitVec 1) (exc : BitVec 2) (ideal : BitVec 22) : Statement (.cfgwDiode mode rd avg exc ideal) := by
  intro p hp _
  exact of_cfgWord rfl rfl (by simp [cfgWordRow, classify_diode (Params.ok_probeId hp)])

theorem cfgwRsense (rval : BitVec 27) : Statement (.cfgwRsense rval) := by
  intro p hp _
  exact of_cfgWord rfl rfl (by simp [cfgWordRow, classify_rsense (Params.ok_probeId hp)])

theorem cfgwUnconfigured (ignored : BitVec 27) : Statement (.cfgwUnconfigured ignored) := by
  intro p _ _
  exact of_cfgWord rfl rfl (by simp only [cfgWordRow, rsenseWord_pid, classify_zero, rsenseWord_rval])

theorem reswValid (value : BitVec 24) : Statement (.reswValid value) := by
  intro p _ _
  exact of_resWord rfl rfl (by simp [resWordRow])

theorem reswAdcOutOfRange (value : BitVec 24) : Statement (.reswAdcOutOfRange value) := by
  intro p _ _
  exact of_resWord rfl rfl (by simp [resWordRow])

theorem reswSensorUnderRange (value : BitVec 24) : Statement (.reswSensorUnderRange value) := by
  intro p _ _
  exact of_resWord rfl rfl (by simp [resWordRow])

theorem reswSensorOverRange (value : BitVec 24) : Statement (.reswSensorOverRange value) := by
  intro p _ _
  exact of_resWord rfl rfl (by simp [resWordRow])

theorem reswCjSoftFault (value : BitVec 24) : Statement (.reswCjSoftFault value) := by
  intro p _ _
  exact of_resWord rfl rfl (by simp [resWordRow])

theorem reswCjHardFault (ignored : BitVec 24) : Statement (.reswCjHardFault ignored) := by
  intro p _ _
  exact of_resWord rfl rfl (by simp [resWordRow])

theorem reswAdcHardOutOfRange (ignored : BitVec 24) : Statement (.reswAdcHardOutOfRange ignored) := by
  intro p _ _
  exact of_resWord rfl rfl (by simp [resWordRow])

theorem reswSensorHardFault (ignored : BitVec 24) : Statement (.reswSensorHardFault ignored) := by
  intro p _ _
  exact of_resWord rfl rfl (by simp [resWordRow])

theorem txnWrite (addr : Addr) (word : Word) : Statement (.txnWrite addr word) := by
  intro p _ _
  have hw : (fieldBits word).take 32 = fieldBits word := List.take_of_length_le (by simp)
  have ho : (bitsOf 8 2).drop 24 = [] := List.drop_of_length_le (by simp)
  simp [decode, Instr.port, encode, decodeTxn, List.drop_append, hw, ho]

theorem txnRead (addr : Addr) : Statement (.txnRead addr) := by
  intro p _ _
  have ha : (fieldBits addr).take 16 = fieldBits addr := List.take_of_length_le (by simp)
  simp [decode, Instr.port, encode, decodeTxn, ha]

end Sys2Proof.Laws.RoundTrip
end

