-- ==== Sys2Proof/Laws/Step.lean ====
section
/-! SUPPORT. What a step can do, and what an instruction can change, said once. -/

namespace Sys2Proof.Machine

open Sys2Proof

/-- Everything a step that answers a next state can do. -/
theorem step_cases {s t : State} (h : step s = .next t) :
    s.par.ok = true ∧
      ((s.inputs = [] ∧ t = s) ∨
        (∃ rest, s.inputs = .reset :: rest ∧ t = resetInput (popInput s)) ∨
        (∃ port b rest i, s.inputs = .bits port b :: rest ∧ decode s.par port b = .ok i ∧
          exec i (popInput s) = .next t) ∨
        (∃ port b rest e, s.inputs = .bits port b :: rest ∧
          (e = .illegalCmd ∨ e = .unsupported ∨ e = .malformedStatus) ∧ t = respond (.err e) (popInput s))) := by
  unfold step at h
  split at h
  · rename_i hp
    refine ⟨hp, ?_⟩
    split at h
    · rename_i hi
      exact .inl ⟨hi, by simpa using h.symm⟩
    · rename_i x rest hi
      unfold performInput at h
      split at h
      · exact .inr (.inl ⟨rest, hi, by simpa using h.symm⟩)
      · rename_i port b
        split at h
        · rename_i i hd
          exact .inr (.inr (.inl ⟨port, b, rest, i, hi, by simpa using hd, h⟩))
        · rename_i r hd
          refine .inr (.inr (.inr ?_))
          cases r <;> simp only [onReject, raise, Host.Outcome.next.injEq, reduceCtorEq] at h
          · exact ⟨port, b, rest, .illegalCmd, hi, .inl rfl, h.symm⟩
          · exact ⟨port, b, rest, .unsupported, hi, .inr (.inl rfl), h.symm⟩
          · exact ⟨port, b, rest, .malformedStatus, hi, .inr (.inr rfl), h.symm⟩
  · simp at h

end Sys2Proof.Machine
end

