-- ==== Sys2Proof/Tests/Slice0.lean ====
section
/-! SUPPORT. The model's own tests. Expected values are from spec/95_test_vectors.md ("95") or worked by hand from the rule
named. For each statement with hypotheses a theorem `witness_<statement>` gives states and operands that meet them, at
the boundaries of the ranges they name. -/

namespace Sys2Proof.Tests

open Sys2Proof Sys2Proof.Machine

/-- A bit sequence written as digits. -/
def bin (l : List Nat) : Bits := l.map (fun n => n == 1)

/-- The reset state. -/
def zero : State := State.reset

/-- `S = (1,0,1; E8 1F 40 00; rpos = 5)`. -/
def busy : State := { State.reset with blk := ⟨bin [1, 0, 1], [0xE8, 0x1F, 0x40, 0x00], 5⟩ }

/-- A packer with `n` bits. -/
def packed (n : Nat) : State := { State.reset with blk := ⟨zeroBits n, [], 0⟩ }

/-- A packer at its capacity. -/
def full : State := packed 128

/-- A packer with the pending bits 1, 0, 1. -/
def pending (m : PadMode) : State :=
  { State.reset with par := { Params.default with padMode := m }, blk := ⟨bin [1, 0, 1], [], 0⟩ }

/-- An instance with another rounding. -/
def rounding (m : FxRound) : State := { State.reset with par := { Params.default with fxRound := m } }

/-- The state with one input presented. -/
def presented (x : Input) : State := { State.reset with inputs := [x] }

/-- The instruction answers `Ok(p)` and changes nothing else. -/
def okIs (i : Instr) (s : State) (p : Payload) : Bool :=
  match exec i s with
  | .next t => decide (t = respond (.ok p) s)
  | .fault _ => false
  | .refused _ => false

/-- The instruction answers `Err(e)` and changes nothing else. -/
def errIs (i : Instr) (s : State) (e : ErrCode) : Bool :=
  match exec i s with
  | .next t => decide (t = respond (.err e) s)
  | .fault _ => false
  | .refused _ => false

/-- The instruction answers `Ok(p)`, leaves the block state `b` and changes nothing else. -/
def blkIs (i : Instr) (s : State) (p : Payload) (b : Block) : Bool :=
  match exec i s with
  | .next t => decide (t = respond (.ok p) { s with blk := b })
  | .fault _ => false
  | .refused _ => false

theorem answersOk_of_okIs {i : Instr} {s : State} {p : Payload} (h : okIs i s p = true) : AnswersOk i s p := by
  unfold okIs at h
  split at h
  · rename_i t ht
    rw [AnswersOk, ht, of_decide_eq_true h]
  · cases h
  · cases h

/-! ### Well-formedness and parameters -/

set_option maxRecDepth 4000 in
/-- 256 bytes do not fit the 8-bit count (R65). -/
theorem test_wf_bsLoad_long :
    Instr.wf Params.default (.bsLoad (List.replicate 256 0)) = false ∧
      Instr.wf Params.default (.bsLoad (List.replicate 255 0)) = true := by decide

set_option maxRecDepth 4000 in
/-- 256 ordinals do not fit the 8-bit count (R65). -/
theorem test_wf_chMaskSet_long :
    Instr.wf Params.default (.chMaskSet (List.replicate 256 1)) = false ∧
      Instr.wf Params.default (.chMaskSet (List.replicate 255 1)) = true := by decide

/-- A binary32 operand in a binary64 instance (R64). -/
theorem test_wf_fxEncode_format :
    Instr.wf Params.default (.fxEncode (.b32 0) 27 10 0) = false := by decide

/-- A binary32 operand in a binary64 instance (R64). -/
theorem test_wf_cfgRsense_format :
    Instr.wf Params.default (.cfgRsense 1 (.b32 0)) = false := by decide

/-- A binary32 operand in a binary64 instance (R64). -/
theorem test_wf_cfgDiode_format :
    Instr.wf Params.default (.cfgDiode 1 0 0 0 0 0 (.b32 0)) = false := by decide

/-- Each check on the parameters (R5, R70, D6, D17, D18). -/
theorem test_params_ok :
    Params.default.ok = true ∧
      Params.ok { Params.default with probeId := { ProbeId.default with tcK := 1 } } = false ∧
      Params.ok { Params.default with probeId := { ProbeId.default with diode := 0 } } = false ∧
      Params.ok { Params.default with bsCapBits := 12 } = false ∧
      Params.ok { Params.default with rsenseFrac := 11 } = false ∧
      Params.ok { Params.default with idealPremaskW := 21 } = false ∧
      Params.ok { Params.default with idealPremaskW := 65 } = false := by decide

/-! ### Decoding: words written out from the encoding tables -/

/-- The request of bsReset written field by field (R60, R61). -/
theorem test_decode_bsReset :
    decode Params.default .cmd
      (bin [0, 0, 0, 0, 0, 0, 0, 1])
      = .ok (.bsReset) := by decide

/-- The request of bsWrite written field by field (R60, R61). -/
theorem test_decode_bsWrite :
    decode Params.default .cmd
      (bin [0, 0, 0, 0, 0, 0, 1, 0] ++ bitsOfBytes [0x00, 0x00, 0x00, 0x00, 0x00, 0x00, 0x02, 0x0C] ++
      bin [0, 0, 1, 0, 0, 0, 0])
      = .ok (.bsWrite 0x20C 16) := by decide

/-- The request of bsAlign written field by field (R60, R61). -/
theorem test_decode_bsAlign :
    decode Params.default .cmd
      (bin [0, 0, 0, 0, 0, 0, 1, 1])
      = .ok (.bsAlign) := by decide

/-- The request of bsTake written field by field (R60, R61). -/
theorem test_decode_bsTake :
    decode Params.default .cmd
      (bin [0, 0, 0, 0, 0, 1, 0, 0])
      = .ok (.bsTake) := by decide

/-- The request of bsLoad written field by field (R60, R61). -/
theorem test_decode_bsLoad :
    decode Params.default .cmd
      (bin [0, 0, 0, 0, 0, 1, 0, 1] ++ bin [0, 0, 0, 0, 0, 0, 1, 0] ++ bin [1, 0, 1, 0, 0, 1, 0, 1] ++
      bin [0, 0, 0, 0, 1, 1, 1, 1])
      = .ok (.bsLoad [0xA5, 0x0F]) := by decide

/-- The request of bsRead written field by field (R60, R61). -/
theorem test_decode_bsRead :
    decode Params.default .cmd
      (bin [0, 0, 0, 0, 0, 1, 1, 0] ++ bin [0, 0, 1, 1, 0, 1, 1])
      = .ok (.bsRead 27) := by decide

/-- The request of bsStat written field by field (R60, R61). -/
theorem test_decode_bsStat :
    decode Params.default .cmd
      (bin [0, 0, 0, 0, 0, 1, 1, 1])
      = .ok (.bsStat) := by decide

/-- The request of fxEncode written field by field (R60, R61). -/
theorem test_decode_fxEncode :
    decode Params.default .cmd
      (bin [0, 0, 0, 1, 0, 0, 0, 0] ++ bitsOfBytes [0x40, 0x9F, 0x40, 0x00, 0x00, 0x00, 0x00, 0x00] ++
      bin [0, 0, 1, 1, 0, 1, 1] ++ bin [0, 0, 0, 1, 0, 1, 0] ++ bin [1])
      = .ok (.fxEncode (.b64 0x409F400000000000) 27 10 1) := by decide

/-- The request of fxDecode written field by field (R60, R61). -/
theorem test_decode_fxDecode :
    decode Params.default .cmd
      (bin [0, 0, 0, 1, 0, 0, 0, 1] ++ bitsOfBytes [0x00, 0x00, 0x00, 0x00, 0x00, 0x1F, 0x40, 0x00] ++
      bin [0, 0, 1, 1, 0, 1, 1] ++ bin [0, 0, 0, 1, 0, 1, 0] ++ bin [0])
      = .ok (.fxDecode 0x1F4000 27 10 0) := by decide

/-- The request of fxDecode24 written field by field (R60, R61). -/
theorem test_decode_fxDecode24 :
    decode Params.default .cmd
      (bin [0, 0, 0, 1, 0, 0, 1, 0] ++ bin [1, 1, 1, 1, 1, 0, 1, 1] ++ bin [1, 0, 1, 1, 1, 0, 1, 1] ++
      bin [0, 1, 1, 0, 0, 1, 1, 1])
      = .ok (.fxDecode24 0xFB 0xBB 0x67) := by decide

/-- The request of chStartAddr written field by field (R60, R61). -/
theorem test_decode_chStartAddr :
    decode Params.default .cmd
      (bin [0, 0, 1, 0, 0, 0, 0, 0] ++ bin [0, 0, 1, 0, 0])
      = .ok (.chStartAddr 4) := by decide

/-- The request of chResultAddr written field by field (R60, R61). -/
theorem test_decode_chResultAddr :
    decode Params.default .cmd
      (bin [0, 0, 1, 0, 0, 0, 0, 1] ++ bin [1, 0, 1, 0, 0])
      = .ok (.chResultAddr 20) := by decide

/-- The request of chMask written field by field (R60, R61). -/
theorem test_decode_chMask :
    decode Params.default .cmd
      (bin [0, 0, 1, 0, 0, 0, 1, 0] ++ bin [0, 0, 0, 1, 1])
      = .ok (.chMask 3) := by decide

/-- The request of chMaskSet written field by field (R60, R61). -/
theorem test_decode_chMaskSet :
    decode Params.default .cmd
      (bin [0, 0, 1, 0, 0, 0, 1, 1] ++ bin [0, 0, 0, 0, 0, 0, 1, 1] ++ bin [0, 0, 0, 0, 1] ++
      bin [0, 0, 0, 1, 1] ++ bin [1, 0, 1, 0, 0])
      = .ok (.chMaskSet [1, 3, 20]) := by decide

/-- The request of cfgTc written field by field (R60, R61). -/
theorem test_decode_cfgTc :
    decode Params.default .cmd
      (bin [0, 0, 1, 1, 0, 0, 0, 0] ++ bin [0, 0, 1, 0, 0] ++ bin [0, 0, 1] ++ bin [0, 0, 0, 1, 0] ++ bin [1] ++
      bin [1, 0, 0] ++ bin [0, 0, 0, 1, 0, 0, 1, 0, 0, 0, 1, 1])
      = .ok (.cfgTc 4 1 2 1 4 0x123) := by decide

/-- The request of cfgRsense written field by field (R60, R61). -/
theorem test_decode_cfgRsense :
    decode Params.default .cmd
      (bin [0, 0, 1, 1, 0, 0, 0, 1] ++ bin [0, 0, 0, 1, 0] ++
      bitsOfBytes [0x40, 0x9F, 0x40, 0x00, 0x00, 0x00, 0x00, 0x00])
      = .ok (.cfgRsense 2 (.b64 0x409F400000000000)) := by decide

/-- The request of cfgDiode written field by field (R60, R61). -/
theorem test_decode_cfgDiode :
    decode Params.default .cmd
      (bin [0, 0, 1, 1, 0, 0, 1, 0] ++ bin [0, 0, 0, 1, 1] ++ bin [1] ++ bin [0] ++ bin [1] ++ bin [1, 0] ++
      bin [1] ++ bitsOfBytes [0x3F, 0xF4, 0x00, 0x00, 0x00, 0x00, 0x00, 0x00])
      = .ok (.cfgDiode 3 1 0 1 2 1 (.b64 0x3FF4000000000000)) := by decide

/-- The request of cfgUnsup written field by field (R60, R61). -/
theorem test_decode_cfgUnsup :
    decode Params.default .cmd
      (bin [0, 0, 1, 1, 0, 0, 1, 1] ++ bin [0, 0, 0, 0, 1] ++ bin [1, 1])
      = .ok (.cfgUnsup 1 3) := by decide

/-- The request of cfgDecode written field by field (R60, R61). -/
theorem test_decode_cfgDecode :
    decode Params.default .cmd
      (bin [0, 0, 1, 1, 0, 1, 0, 0] ++
      bin [0, 0, 0, 1, 0, 0, 0, 0, 1, 0, 1, 1, 0, 0, 0, 0, 0, 0, 0, 0, 0, 0, 0, 0, 0, 0, 0, 0, 0, 0, 0, 0])
      = .ok (.cfgDecode 0x10B00000) := by decide

/-- The request of cfgCheck written field by field (R60, R61). -/
theorem test_decode_cfgCheck :
    decode Params.default .cmd
      (bin [0, 0, 1, 1, 0, 1, 0, 1] ++
      bin [1, 1, 1, 0, 1, 0, 0, 0, 0, 0, 0, 1, 1, 1, 1, 1, 0, 1, 0, 0, 0, 0, 0, 0, 0, 0, 0, 0, 0, 0, 0, 0])
      = .ok (.cfgCheck 0xE81F4000) := by decide

/-- The request of cfgReadReq written field by field (R60, R61). -/
theorem test_decode_cfgReadReq :
    decode Params.default .cmd
      (bin [0, 0, 1, 1, 0, 1, 1, 0] ++ bin [1, 0, 1, 0, 0])
      = .ok (.cfgReadReq 20) := by decide

/-- The request of resDecode written field by field (R60, R61). -/
theorem test_decode_resDecode :
    decode Params.default .cmd
      (bin [0, 1, 0, 0, 0, 0, 0, 0] ++ bin [0, 0, 0, 0, 0, 0, 0, 1] ++ bin [1, 1, 1, 1, 1, 0, 1, 1] ++
      bin [1, 0, 1, 1, 1, 0, 1, 1] ++ bin [0, 1, 1, 0, 0, 1, 1, 1])
      = .ok (.resDecode 0x01 0xFB 0xBB 0x67) := by decide

/-- The request of resReadReq written field by field (R60, R61). -/
theorem test_decode_resReadReq :
    decode Params.default .cmd
      (bin [0, 1, 0, 0, 0, 0, 0, 1] ++ bin [0, 0, 0, 1, 1])
      = .ok (.resReadReq 3) := by decide

/-- A type J word (R69, R70). -/
theorem test_decode_cfgwTcJ :
    decode Params.default .cfgw
      (bin [0, 0, 0, 0, 1] ++ bin [1, 0, 1, 0, 0] ++ bin [1] ++ bin [1, 0, 1] ++ bin [1, 0, 0, 0, 0, 1] ++
      bin [1, 0, 1, 0, 1, 0, 1, 1, 1, 1, 0, 0])
      = .ok (.cfgwTcJ 20 1 5 0x21 0xABC) := by decide

/-- A type K word (R69, R70). -/
theorem test_decode_cfgwTcK :
    decode Params.default .cfgw
      (bin [0, 0, 0, 1, 0] ++ bin [1, 0, 1, 0, 0] ++ bin [1] ++ bin [1, 0, 1] ++ bin [1, 0, 0, 0, 0, 1] ++
      bin [1, 0, 1, 0, 1, 0, 1, 1, 1, 1, 0, 0])
      = .ok (.cfgwTcK 20 1 5 0x21 0xABC) := by decide

/-- A type E word (R69, R70). -/
theorem test_decode_cfgwTcE :
    decode Params.default .cfgw
      (bin [0, 0, 0, 1, 1] ++ bin [1, 0, 1, 0, 0] ++ bin [1] ++ bin [1, 0, 1] ++ bin [1, 0, 0, 0, 0, 1] ++
      bin [1, 0, 1, 0, 1, 0, 1, 1, 1, 1, 0, 0])
      = .ok (.cfgwTcE 20 1 5 0x21 0xABC) := by decide

/-- A type N word (R69, R70). -/
theorem test_decode_cfgwTcN :
    decode Params.default .cfgw
      (bin [0, 0, 1, 0, 0] ++ bin [1, 0, 1, 0, 0] ++ bin [1] ++ bin [1, 0, 1] ++ bin [1, 0, 0, 0, 0, 1] ++
      bin [1, 0, 1, 0, 1, 0, 1, 1, 1, 1, 0, 0])
      = .ok (.cfgwTcN 20 1 5 0x21 0xABC) := by decide

/-- A type R word (R69, R70). -/
theorem test_decode_cfgwTcR :
    decode Params.default .cfgw
      (bin [0, 0, 1, 0, 1] ++ bin [1, 0, 1, 0, 0] ++ bin [1] ++ bin [1, 0, 1] ++ bin [1, 0, 0, 0, 0, 1] ++
      bin [1, 0, 1, 0, 1, 0, 1, 1, 1, 1, 0, 0])
      = .ok (.cfgwTcR 20 1 5 0x21 0xABC) := by decide

/-- A type S word (R69, R70). -/
theorem test_decode_cfgwTcS :
    decode Params.default .cfgw
      (bin [0, 0, 1, 1, 0] ++ bin [1, 0, 1, 0, 0] ++ bin [1] ++ bin [1, 0, 1] ++ bin [1, 0, 0, 0, 0, 1] ++
      bin [1, 0, 1, 0, 1, 0, 1, 1, 1, 1, 0, 0])
      = .ok (.cfgwTcS 20 1 5 0x21 0xABC) := by decide

/-- A type T word (R69, R70). -/
theorem test_decode_cfgwTcT :
    decode Params.default .cfgw
      (bin [0, 0, 1, 1, 1] ++ bin [1, 0, 1, 0, 0] ++ bin [1] ++ bin [1, 0, 1] ++ bin [1, 0, 0, 0, 0, 1] ++
      bin [1, 0, 1, 0, 1, 0, 1, 1, 1, 1, 0, 0])
      = .ok (.cfgwTcT 20 1 5 0x21 0xABC) := by decide

/-- A type B word (R69, R70). -/
theorem test_decode_cfgwTcB :
    decode Params.default .cfgw
      (bin [0, 1, 0, 0, 0] ++ bin [1, 0, 1, 0, 0] ++ bin [1] ++ bin [1, 0, 1] ++ bin [1, 0, 0, 0, 0, 1] ++
      bin [1, 0, 1, 0, 1, 0, 1, 1, 1, 1, 0, 0])
      = .ok (.cfgwTcB 20 1 5 0x21 0xABC) := by decide

/-- A diode word (R69, R70). -/
theorem test_decode_cfgwDiode :
    decode Params.default .cfgw
      (bin [1, 1, 1, 0, 0] ++ bin [1] ++ bin [0] ++ bin [1] ++ bin [1, 0] ++
      bin [0, 1, 0, 1, 0, 0, 0, 0, 0, 0, 0, 0, 0, 0, 0, 0, 0, 0, 0, 0, 0, 1])
      = .ok (.cfgwDiode 1 0 1 2 0x140001) := by decide

/-- A sense-resistor word (R69, R70). -/
theorem test_decode_cfgwRsense :
    decode Params.default .cfgw
      (bin [1, 1, 1, 0, 1] ++
      bin [0, 0, 0, 0, 0, 0, 1, 1, 1, 1, 1, 0, 1, 0, 0, 0, 0, 0, 0, 0, 0, 0, 0, 0, 0, 0, 1])
      = .ok (.cfgwRsense 0x1F4001) := by decide

/-- An unconfigured word (R68, R71). -/
theorem test_decode_cfgwUnconfigured :
    decode Params.default .cfgw
      (bin [0, 0, 0, 0, 0] ++
      bin [1, 1, 1, 1, 1, 1, 1, 1, 1, 1, 1, 1, 1, 1, 1, 1, 1, 1, 1, 1, 1, 1, 1, 1, 1, 1, 0])
      = .ok (.cfgwUnconfigured 0x7FFFFFE) := by decide

/-- A result word (R74, R75). -/
theorem test_decode_reswValid :
    decode Params.default .resw
      (bin [0, 0, 0, 0, 0, 0, 0, 1] ++
      bin [1, 1, 1, 1, 1, 0, 1, 1, 1, 0, 1, 1, 1, 0, 1, 1, 0, 1, 1, 0, 0, 1, 1, 1])
      = .ok (.reswValid 0xFBBB67) := by decide

/-- A result word (R74, R75). -/
theorem test_decode_reswAdcOutOfRange :
    decode Params.default .resw
      (bin [0, 0, 0, 0, 0, 0, 1, 0] ++
      bin [1, 1, 1, 1, 1, 0, 1, 1, 1, 0, 1, 1, 1, 0, 1, 1, 0, 1, 1, 0, 0, 1, 1, 1])
      = .ok (.reswAdcOutOfRange 0xFBBB67) := by decide

/-- A result word (R74, R75). -/
theorem test_decode_reswSensorUnderRange :
    decode Params.default .resw
      (bin [0, 0, 0, 0, 0, 1, 0, 0] ++
      bin [1, 1, 1, 1, 1, 0, 1, 1, 1, 0, 1, 1, 1, 0, 1, 1, 0, 1, 1, 0, 0, 1, 1, 1])
      = .ok (.reswSensorUnderRange 0xFBBB67) := by decide

/-- A result word (R74, R75). -/
theorem test_decode_reswSensorOverRange :
    decode Params.default .resw
      (bin [0, 0, 0, 0, 1, 0, 0, 0] ++
      bin [1, 1, 1, 1, 1, 0, 1, 1, 1, 0, 1, 1, 1, 0, 1, 1, 0, 1, 1, 0, 0, 1, 1, 1])
      = .ok (.reswSensorOverRange 0xFBBB67) := by decide

/-- A result word (R74, R75). -/
theorem test_decode_reswCjSoftFault :
    decode Params.default .resw
      (bin [0, 0, 0, 1, 0, 0, 0, 0] ++
      bin [1, 1, 1, 1, 1, 0, 1, 1, 1, 0, 1, 1, 1, 0, 1, 1, 0, 1, 1, 0, 0, 1, 1, 1])
      = .ok (.reswCjSoftFault 0xFBBB67) := by decide

/-- A result word (R74, R75). -/
theorem test_decode_reswCjHardFault :
    decode Params.default .resw
      (bin [0, 0, 1, 0, 0, 0, 0, 0] ++
      bin [1, 1, 1, 1, 1, 0, 1, 1, 1, 0, 1, 1, 1, 0, 1, 1, 0, 1, 1, 0, 0, 1, 1, 1])
      = .ok (.reswCjHardFault 0xFBBB67) := by decide

/-- A result word (R74, R75). -/
theorem test_decode_reswAdcHardOutOfRange :
    decode Params.default .resw
      (bin [0, 1, 0, 0, 0, 0, 0, 0] ++
      bin [1, 1, 1, 1, 1, 0, 1, 1, 1, 0, 1, 1, 1, 0, 1, 1, 0, 1, 1, 0, 0, 1, 1, 1])
      = .ok (.reswAdcHardOutOfRange 0xFBBB67) := by decide

/-- A result word (R74, R75). -/
theorem test_decode_reswSensorHardFault :
    decode Params.default .resw
      (bin [1, 0, 0, 0, 0, 0, 0, 0] ++
      bin [1, 1, 1, 1, 1, 0, 1, 1, 1, 0, 1, 1, 1, 0, 1, 1, 0, 1, 1, 0, 0, 1, 1, 1])
      = .ok (.reswSensorHardFault 0xFBBB67) := by decide

/-- A write transaction (R79). -/
theorem test_decode_txnWrite :
    decode Params.default .txn
      (bin [0, 0, 0, 0, 0, 0, 1, 0] ++ bin [0, 0, 0, 0, 0, 0, 1, 0, 0, 0, 0, 0, 1, 1, 0, 0] ++
      bin [0, 0, 0, 1, 0, 0, 0, 0, 1, 0, 1, 1, 0, 0, 0, 0, 0, 0, 0, 0, 0, 0, 0, 0, 0, 0, 0, 0, 0, 0, 0, 0])
      = .ok (.txnWrite 0x020C 0x10B00000) := by decide

/-- A read request (R80). -/
theorem test_decode_txnRead :
    decode Params.default .txn
      (bin [0, 0, 0, 0, 0, 0, 1, 1] ++ bin [0, 0, 0, 0, 0, 0, 0, 0, 0, 0, 0, 1, 1, 0, 0, 0])
      = .ok (.txnRead 0x0018) := by decide

/-- Each reason to reject (R62, R60, R71, R76, R81). -/
theorem test_decode_rejects :
    decode Params.default .cmd (bin [1, 0, 0, 1, 1, 0, 0, 1]) = .error .illegalCmd ∧
      decode Params.default .cmd (bin [0, 0, 0, 0, 0, 1, 1, 0]) = .error .requestLength ∧
      decode Params.default .cfgw (bitsOf 32 0x50000000) = .error .unsupportedWord ∧
      decode Params.default .resw (bitsOf 32 0x81000000) = .error .malformedStatus ∧
      decode Params.default .resw [] = .error .wordLength ∧
      decode Params.default .txn (bitsOf 24 0x04020C) = .error .noTransaction := by decide

/-! ### One step of each instruction -/

/-- 95 section 2.1: any state to the reset state (R100). -/
theorem test_bsReset :
    blkIs (.bsReset) busy (.unit) (⟨[], [], 0⟩) = true := by decide

/-- 95 section 2.1: masked to its width (R102). -/
theorem test_bsWrite_masks :
    blkIs (.bsWrite 0x1FF 8) zero (.unit) (⟨bin [1, 1, 1, 1, 1, 1, 1, 1], [], 0⟩) = true := by decide

set_option maxRecDepth 4000 in
/-- 95 section 2.1: the width before the capacity (R101). -/
theorem test_bsWrite_width :
    errIs (.bsWrite 0 65) full .width = true := by decide

/-- 95 section 2.1 (R103). -/
theorem test_bsAlign_leading :
    blkIs (.bsAlign) (pending .leading) (.unit) (⟨bin [0, 0, 0, 0, 0, 1, 0, 1], [], 0⟩) = true := by decide

/-- 95 section 2.1 (R103). -/
theorem test_bsAlign_trailing :
    blkIs (.bsAlign) (pending .trailing) (.unit) (⟨bin [1, 0, 1, 0, 0, 0, 0, 0], [], 0⟩) = true := by decide

/-- 95 section 2.1 (R104). -/
theorem test_bsTake_leading :
    blkIs (.bsTake) (pending .leading) (.bytes [0x05]) (⟨[], [], 0⟩) = true := by decide

/-- 95 section 2.1 (R104). -/
theorem test_bsTake_trailing :
    blkIs (.bsTake) (pending .trailing) (.bytes [0xA0]) (⟨[], [], 0⟩) = true := by decide

/-- 95 section 2.1: a load rewinds the cursor (R105). -/
theorem test_bsLoad_empty :
    blkIs (.bsLoad []) busy (.unit) (⟨bin [1, 0, 1], [], 0⟩) = true := by decide

set_option maxRecDepth 4000 in
/-- 95 section 2.1: 17 bytes (R105). -/
theorem test_bsLoad_overflow :
    errIs (.bsLoad (List.replicate 17 0)) busy .overflow = true := by decide

/-- 95 section 2.1: the last 27 bits (R106). -/
theorem test_bsRead :
    blkIs (.bsRead 27) busy (.value 0x1F4000) (⟨bin [1, 0, 1], [0xE8, 0x1F, 0x40, 0x00], 32⟩) = true := by decide

/-- 95 section 2.1: the width before the bits there are (R106). -/
theorem test_bsRead_width_first :
    errIs (.bsRead 0) zero .width = true := by decide

/-- 95 section 2.1 (R107). -/
theorem test_bsStat :
    okIs (.bsStat) busy (.stat 3 27) = true := by decide

/-- 95 section 2.2: toward zero (R121, R124). -/
theorem test_fxEncode_rtz :
    okIs (.fxEncode (.b64 0xC071126666666666) 24 10 1) zero (.pattern 0xFBBB67) = true := by decide

/-- 95 section 2.2: toward minus infinity (R121, R124). -/
theorem test_fxEncode_rdn :
    okIs (.fxEncode (.b64 0xC071126666666666) 24 10 1) (rounding .rdn) (.pattern 0xFBBB66) = true := by decide

/-- 95 section 2.2 (R126). -/
theorem test_fxDecode_signed :
    okIs (.fxDecode 0xFFFFFFFFFFFFFFFF 64 0 1) zero (.dyadic ⟨-1, 0⟩) = true := by decide

/-- 95 section 2.2: bits above the width are ignored (R126). -/
theorem test_fxDecode_high_bits :
    okIs (.fxDecode 0xABC123 8 4 0) zero (.dyadic ⟨35, 4⟩) = true := by decide

/-- 95 section 2.2 (R127). -/
theorem test_fxDecode24_min :
    okIs (.fxDecode24 0x80 0x00 0x00) zero (.dec24 0xFF800000 (-8388608) ⟨-8388608, 10⟩) = true := by decide

/-- 95 section 1 (R127). -/
theorem test_fxDecode24 :
    okIs (.fxDecode24 0xFB 0xBB 0x67) zero (.dec24 0xFFFBBB67 (-279705) ⟨-279705, 10⟩) = true := by decide

/-- 95 section 1 (R140). -/
theorem test_chStartAddr :
    okIs (.chStartAddr 20) zero (.addr 0x24C) = true := by decide

/-- 95 section 2.3 (R139). -/
theorem test_chStartAddr_zero :
    errIs (.chStartAddr 0) zero .channel = true := by decide

/-- 95 section 1 (R141). -/
theorem test_chResultAddr :
    okIs (.chResultAddr 20) zero (.addr 0x05C) = true := by decide

/-- 95 section 2.3 (R141). -/
theorem test_chResultAddr_21 :
    errIs (.chResultAddr 21) zero .channel = true := by decide

/-- 95 section 1 (R142). -/
theorem test_chMask :
    okIs (.chMask 20) zero (.mask 0x00080000) = true := by decide

/-- 95 section 2.3 (R142). -/
theorem test_chMask_31 :
    errIs (.chMask 31) zero .channel = true := by decide

/-- 95 section 2.3 (R143). -/
theorem test_chMaskSet :
    okIs (.chMaskSet [20, 3, 1]) zero (.mask 0x00080005) = true := by decide

/-- 95 section 2.3 (R143). -/
theorem test_chMaskSet_bad :
    errIs (.chMaskSet [1, 0, 25]) zero .channel = true := by decide

/-- 95 section 2.3 (R154). -/
theorem test_cfgTc :
    okIs (.cfgTc 5 6 20 0 7 0xFFF) zero (.build 0x3D1C0FFF [0x02, 0x02, 0x10, 0x3D, 0x1C, 0x0F, 0xFF]) = true := by decide

/-- 95 section 2.3: the channel before the cold junction (R203). -/
theorem test_cfgTc_channel_first :
    errIs (.cfgTc 21 0 25 0 0 0) zero .channel = true := by decide

/-- 95 section 2.3 (R156). -/
theorem test_cfgRsense_max :
    okIs (.cfgRsense 20 (.b64 0x40FFFFFFFC000000)) zero (.build 0xEFFFFFFF [0x02, 0x02, 0x4C, 0xEF, 0xFF, 0xFF, 0xFF]) = true := by decide

/-- 95 section 2.3 (R156). -/
theorem test_cfgRsense_negative :
    errIs (.cfgRsense 2 (.b64 0xC014000000000000)) zero .fxRange = true := by decide

/-- 95 section 2.3: 4.5 wraps to 0.5 (R158, R132). -/
theorem test_cfgDiode_wraps :
    okIs (.cfgDiode 6 0 1 0 2 1 (.b64 0x4012000000000000)) zero (.build 0xE2880000 [0x02, 0x02, 0x14, 0xE2, 0x88, 0x00, 0x00]) = true := by decide

/-- 95 section 2.3: a NaN that is not read (R158). -/
theorem test_cfgDiode_ignores_eta :
    okIs (.cfgDiode 3 0 0 0 0 0 (.b64 0x7FF8000000000000)) zero (.build 0xE0000000 [0x02, 0x02, 0x08, 0xE0, 0x00, 0x00, 0x00]) = true := by decide

/-- 95 section 2.3 (R159). -/
theorem test_cfgUnsup :
    errIs (.cfgUnsup 1 3) zero .unsupported = true := by decide

/-- 95 section 2.3 (R159). -/
theorem test_cfgUnsup_channel :
    errIs (.cfgUnsup 0 0) zero .channel = true := by decide

/-- 95 section 2.4 (R161). -/
theorem test_cfgDecode :
    okIs (.cfgDecode 0xE7540000) zero (.record (.di 1 1 1 1 0x140000 true ⟨0x140000, 20⟩)) = true := by decide

/-- 95 section 2.4 (R161). -/
theorem test_cfgDecode_unsupported :
    errIs (.cfgDecode 0x50000000) zero .unsupported = true := by decide

/-- 95 section 2.4 (R163). -/
theorem test_cfgCheck :
    okIs (.cfgCheck 0xF8000000) zero (.pid 31) = true := by decide

/-- 95 section 2.4 (R163). -/
theorem test_cfgCheck_unconfigured :
    errIs (.cfgCheck 0x07FFFFFF) zero .notConfigured = true := by decide

/-- 95 section 2.3 (R164). -/
theorem test_cfgReadReq :
    okIs (.cfgReadReq 20) zero (.request [0x03, 0x02, 0x4C]) = true := by decide

/-- 95 section 2.5 (R183). -/
theorem test_resDecode :
    okIs (.resDecode 0x04 0xFF 0xFC 0x00) zero (.outcome 2 true (-1024) (some ⟨-1024, 10⟩)) = true := by decide

/-- 95 section 2.5 (R183). -/
theorem test_resDecode_two_bits :
    errIs (.resDecode 0x81 0x00 0x00 0x00) zero .malformedStatus = true := by decide

/-- 95 section 2.5 (R185). -/
theorem test_resReadReq :
    okIs (.resReadReq 3) zero (.request [0x03, 0x00, 0x18]) = true := by decide

/-- By hand from R161: fields reported as they are (log 5). -/
theorem test_cfgwTcJ :
    okIs (.cfgwTcJ 21 0 7 63 0xFFF) zero (.record (.tc 0 21 0 7 63 0xFFF)) = true := by decide

/-- By hand from R161: fields reported as they are (log 5). -/
theorem test_cfgwTcK :
    okIs (.cfgwTcK 21 0 7 63 0xFFF) zero (.record (.tc 1 21 0 7 63 0xFFF)) = true := by decide

/-- By hand from R161: fields reported as they are (log 5). -/
theorem test_cfgwTcE :
    okIs (.cfgwTcE 21 0 7 63 0xFFF) zero (.record (.tc 2 21 0 7 63 0xFFF)) = true := by decide

/-- By hand from R161: fields reported as they are (log 5). -/
theorem test_cfgwTcN :
    okIs (.cfgwTcN 21 0 7 63 0xFFF) zero (.record (.tc 3 21 0 7 63 0xFFF)) = true := by decide

/-- By hand from R161: fields reported as they are (log 5). -/
theorem test_cfgwTcR :
    okIs (.cfgwTcR 21 0 7 63 0xFFF) zero (.record (.tc 4 21 0 7 63 0xFFF)) = true := by decide

/-- By hand from R161: fields reported as they are (log 5). -/
theorem test_cfgwTcS :
    okIs (.cfgwTcS 21 0 7 63 0xFFF) zero (.record (.tc 5 21 0 7 63 0xFFF)) = true := by decide

/-- By hand from R161: fields reported as they are (log 5). -/
theorem test_cfgwTcT :
    okIs (.cfgwTcT 21 0 7 63 0xFFF) zero (.record (.tc 6 21 0 7 63 0xFFF)) = true := by decide

/-- By hand from R161: fields reported as they are (log 5). -/
theorem test_cfgwTcB :
    okIs (.cfgwTcB 21 0 7 63 0xFFF) zero (.record (.tc 7 21 0 7 63 0xFFF)) = true := by decide

/-- 95 section 2.4, the word 0xE0000000 (log 5). -/
theorem test_cfgwDiode :
    okIs (.cfgwDiode 0 0 0 0 0) zero (.record (.di 0 0 0 0 0 false ⟨0, 20⟩)) = true := by decide

/-- 95 section 2.4, the word 0xE81F4000 (log 5). -/
theorem test_cfgwRsense :
    okIs (.cfgwRsense 0x1F4000) zero (.record (.rs 0x1F4000 ⟨2048000, 10⟩)) = true := by decide

/-- 95 section 2.4, the word 0x07FFFFFF (log 5). -/
theorem test_cfgwUnconfigured :
    errIs (.cfgwUnconfigured 0x7FFFFFF) zero .notConfigured = true := by decide

/-- 95 section 2.5, the word of these bytes (log 5). -/
theorem test_reswValid :
    okIs (.reswValid 0x800000) zero (.outcome 0 true (-8388608) (some ⟨-8388608, 10⟩)) = true := by decide

/-- 95 section 2.5, the word of these bytes (log 5). -/
theorem test_reswAdcOutOfRange :
    okIs (.reswAdcOutOfRange 0x7FFFFF) zero (.outcome 1 true (8388607) (some ⟨8388607, 10⟩)) = true := by decide

/-- 95 section 2.5, the word of these bytes (log 5). -/
theorem test_reswSensorUnderRange :
    okIs (.reswSensorUnderRange 0xFFFC00) zero (.outcome 2 true (-1024) (some ⟨-1024, 10⟩)) = true := by decide

/-- 95 section 2.5, the word of these bytes (log 5). -/
theorem test_reswSensorOverRange :
    okIs (.reswSensorOverRange 0x100000) zero (.outcome 3 true (1048576) (some ⟨1048576, 10⟩)) = true := by decide

/-- 95 section 2.5, the word of these bytes (log 5). -/
theorem test_reswCjSoftFault :
    okIs (.reswCjSoftFault 0x006400) zero (.outcome 4 true (25600) (some ⟨25600, 10⟩)) = true := by decide

/-- 95 section 2.5, the word of these bytes (log 5). -/
theorem test_reswCjHardFault :
    okIs (.reswCjHardFault 0x123456) zero (.outcome 5 false (0) none) = true := by decide

/-- 95 section 2.5, the word of these bytes (log 5). -/
theorem test_reswAdcHardOutOfRange :
    okIs (.reswAdcHardOutOfRange 0xFFFFFF) zero (.outcome 6 false (0) none) = true := by decide

/-- 95 section 2.5, the word of these bytes (log 5). -/
theorem test_reswSensorHardFault :
    okIs (.reswSensorHardFault 0x000000) zero (.outcome 7 false (0) none) = true := by decide

/-- By hand from R79: the bytes of 95 program P1 at the register of channel 4 (log 7). -/
theorem test_txnWrite :
    (match exec (.txnWrite 0x020C 0x10B00000) zero with
      | .next t => decide (t.remote.regs = [(0x20C, 0x10), (0x20D, 0xB0), (0x20E, 0x00), (0x20F, 0x00)])
      | .fault _ => false
      | .refused _ => false) = true := by decide

/-- 95 program P3: the read request of channel 4 answered with the word written (R80; log 7). -/
theorem test_txnRead_written :
    (match exec (.txnRead 0x020C) { zero with remote := ⟨[(0x20C, 0x10), (0x20D, 0xF0), (0x20E, 0), (0x20F, 0)], [], 0⟩ } with
      | .next t => decide (t.remote.answers = [[0x10, 0xF0, 0x00, 0x00]] ∧ t.remote.draws = 1)
      | .fault _ => false
      | .refused _ => false) = true := by decide

/-- A result register is never written (R33; log 10). -/
theorem test_txn_elsewhere :
    (match exec (.txnWrite 0x0010 0) zero with
      | .refused .remoteAddress => true
      | _ => false) = true := by decide

/-- 95 section 2.6: code 0x99 (R62). -/
theorem test_step_illegal :
    (match step { zero with inputs := [.bits .cmd (bin [1, 0, 0, 1, 1, 0, 0, 1])] } with
      | .next t => decide (t = respond (.err .illegalCmd) zero)
      | .fault _ => false
      | .refused _ => false) = true := by decide

/-- The reset input gives no response (R230). -/
theorem test_step_reset :
    (match step { busy with inputs := [.reset, .reset] } with
      | .next t => decide (t = { busy with blk := ⟨[], [], 0⟩, inputs := [.reset] })
      | .fault _ => false
      | .refused _ => false) = true := by decide

/-- BS_STAT as the first instruction after reset (R107). -/
theorem test_step_fetch_word :
    (match step (State.withFetchWord zero 8 0x07) with
      | .next t => decide (t = respond (.ok (.stat 0 0)) zero)
      | .fault _ => false
      | .refused _ => false) = true := by decide

/-- 95 program P1, with `caddr` omitted (R66, R67). -/
theorem test_assemble :
    assemble Params.default ⟨"cfg.tc", [.num 4, .name "K", .keyNum "cj" 2, .keyNum "mode" 1, .keyNum "exc" 4]⟩
      = some (.cfgTc 4 1 2 1 4 0) ∧
      readNumber ['0', 'x', '2', '0', 'C'] = some 524 := by decide

/-! ### The hypotheses of the statements can be met -/

theorem witness_ResetAndBsResetEmptyTheBlock :
    (presented .reset).par.ok = true ∧ (presented .reset).inputs = .reset :: [] := by decide

set_option maxRecDepth 4000 in
theorem witness_EveryStepKeepsTheInvariant :
    (∃ s t : State, s.Inv ∧ step s = .next t) ∧
      (1 ≤ (1 : BitVec 7).toNat ∧ full.par.bsCapBits < full.blk.wbits.length + (1 : BitVec 7).toNat) ∧
      ((64 : BitVec 7).toNat ≤ 64 ∧ (packed 65).par.bsCapBits < (packed 65).blk.wbits.length + (64 : BitVec 7).toNat) ∧
      zero.par.bsCapBits < 8 * (List.replicate 17 (0 : Byte)).length ∧
      8 * busy.blk.rbytes.length < busy.blk.rpos + (28 : BitVec 7).toNat ∧
      8 * zero.blk.rbytes.length < zero.blk.rpos + (64 : BitVec 7).toNat := by
  refine ⟨⟨zero, zero, ⟨by decide, by unfold Block.inv; decide, by decide⟩, rfl⟩, ?_⟩
  decide

theorem witness_StepPerformsTheDecodedInstruction :
    zero.par.ok = true ∧ (presented (.bits .cmd (bitsOf 8 0x07))).inputs = .bits .cmd (bitsOf 8 0x07) :: [] ∧
      decode zero.par .cmd (bitsOf 8 0x07) = .ok .bsStat := by decide

theorem witness_StepPerformsTheEncodedInstruction :
    zero.par.ok = true ∧ Instr.wf zero.par (.chMask 20) = true ∧
      (presented (.bits (Instr.chMask 20).port (encode zero.par (.chMask 20)))).inputs =
        .bits (Instr.chMask 20).port (encode zero.par (.chMask 20)) :: [] := by decide

theorem witness_StepWithoutInputKeepsTheState :
    zero.par.ok = true ∧ zero.inputs = [] := by decide

theorem witness_NoStepChangesTheParameters :
    ∃ s t : State, step s = .next t := ⟨zero, zero, rfl⟩

theorem witness_BadProbeTablesAreRefused :
    (¬ (ProbeId.ids { ProbeId.default with tcK := 1 }).Nodup) ∧
      (0 : BitVec 5) ∈ ProbeId.ids { ProbeId.default with rsense := 0 } := by decide

theorem witness_DescribedInputsNeverStop :
    Input.described zero.par .reset ∧
      Input.described zero.par (.bits .cmd (bitsOf 8 0x99)) ∧
      Input.described zero.par (.bits .resw (bitsOf 32 0)) ∧
      Input.described zero.par (.bits .txn (encode zero.par (.txnWrite 0x200 0))) ∧
      Input.described zero.par (.bits .txn (encode zero.par (.txnRead 0x05C))) := by
  refine ⟨trivial, ?_, ?_, ?_, ?_⟩
  · rw [Input.described, show decode zero.par .cmd (bitsOf 8 0x99) = .error .illegalCmd by decide]
    trivial
  · rw [Input.described, show decode zero.par .resw (bitsOf 32 0) = .error .malformedStatus by decide]
    trivial
  · rw [Input.described,
      show decode zero.par .txn (encode zero.par (.txnWrite 0x200 0)) = .ok (.txnWrite 0x200 0) by decide]
    exact (by decide : isCfgReg 0x200 = true)
  · rw [Input.described,
      show decode zero.par .txn (encode zero.par (.txnRead 0x05C)) = .ok (.txnRead 0x05C) by decide]
    exact .inr (by decide : isResReg 0x05C = true)

set_option maxRecDepth 4000 in
theorem witness_DecodeOfEncodeIsTheInstruction :
    Params.default.ok = true ∧ Instr.wf Params.default (.bsLoad (List.replicate 255 0)) = true ∧
      Instr.wf Params.default (.cfgRsense 1 (.b64 0)) = true := by decide

theorem witness_DecodedBitsAreTheEncoding :
    decode Params.default .resw (bitsOf 32 0x01000400) = .ok (.reswValid 0x400) := by decide

theorem witness_IllegalCodesAnswerIllegalCmd :
    ∀ code ∈ [0x00, 0x08, 0x0F, 0x13, 0x1F, 0x24, 0x2F, 0x37, 0x3F, 0x42, 0xFF], code < 256 ∧
      code ∉ [0x01, 0x02, 0x03, 0x04, 0x05, 0x06, 0x07, 0x10, 0x11, 0x12, 0x20, 0x21, 0x22, 0x23, 0x30, 0x31, 0x32, 0x33,
        0x34, 0x35, 0x36, 0x40, 0x41] := by decide

set_option maxRecDepth 4000 in
theorem witness_BsWriteAppendsTheLowBits :
    (∀ n ∈ [0, 65, 127], ¬ (1 ≤ (BitVec.ofNat 7 n).toNat ∧ (BitVec.ofNat 7 n).toNat ≤ 64)) ∧
      full.par.bsCapBits < full.blk.wbits.length + (1 : BitVec 7).toNat ∧
      (packed 64).blk.wbits.length + (64 : BitVec 7).toNat ≤ (packed 64).par.bsCapBits ∧
      (packed 127).blk.wbits.length + (1 : BitVec 7).toNat ≤ (packed 127).par.bsCapBits ∧
      (0x1FF : BitVec 64).toNat % 2 ^ (8 : BitVec 7).toNat = (0xFF : BitVec 64).toNat % 2 ^ (8 : BitVec 7).toNat := by decide

set_option maxRecDepth 4000 in
theorem witness_BsAlignPadsToAByte :
    full.Inv ∧ full.blk.wbits.length % 8 = 0 ∧ (packed 127).blk.wbits.length % 8 ≠ 0 ∧
      (pending .leading).blk.wbits.length % 8 ≠ 0 ∧ (pending .leading).par.padMode = .leading ∧
      (pending .trailing).blk.wbits.length % 8 ≠ 0 ∧ (pending .trailing).par.padMode = .trailing := by
  refine ⟨⟨by decide, by unfold Block.inv; decide, by decide⟩, ?_⟩
  decide

set_option maxRecDepth 4000 in
theorem witness_BsLoadReplacesTheReader :
    zero.par.bsCapBits < 8 * (List.replicate 17 (0 : Byte)).length ∧
      8 * (List.replicate 16 (0 : Byte)).length ≤ zero.par.bsCapBits := by decide

theorem witness_BsReadReturnsTheNextBits :
    (∀ n ∈ [0, 65], ¬ (1 ≤ (BitVec.ofNat 7 n).toNat ∧ (BitVec.ofNat 7 n).toNat ≤ 64)) ∧
      8 * busy.blk.rbytes.length < busy.blk.rpos + (28 : BitVec 7).toNat ∧
      busy.blk.rpos + (27 : BitVec 7).toNat ≤ 8 * busy.blk.rbytes.length ∧
      busy.blk.rpos + (1 : BitVec 7).toNat ≤ 8 * busy.blk.rbytes.length := by decide

theorem witness_BsStatReportsTheLengths :
    busy.Inv := ⟨by decide, by unfold Block.inv; decide, by decide⟩

set_option maxRecDepth 4000 in
theorem witness_AdjacentFieldsAreOneField :
    (64 : BitVec 7).toNat = (1 : BitVec 7).toNat + (63 : BitVec 7).toNat ∧
      (packed 64).blk.wbits.length + (64 : BitVec 7).toNat ≤ (packed 64).par.bsCapBits ∧
      (27 : BitVec 7).toNat = (1 : BitVec 7).toNat + (26 : BitVec 7).toNat ∧
      busy.blk.rpos + (27 : BitVec 7).toNat ≤ 8 * busy.blk.rbytes.length := by decide

theorem witness_PackedFieldsAreReadBack :
    (pending .leading).par.ok = true ∧ (pending .trailing).par.ok = true ∧
      (([(0, 64), (1, 64)] : List (BitVec 64 × BitVec 7)).map fun f => f.2.toNat).sum = 128 ∧
      (([(5, 3), (1, 1)] : List (BitVec 64 × BitVec 7)).map fun f => f.2.toNat).sum % 8 ≠ 0 ∧
      (pending .leading).par.padMode = .leading ∧ (pending .trailing).par.padMode = .trailing := by decide

theorem witness_CodecRoundsTheExactValueOnce :
    (0 : ℚ) ≤ 5 / 2 ∧ (-(5 / 2) : ℚ) < 0 ∧ |(5 / 2 : ℚ) - roundQ .rne (5 / 2)| = 1 / 2 := by
  have h : ⌊(5 / 2 : ℚ)⌋ = 2 := by norm_num
  refine ⟨by norm_num, by norm_num, ?_⟩
  rw [roundQ, h]
  norm_num

/-- A binary64 operand's number, from its three fields. -/
theorem floatVal_fields {v : BitVec 64} {neg : Bool} {e f : Nat} (h1 : v.getLsbD 63 = neg)
    (h2 : (v.extractLsb' 52 11).toNat = e) (h3 : (v.extractLsb' 0 52).toNat = f) :
    floatVal (.b64 v) = ieeeVal 11 52 1023 neg e f := by rw [floatVal, h1, h2, h3]

/-- 1.0, 131071.9990234375 and a NaN, as binary64 operands. -/
theorem floatVal_examples : floatVal (.b64 0x3FF0000000000000) = some 1 ∧ floatVal (.b64 0x40FFFFFFFC000000) = some (134217727 / 1024) ∧
    floatVal (.b64 0x7FF8000000000000) = none := by
  refine ⟨?_, ?_, ?_⟩
  · rw [floatVal_fields (neg := false) (e := 1023) (f := 0) (by decide) (by decide) (by decide)]
    norm_num [ieeeVal]
  · rw [floatVal_fields (neg := false) (e := 1039) (f := 0xFFFFFFC000000) (by decide) (by decide) (by decide)]
    norm_num [ieeeVal]
  · rw [floatVal_fields (neg := false) (e := 2047) (f := 0x8000000000000) (by decide) (by decide) (by decide)]
    norm_num [ieeeVal]

theorem encodes_one (w : Nat) (hw : 21 ≤ w) : Encodes .rtz (.b64 0x3FF0000000000000) w 20 false 1048576 := by
  have hp : (2 : Int) ^ 21 ≤ 2 ^ w := pow_le_pow_right₀ (by norm_num) hw
  have h : ⌊(1048576 : ℚ)⌋ = 1048576 := by norm_num
  refine ⟨1, floatVal_examples.1, by norm_num [roundQ], by norm_num [formatMin], ?_⟩
  simp only [formatMax, Bool.false_eq_true, if_false]
  omega

theorem encodes_max : Encodes .rtz (.b64 0x40FFFFFFFC000000) 27 10 false (2 ^ 27 - 1) := by
  refine ⟨134217727 / 1024, floatVal_examples.2.1, by norm_num [roundQ], by norm_num [formatMin], by norm_num [formatMax]⟩

theorem not_encodes_nan (mode : FxRound) (w n : Nat) (sg : Bool) (t : Int) :
    ¬ Encodes mode (.b64 0x7FF8000000000000) w n sg t := by
  rintro ⟨r, h, -⟩
  rw [floatVal_examples.2.2] at h
  cases h

theorem witness_FxEncodeReturnsThePattern :
    (∀ q ∈ [(0, 0), (65, 0), (8, 9)], ¬ (1 ≤ q.1 ∧ q.1 ≤ 64 ∧ q.2 ≤ q.1)) ∧
      (∀ q ∈ [(1, 0), (1, 1), (64, 64), (27, 10)], 1 ≤ q.1 ∧ q.1 ≤ 64 ∧ q.2 ≤ q.1) ∧
      (∀ t, ¬ Encodes zero.par.fxRound (.b64 0x7FF8000000000000) (27 : BitVec 7).toNat (10 : BitVec 7).toNat ((0 : BitVec 1) == 1) t) ∧
      Encodes zero.par.fxRound (.b64 0x40FFFFFFFC000000) (27 : BitVec 7).toNat (10 : BitVec 7).toNat ((0 : BitVec 1) == 1) (2 ^ 27 - 1) := by
  refine ⟨by decide, by decide, fun t => not_encodes_nan _ _ _ _ t, encodes_max⟩

theorem witness_FxDecodeReturnsTheExactValue :
    (∀ q ∈ [(0, 0), (65, 0), (8, 9)], ¬ (1 ≤ q.1 ∧ q.1 ≤ 64 ∧ q.2 ≤ q.1)) ∧
      ∀ q ∈ [(1, 0), (1, 1), (64, 64)], 1 ≤ q.1 ∧ q.1 ≤ 64 ∧ q.2 ≤ q.1 := by decide

theorem witness_ResultValuesAreExactFloats :
    ∀ k ∈ [-(2 ^ 23), 0, 2 ^ 23 - 1], (-(2 ^ 23) : Int) ≤ k ∧ k ≤ 2 ^ 23 - 1 := by decide

theorem witness_EncodeAndDecodeAgree :
    AnswersOk (.fxEncode (.b64 0x3FF0000000000000) 32 20 0) zero (.pattern 1048576) ∧
      AnswersOk (.fxEncode (.b64 0x3FF0000000000000) 32 20 0) (rounding .rne) (.pattern 1048576) ∧ (rounding .rne).par.fxRound = .rne ∧
      AnswersOk (.fxDecode 1048576 32 20 0) zero (.dyadic ⟨1048576, 20⟩) ∧
      floatVal (.b64 0x3FF0000000000000) = some (Dy.val ⟨1048576, 20⟩) ∧ (1048576 : BitVec 64).toNat < 2 ^ (32 : BitVec 7).toNat := by
  refine ⟨answersOk_of_okIs (by decide), answersOk_of_okIs (by decide), by decide, answersOk_of_okIs (by decide), ?_,
    by decide⟩
  rw [floatVal_examples.1]
  norm_num [Dy.val]

theorem witness_BadChannelsAnswerEChannel :
    (∀ n ∈ [0, 21, 31], ¬ IsChannel (BitVec.ofNat 5 n)) ∧ ∀ n ∈ [1, 20], IsChannel (BitVec.ofNat 5 n) := by
  unfold IsChannel
  decide

theorem witness_ChannelTableAnswers :
    ¬ IsChannel 0 ∧ ¬ IsChannel 21 ∧ IsChannel 1 ∧ IsChannel 20 := by
  unfold IsChannel
  decide

theorem witness_ChMaskSetSelectsItsChannels :
    (∃ c ∈ [1, 0, 25], ¬ IsChannel c) ∧ (∀ c ∈ [1, 3, 20], IsChannel c) ∧ ∀ c ∈ [], IsChannel c := by
  unfold IsChannel
  decide

theorem witness_ChannelTableIsOneToOne :
    IsChannel 1 ∧ IsChannel 20 ∧ (1 : BitVec 5) ≠ 20 := by
  unfold IsChannel
  decide

theorem witness_CfgTcBuildsTheThermocoupleWord :
    ¬ IsChannel 21 ∧ IsChannel 20 ∧ 20 < (21 : BitVec 5).toNat ∧ (20 : BitVec 5).toNat ≤ 20 := by
  unfold IsChannel
  decide

theorem witness_PlainThermocoupleFieldsAreZero :
    IsChannel 1 ∧ IsChannel 20 := by
  unfold IsChannel
  decide

theorem witness_CfgRsenseBuildsTheResistorWord :
    zero.par.ok = true ∧ ¬ IsChannel 0 ∧ IsChannel 20 ∧
      (∀ t, ¬ Encodes zero.par.fxRound (.b64 0x7FF8000000000000) 27 zero.par.rsenseFrac false t) ∧
      Encodes zero.par.fxRound (.b64 0x40FFFFFFFC000000) 27 zero.par.rsenseFrac false (2 ^ 27 - 1) := by
  refine ⟨by decide, by unfold IsChannel; decide, by unfold IsChannel; decide, fun t => not_encodes_nan _ _ _ _ t,
    encodes_max⟩

theorem witness_CfgDiodeBuildsTheDiodeWord :
    zero.par.ok = true ∧ ¬ IsChannel 0 ∧ IsChannel 1 ∧
      (∀ t, ¬ Encodes zero.par.fxRound (.b64 0x7FF8000000000000) zero.par.idealPremaskW 20 false t) ∧
      Encodes zero.par.fxRound (.b64 0x3FF0000000000000) zero.par.idealPremaskW 20 false 1048576 := by
  refine ⟨by decide, by unfold IsChannel; decide, by unfold IsChannel; decide, fun t => not_encodes_nan _ _ _ _ t,
    encodes_one 32 (by decide)⟩

theorem witness_CfgUnsupAnswersUnsupported :
    ¬ IsChannel 0 ∧ IsChannel 1 := by
  unfold IsChannel
  decide

theorem witness_CfgDecodeReadsTheWord :
    zero.par.ok = true ∧ (0x07FFFFFF : Word).extractLsb' 27 5 = 0 ∧
      ((0xF8000000 : Word).extractLsb' 27 5 ≠ 0 ∧ (0xF8000000 : Word).extractLsb' 27 5 ∉ zero.par.probeId.ids) ∧
      zero.par.probeId.ids[(0 : BitVec 3).toNat]? = some ((0x08000000 : Word).extractLsb' 27 5) ∧
      zero.par.probeId.ids[(7 : BitVec 3).toNat]? = some ((0x40000000 : Word).extractLsb' 27 5) ∧
      zero.par.probeId.rsense = (0xE8000000 : Word).extractLsb' 27 5 ∧
      zero.par.probeId.diode = (0xE0000000 : Word).extractLsb' 27 5 := by decide

theorem witness_BuiltWordsDecodeToTheirFields :
    zero.par.ok = true ∧
      AnswersOk (.cfgTc 4 1 2 1 4 0) zero (.build 0x10B00000 [0x02, 0x02, 0x0C, 0x10, 0xB0, 0x00, 0x00]) ∧
      AnswersOk (.cfgRsense 2 (.b64 0x409F400000000000)) zero (.build 0xE81F4000 [0x02, 0x02, 0x04, 0xE8, 0x1F, 0x40, 0x00]) ∧
      AnswersOk (.cfgDiode 3 1 1 1 1 1 (.b64 0x3FF4000000000000)) zero (.build 0xE7540000 [0x02, 0x02, 0x08, 0xE7, 0x54, 0x00, 0x00]) ∧
      AnswersOk (.cfgDiode 3 0 0 0 0 0 (.b64 0x7FF8000000000000)) zero (.build 0xE0000000 [0x02, 0x02, 0x08, 0xE0, 0x00, 0x00, 0x00]) := by
  refine ⟨by decide, answersOk_of_okIs (by decide), answersOk_of_okIs (by decide), answersOk_of_okIs (by decide),
    answersOk_of_okIs (by decide)⟩

theorem witness_CfgCheckTestsTheTopBits :
    (0x07FFFFFF : Word).toNat < 2 ^ 27 ∧ 2 ^ 27 ≤ (0x08000000 : Word).toNat := by decide

theorem witness_ReadRequestsNameTheRegister :
    ¬ IsChannel 21 ∧ IsChannel 1 ∧ IsChannel 20 := by
  unfold IsChannel
  decide

theorem witness_HandPackedWriteIsTheAssemblers :
    zero.blk.wbits = [] ∧ 56 ≤ zero.par.bsCapBits ∧ IsChannel 20 ∧ (20 : BitVec 5).toNat ≤ 20 ∧
      zero.par.probeId.ids[(7 : BitVec 3).toNat]? = some 8 := by
  unfold IsChannel
  decide

theorem witness_ResDecodeGivesTheOutcome :
    (0x01 : Byte).toNat = 2 ^ 0 ∧ (0x10 : Byte).toNat = 2 ^ 4 ∧ (0x20 : Byte).toNat = 2 ^ 5 ∧ (0x80 : Byte).toNat = 2 ^ 7 ∧
      ∀ b ∈ [(0x00 : Byte), 0x03, 0x81, 0xFF], ∀ j < 8, b.toNat ≠ 2 ^ j := by decide

theorem witness_StatusBytesAndOutcomesAgree :
    AnswersOk (.resDecode 0x01 0 4 0) zero (.outcome 0 true 1024 (some ⟨1024, 10⟩)) ∧
      AnswersOk (.resDecode 0x01 0 0 0) zero (.outcome 0 true 0 (some ⟨0, 10⟩)) := ⟨answersOk_of_okIs (by decide), answersOk_of_okIs (by decide)⟩

theorem witness_ThermocoupleWordsAnswerTheirRecord :
    zero.par.ok = true ∧ zero.par.probeId.ids[(0 : BitVec 3).toNat]? = some 1 ∧
      zero.par.probeId.ids[(7 : BitVec 3).toNat]? = some 8 := by decide

theorem witness_OtherWordsAnswerAsCfgDecode :
    zero.par.ok = true := by decide

theorem witness_WordsOfNoRowAreAnswered :
    zero.par.ok = true ∧ (0x50000000 : Word).extractLsb' 27 5 ≠ 0 ∧
      (0x50000000 : Word).extractLsb' 27 5 ∉ zero.par.probeId.ids ∧ (∀ j < 8, (0x03000400 : Word).toNat / 2 ^ 24 ≠ 2 ^ j) ∧
      (presented (.bits .cfgw (fieldBits (0x50000000 : Word)))).inputs = .bits .cfgw (fieldBits (0x50000000 : Word)) :: [] := by decide

theorem witness_TxnWriteStoresTheWord :
    (∀ ch, IsChannel ch → (0x0250 : Addr).toNat ≠ 0x200 + 4 * (ch.toNat - 1)) ∧
      (IsChannel 1 ∧ (0x0200 : Addr).toNat = 0x200 + 4 * ((1 : BitVec 5).toNat - 1)) ∧
      (IsChannel 20 ∧ (0x024C : Addr).toNat = 0x200 + 4 * ((20 : BitVec 5).toNat - 1)) := by
  unfold IsChannel
  decide

theorem witness_TxnReadReturnsTheRegister :
    (∀ ch, IsChannel ch → (0x0060 : Addr).toNat ≠ 0x200 + 4 * (ch.toNat - 1) ∧
        (0x0060 : Addr).toNat ≠ 0x010 + 4 * (ch.toNat - 1)) ∧
      (IsChannel 1 ∧ (0x0010 : Addr).toNat = 0x010 + 4 * ((1 : BitVec 5).toNat - 1)) ∧
      (IsChannel 20 ∧ (0x024C : Addr).toNat = 0x200 + 4 * ((20 : BitVec 5).toNat - 1)) := by
  unfold IsChannel
  decide

theorem witness_RegisterReadsBackAsWritten :
    IsChannel 20 ∧ (0x024C : Addr).toNat = 0x200 + 4 * ((20 : BitVec 5).toNat - 1) := by
  unfold IsChannel
  decide

theorem witness_EveryCommandGetsOneResponse :
    Instr.bsTake.port ≠ .txn ∧ (Instr.cfgwRsense 0).port ≠ .txn ∧ (Instr.reswValid 0).port ≠ .txn := by decide

theorem witness_ErrorsChangeNothing :
    ∃ t : State, exec (.cfgUnsup 1 0) busy = .next t ∧ t.resps = busy.resps ++ [.err .unsupported] := ⟨respond (.err .unsupported) busy, rfl, rfl⟩

theorem witness_FirstApplicableErrorIsReported :
    (Instr.cfgTc 21 0 25 0 0 0).port = .cmd ∧ zero.par.ok = true ∧
      Applies zero .channel (.cfgTc 21 0 25 0 0 0) ∧ Applies zero .field (.cfgTc 21 0 25 0 0 0) := by
  unfold Applies IsChannel
  decide

theorem witness_PureCommandsIgnoreTheState :
    pureCommand (.chMask 1) = true ∧ zero.par = busy.par ∧ zero ≠ busy := by decide

theorem witness_CommandsDependOnTheBlockAlone :
    Instr.bsTake.port = .cmd ∧ busy.par = (respond (.ok .unit) busy).par ∧ busy.blk = (respond (.ok .unit) busy).blk := by decide

set_option maxRecDepth 4000 in
theorem witness_LinesAssembleToTheirCommand :
    (List.replicate 255 (0 : Byte)).length < 256 ∧ (List.replicate 255 (1 : BitVec 5)).length < 256 ∧
      (FloatOp.b64 0).fmt = Params.default.floatFmt := by decide

theorem witness_PseudoInstructionsExpand :
    ∀ a ∈ [AsmArg.keyNum "mode" 1, .keyNum "exc" 4], a.key? ≠ some "cj" := by decide

end Sys2Proof.Tests
end

section
/-! PROOFS. The commands without state (spec/10_state.md R23). -/

namespace Sys2Proof.Machine

open Sys2Proof

/-- An answer is one response to the state, the same response in every state. -/
theorem answer_eq_respond (r : Except ErrCode Payload) : ∃ q, ∀ s, answer r s = .next (respond q s) := by
  cases r with
  | ok p => exact ⟨.ok p, answer_ok p⟩
  | error e => exact ⟨.err e, answer_error e⟩

/-- A command without state gives an answer that reads the parameters and its operands only: two states with the same
parameters get the same one (R23). -/
theorem exec_eq_answer_of_pureCommand {i : Instr} {s s' : State} (h : pureCommand i = true) (hpar : s.par = s'.par) :
    ∃ r, exec i s = answer r s ∧ exec i s' = answer r s' := by
  obtain ⟨par, _, _, _, _⟩ := s
  obtain ⟨par', _, _, _, _⟩ := s'
  obtain rfl : par = par' := hpar
  cases i with
  | fxEncode | fxDecode => exact ⟨_, rfl, rfl⟩
  | fxDecode24 => exact ⟨.ok _, rfl, rfl⟩
  | chStartAddr | chResultAddr | chMask | chMaskSet => exact ⟨_, rfl, rfl⟩
  | cfgTc | cfgRsense | cfgDiode | cfgUnsup => exact ⟨_, rfl, rfl⟩
  | cfgDecode | cfgCheck | cfgReadReq => exact ⟨_, rfl, rfl⟩
  | resDecode | resReadReq => exact ⟨_, rfl, rfl⟩
  | _ => simp [pureCommand] at h

/-- Settles O55: the two states get one answer, and an answer adds its response and writes nothing else. -/
theorem pureCommandsIgnoreTheState : Obligations.PureCommandsIgnoreTheState := by
  intro i s s' h hpar
  obtain ⟨r, hs, hs'⟩ := exec_eq_answer_of_pureCommand h hpar
  obtain ⟨q, hq⟩ := answer_eq_respond r
  exact ⟨q, hs.trans (hq s), hs'.trans (hq s')⟩

end Sys2Proof.Machine
end

section
/-! PROOFS. The bit-stream packer/unpacker (spec/40_bitstream.md R100 to R109). -/

namespace Sys2Proof

/-- The `j`-th bit of `bits_w(v)`, counted from the most significant (R9). -/
theorem getElem?_bitsOf {w j : Nat} (v : Nat) (h : j < w) : (bitsOf w v)[j]? = some (v.testBit (w - 1 - j)) := by
  induction w generalizing j with
  | zero => omega
  | succ w ih =>
    cases j with
    | zero => simp [bitsOf]
    | succ j =>
      rw [bitsOf, List.getElem?_cons_succ, ih (by omega)]
      congr 2
      omega

/-- The `j`-th bit of a bit sequence, as a bit of the number it denotes (R106). -/
theorem getElem?_eq_testBit_natOf {b : Bits} {j : Nat} (h : j < b.length) :
    b[j]? = some ((natOf b).testBit (b.length - 1 - j)) := by
  conv_lhs => rw [← bitsOf_natOf b]
  exact getElem?_bitsOf (natOf b) h

/-- 64 bits hold the number of at most 64 bits: zero-extension (R106). -/
theorem toNat_ofNat_natOf {b : Bits} (h : b.length ≤ 64) : (BitVec.ofNat 64 (natOf b)).toNat = natOf b := by
  rw [BitVec.toNat_ofNat]
  exact Nat.mod_eq_of_lt ((natOf_lt b).trans_le (Nat.pow_le_pow_right (by omega) h))

end Sys2Proof

namespace Sys2Proof.Machine

open Sys2Proof

/-! ### The shared operations -/

theorem Params.ok_bsCapBits {p : Params} (h : p.ok = true) : p.bsCapBits % 8 = 0 := by
  simp only [Params.ok, Bool.and_eq_true, beq_iff_eq] at h
  obtain ⟨⟨⟨⟨hcap, -⟩, -⟩, -⟩, -⟩ := h
  exact hcap

theorem checkWidth_of_legal {w : BitVec 7} (h : 1 ≤ w.toNat ∧ w.toNat ≤ 64) : checkWidth w = .ok () := if_pos h

theorem checkWidth_of_illegal {w : BitVec 7} (h : ¬ (1 ≤ w.toNat ∧ w.toNat ≤ 64)) : checkWidth w = .error .width :=
  if_neg h

theorem packBits_of_fits {cap w : Nat} {b : Block} (v : Nat) (h : b.wbits.length + w ≤ cap) :
    packBits cap b w v = .ok { b with wbits := b.wbits ++ bitsOf w v } := if_neg (Nat.not_lt.mpr h)

theorem packBits_of_overflow {cap w : Nat} {b : Block} (v : Nat) (h : cap < b.wbits.length + w) :
    packBits cap b w v = .error .overflow := if_pos h

/-- The packer sees the low `w` bits of a value only (R102). -/
theorem packBits_mod (cap : Nat) (b : Block) (w v : Nat) : packBits cap b w (v % 2 ^ w) = packBits cap b w v := by
  simp only [packBits, bitsOf_mod]

theorem unpackBits_of_enough {w : Nat} {b : Block} (h : b.rpos + w ≤ 8 * b.rbytes.length) :
    unpackBits b w = .ok (natOf ((unread b).take w), { b with rpos := b.rpos + w }) := if_neg (Nat.not_lt.mpr h)

theorem unpackBits_of_underrun {w : Nat} {b : Block} (h : 8 * b.rbytes.length < b.rpos + w) :
    unpackBits b w = .error .underrun := if_pos h

theorem loadBytes_of_fits {cap : Nat} (b : Block) {data : List Byte} (h : 8 * data.length ≤ cap) :
    loadBytes cap b data = .ok { b with rbytes := data, rpos := 0 } := if_neg (Nat.not_lt.mpr h)

theorem loadBytes_of_overflow {cap : Nat} (b : Block) {data : List Byte} (h : cap < 8 * data.length) :
    loadBytes cap b data = .error .overflow := if_pos h

/-- As many bits are unread as lie behind the cursor (R107). -/
@[simp] theorem unread_length (b : Block) : (unread b).length = 8 * b.rbytes.length - b.rpos := by simp [unread]

/-- Advancing the cursor drops bits from the front of the unread ones (R106). -/
theorem unread_advance (b : Block) (w : Nat) : unread { b with rpos := b.rpos + w } = (unread b).drop w := by
  simp [unread, List.drop_drop]

/-- The bits a read of width `w` consumes are the loaded bits from the cursor on (R106). -/
theorem getElem?_take_unread {b : Block} {w j : Nat} (h : j < w) :
    ((unread b).take w)[j]? = (bitsOfBytes b.rbytes)[b.rpos + j]? := by
  rw [List.getElem?_take_of_lt h, unread, List.getElem?_drop]

theorem take_unread_length {b : Block} {w : Nat} (h : b.rpos + w ≤ 8 * b.rbytes.length) :
    ((unread b).take w).length = w := by
  rw [List.length_take, unread_length]
  omega

/-- LEADING puts the pad between the whole bytes and the pending bits (R103). -/
theorem alignBits_leading {b : Bits} (h : b.length % 8 ≠ 0) :
    alignBits .leading b =
      b.take (8 * (b.length / 8)) ++ List.replicate (8 - b.length % 8) false ++ b.drop (8 * (b.length / 8)) := by
  have hq : b.length - b.length % 8 = 8 * (b.length / 8) := by omega
  simp [alignBits, h, hq, zeroBits]

/-- TRAILING puts the pad after the pending bits (R103). -/
theorem alignBits_trailing {b : Bits} (h : b.length % 8 ≠ 0) :
    alignBits .trailing b = b ++ List.replicate (8 - b.length % 8) false := by
  simp [alignBits, h, zeroBits]

/-- For a whole number of bytes, or under TRAILING, the packed bits come first (R103, R109). -/
theorem alignBits_eq_append {m : PadMode} {b : Bits} (h : b.length % 8 = 0 ∨ m = .trailing) :
    ∃ pad, alignBits m b = b ++ pad := by
  by_cases hk : b.length % 8 = 0
  · exact ⟨[], by rw [alignBits_of_aligned m hk, List.append_nil]⟩
  · obtain rfl := h.resolve_left hk
    exact ⟨_, alignBits_trailing hk⟩

/-- The bytes of the aligned packer hold its bits and no others (R104). -/
theorem bitsOfBytes_bytesOf_alignBits (m : PadMode) (b : Bits) :
    bitsOfBytes (bytesOf (alignBits m b)) = alignBits m b := bitsOfBytes_bytesOf _ _ (alignBits_length m b)

/-- The aligned packer's bytes fit a capacity of whole bytes that its bits fit (R103, R104). -/
theorem bytesOf_alignBits_length_le {m : PadMode} {b : Bits} {cap : Nat} (hc : cap % 8 = 0) (h : b.length ≤ cap) :
    8 * (bytesOf (alignBits m b)).length ≤ cap := by
  rw [← bitsOfBytes_length, bitsOfBytes_bytesOf_alignBits]
  exact alignBits_length_le m b hc h

/-! ### The commands -/

theorem exec_bsReset (s : State) : exec .bsReset s = .next (respond (.ok .unit) { s with blk := Block.reset }) := rfl

theorem exec_bsAlign (s : State) :
    exec .bsAlign s =
      .next (respond (.ok .unit) { s with blk := { s.blk with wbits := alignBits s.par.padMode s.blk.wbits } }) := rfl

theorem exec_bsTake (s : State) :
    exec .bsTake s =
      .next (respond (.ok (.bytes (bytesOf (alignBits s.par.padMode s.blk.wbits))))
        { s with blk := { s.blk with wbits := [] } }) := rfl

theorem bsStat_ok (s : State) :
    AnswersOk .bsStat s (.stat s.blk.wbits.length (8 * s.blk.rbytes.length - s.blk.rpos)) := rfl

theorem exec_bsWrite (v : BitVec 64) (w : BitVec 7) (s : State) : exec (.bsWrite v w) s = execBsWrite v w s := rfl

theorem exec_bsLoad (data : List Byte) (s : State) : exec (.bsLoad data) s = execBsLoad data s := rfl

theorem exec_bsRead (w : BitVec 7) (s : State) : exec (.bsRead w) s = execBsRead w s := rfl

section Write
variable {s : State} {v : BitVec 64} {w : BitVec 7}

theorem bsWrite_width (h : ¬ (1 ≤ w.toNat ∧ w.toNat ≤ 64)) : AnswersErr (.bsWrite v w) s .width := by
  rw [AnswersErr, exec_bsWrite, execBsWrite, checkWidth_of_illegal h]
  rfl

theorem bsWrite_overflow (hw : 1 ≤ w.toNat ∧ w.toNat ≤ 64) (h : s.par.bsCapBits < s.blk.wbits.length + w.toNat) :
    AnswersErr (.bsWrite v w) s .overflow := by
  rw [AnswersErr, exec_bsWrite, execBsWrite, checkWidth_of_legal hw, packBits_of_overflow _ h]
  rfl

theorem bsWrite_ok (hw : 1 ≤ w.toNat ∧ w.toNat ≤ 64) (h : s.blk.wbits.length + w.toNat ≤ s.par.bsCapBits) :
    exec (.bsWrite v w) s =
      .next (respond (.ok .unit)
        { s with blk := { s.blk with wbits := s.blk.wbits ++ bitsOf w.toNat v.toNat } }) := by
  rw [exec_bsWrite, execBsWrite, checkWidth_of_legal hw, packBits_of_fits _ h]
  rfl

/-- Bits of the value above the width have no effect (R102). -/
theorem bsWrite_congr {v' : BitVec 64} (h : v'.toNat % 2 ^ w.toNat = v.toNat % 2 ^ w.toNat) :
    exec (.bsWrite v' w) s = exec (.bsWrite v w) s := by
  have hp : packBits s.par.bsCapBits s.blk w.toNat v'.toNat = packBits s.par.bsCapBits s.blk w.toNat v.toNat := by
    rw [← packBits_mod _ _ _ v'.toNat, h, packBits_mod]
  rw [exec_bsWrite, exec_bsWrite, execBsWrite, execBsWrite, hp]

end Write

section Load
variable {s : State} {data : List Byte}

theorem bsLoad_overflow (h : s.par.bsCapBits < 8 * data.length) : AnswersErr (.bsLoad data) s .overflow := by
  rw [AnswersErr, exec_bsLoad, execBsLoad, loadBytes_of_overflow _ h]
  rfl

theorem bsLoad_ok (h : 8 * data.length ≤ s.par.bsCapBits) :
    exec (.bsLoad data) s =
      .next (respond (.ok .unit) { s with blk := { s.blk with rbytes := data, rpos := 0 } }) := by
  rw [exec_bsLoad, execBsLoad, loadBytes_of_fits _ h]
  rfl

end Load

section Read
variable {s : State} {w : BitVec 7}

theorem bsRead_width (h : ¬ (1 ≤ w.toNat ∧ w.toNat ≤ 64)) : AnswersErr (.bsRead w) s .width := by
  rw [AnswersErr, exec_bsRead, execBsRead, checkWidth_of_illegal h]
  rfl

theorem bsRead_underrun (hw : 1 ≤ w.toNat ∧ w.toNat ≤ 64) (h : 8 * s.blk.rbytes.length < s.blk.rpos + w.toNat) :
    AnswersErr (.bsRead w) s .underrun := by
  rw [AnswersErr, exec_bsRead, execBsRead, checkWidth_of_legal hw, unpackBits_of_underrun h]
  rfl

theorem bsRead_ok (hw : 1 ≤ w.toNat ∧ w.toNat ≤ 64) (h : s.blk.rpos + w.toNat ≤ 8 * s.blk.rbytes.length) :
    exec (.bsRead w) s =
      .next (respond (.ok (.value (BitVec.ofNat 64 (natOf ((unread s.blk).take w.toNat)))))
        { s with blk := { s.blk with rpos := s.blk.rpos + w.toNat } }) := by
  rw [exec_bsRead, execBsRead, checkWidth_of_legal hw, unpackBits_of_enough h]
  rfl

/-- A read whose next bits are those of a field of its width returns the field's masked value and goes past it (R106). -/
theorem bsRead_field {v : Nat} {rest : Bits} (hw : 1 ≤ w.toNat ∧ w.toNat ≤ 64)
    (h : unread s.blk = bitsOf w.toNat v ++ rest) :
    ∃ t, exec (.bsRead w) s = .next t ∧ unread t.blk = rest ∧
      t.resps = s.resps ++ [.ok (.value (BitVec.ofNat 64 (v % 2 ^ w.toNat)))] := by
  have hlen := congrArg List.length h
  rw [unread_length, List.length_append, bitsOf_length] at hlen
  refine ⟨_, bsRead_ok hw (by omega), ?_, ?_⟩
  · rw [respond_blk, unread_advance, h, List.drop_left' (bitsOf_length _ _)]
  · rw [respond_resps, h, List.take_left' (bitsOf_length _ _), natOf_bitsOf]

end Read

/-! ### Sequences of writes and reads -/

theorem execAll_cons {i : Instr} {s t : State} (is : List Instr) (h : exec i s = .next t) :
    execAll (i :: is) s = execAll is t := by simp only [execAll, h]

theorem execAll_append {is : List Instr} {s t : State} (js : List Instr) (h : execAll is s = .next t) :
    execAll (is ++ js) s = execAll js t := by
  induction is generalizing s with
  | nil =>
    obtain rfl : s = t := by simpa [execAll] using h
    rfl
  | cons i is ih =>
    cases hi : exec i s with
    | next u =>
      rw [execAll_cons is hi] at h
      rw [List.cons_append, execAll_cons _ hi, ih h]
    | fault r => simp [execAll, hi] at h
    | refused r => simp [execAll, hi] at h

/-- A field of a request sequence: a value and its width. -/
abbrev ValueField := BitVec 64 × BitVec 7

/-- The bits that BS_WRITE appends for fields written one after another (R101, R109). -/
def fieldsBits (fs : List ValueField) : Bits := fs.flatMap fun f => bitsOf f.2.toNat f.1.toNat

@[simp] theorem fieldsBits_nil : fieldsBits [] = [] := rfl

@[simp] theorem fieldsBits_cons (f : ValueField) (fs : List ValueField) :
    fieldsBits (f :: fs) = bitsOf f.2.toNat f.1.toNat ++ fieldsBits fs := rfl

theorem fieldsBits_length (fs : List ValueField) : (fieldsBits fs).length = (fs.map fun f => f.2.toNat).sum := by
  simp [fieldsBits, List.length_flatMap]

/-- Every width is one that BS_WRITE and BS_READ take (R101, R106). -/
def LegalWidths (fs : List ValueField) : Prop := ∀ f ∈ fs, 1 ≤ f.2.toNat ∧ f.2.toNat ≤ 64

theorem legalWidths_cons {f : ValueField} {fs : List ValueField} :
    LegalWidths (f :: fs) ↔ (1 ≤ f.2.toNat ∧ f.2.toNat ≤ 64) ∧ LegalWidths fs := List.forall_mem_cons

/-- Fields that fit the capacity together are written one after another, each answered `Ok`. -/
theorem execAll_bsWrite {fs : List ValueField} {s : State} (hw : LegalWidths fs)
    (hfit : s.blk.wbits.length + (fieldsBits fs).length ≤ s.par.bsCapBits) :
    execAll (fs.map fun f => .bsWrite f.1 f.2) s =
      .next { s with
        blk := { s.blk with wbits := s.blk.wbits ++ fieldsBits fs }
        resps := s.resps ++ List.replicate fs.length (.ok .unit) } := by
  induction fs generalizing s with
  | nil => simp [execAll]
  | cons f fs ih =>
    obtain ⟨hf, hfs⟩ := legalWidths_cons.mp hw
    rw [fieldsBits_cons, List.length_append, bitsOf_length] at hfit
    have hrest : (s.blk.wbits ++ bitsOf f.2.toNat f.1.toNat).length + (fieldsBits fs).length ≤ s.par.bsCapBits := by
      rw [List.length_append, bitsOf_length]
      omega
    rw [List.map_cons, execAll_cons _ (bsWrite_ok hf (by omega)), ih hfs hrest]
    simp [respond, List.replicate_succ]

/-- Fields whose bits come next are read one after another, each with its masked value. -/
theorem execAll_bsRead {fs : List ValueField} {s : State} {rest : Bits} (hw : LegalWidths fs)
    (h : unread s.blk = fieldsBits fs ++ rest) :
    ∃ u, execAll (fs.map fun f => .bsRead f.2) s = .next u ∧
      u.resps = s.resps ++ fs.map fun f => .ok (.value (BitVec.ofNat 64 (f.1.toNat % 2 ^ f.2.toNat))) := by
  induction fs generalizing s with
  | nil => exact ⟨s, rfl, by simp⟩
  | cons f fs ih =>
    obtain ⟨hf, hfs⟩ := legalWidths_cons.mp hw
    rw [fieldsBits_cons, List.append_assoc] at h
    obtain ⟨t, ht, hrest, hread⟩ := bsRead_field hf h
    obtain ⟨u, hu, hresps⟩ := ih hfs hrest
    refine ⟨u, by rw [List.map_cons, execAll_cons _ ht, hu], ?_⟩
    rw [hresps, hread, List.append_assoc, List.singleton_append, List.map_cons]

/-- BS_RESET, fields that fit the capacity, and BS_TAKE: the aligned bits of the fields are returned as bytes, and the
block is as after reset. -/
theorem execAll_pack {fs : List ValueField} {s : State} (hw : LegalWidths fs)
    (hfit : (fieldsBits fs).length ≤ s.par.bsCapBits) :
    execAll (.bsReset :: (fs.map fun f => .bsWrite f.1 f.2) ++ [.bsTake]) s =
      .next { s with
        blk := Block.reset
        resps := s.resps ++ List.replicate (fs.length + 1) (.ok .unit) ++
          [.ok (.bytes (bytesOf (alignBits s.par.padMode (fieldsBits fs))))] } := by
  rw [List.cons_append, execAll_cons _ (exec_bsReset s),
    execAll_append _ (execAll_bsWrite hw (by simpa using hfit)), execAll_cons _ (exec_bsTake _)]
  simp [execAll, respond, List.replicate_succ, Block.reset]

/-- BS_LOAD of bytes that begin with the bits of the fields, and reads of the same widths, return the masked values. -/
theorem execAll_unpack {fs : List ValueField} {s : State} {data : List Byte} {pad : Bits} (hw : LegalWidths fs)
    (hfit : 8 * data.length ≤ s.par.bsCapBits) (h : bitsOfBytes data = fieldsBits fs ++ pad) :
    ∃ u, execAll (.bsLoad data :: fs.map fun f => .bsRead f.2) s = .next u ∧
      u.resps = s.resps ++ .ok .unit ::
        fs.map fun f => .ok (.value (BitVec.ofNat 64 (f.1.toNat % 2 ^ f.2.toNat))) := by
  rw [execAll_cons _ (bsLoad_ok hfit)]
  obtain ⟨u, hu, hresps⟩ := execAll_bsRead
    (s := respond (.ok .unit) { s with blk := { s.blk with rbytes := data, rpos := 0 } }) hw h
  exact ⟨u, hu, by rw [hresps]; simp⟩

/-! ### The obligations -/

/-- Settles O14: the rules of BS_WRITE, with the appended bits read one by one. -/
theorem bsWriteAppendsTheLowBits : Obligations.BsWriteAppendsTheLowBits := by
  intro s v w
  refine ⟨bsWrite_width, fun h1 h64 => bsWrite_overflow ⟨h1, h64⟩, fun h1 h64 hfit => ?_, fun v' => bsWrite_congr⟩
  exact ⟨bitsOf w.toNat v.toNat, bitsOf_length _ _, fun j => getElem?_bitsOf _, bsWrite_ok ⟨h1, h64⟩ hfit⟩

/-- Settles O15: the aligned bits, for each place of the pad. -/
theorem bsAlignPadsToAByte : Obligations.BsAlignPadsToAByte := by
  intro s
  refine ⟨alignBits s.par.padMode s.blk.wbits, exec_bsAlign s, ?_, fun hs => ?_, alignBits_of_aligned _,
    fun hk hm => ?_, fun hk hm => ?_⟩
  · rw [alignBits_length, Nat.mul_mod_right]
  · obtain ⟨hwbits, -, -⟩ := hs.blk
    exact alignBits_length_le _ _ (Params.ok_bsCapBits hs.par) hwbits
  · rw [hm, alignBits_leading hk]
  · rw [hm, alignBits_trailing hk]

/-- Settles O16: the aligned bits are whole bytes, so their bytes hold exactly them. -/
theorem bsTakeReturnsTheAlignedBytes : Obligations.BsTakeReturnsTheAlignedBytes := fun s =>
  ⟨_, _, exec_bsAlign s, bitsOfBytes_bytesOf_alignBits _ _, exec_bsTake s⟩

/-- Settles O17: the two rules of BS_LOAD. -/
theorem bsLoadReplacesTheReader : Obligations.BsLoadReplacesTheReader := fun _ _ => ⟨bsLoad_overflow, bsLoad_ok⟩

/-- Settles O18: the number of the consumed bits has them as its bits, and 64 bits hold it. -/
theorem bsReadReturnsTheNextBits : Obligations.BsReadReturnsTheNextBits := by
  intro s w
  refine ⟨bsRead_width, fun h1 h64 => bsRead_underrun ⟨h1, h64⟩, fun h1 h64 h => ?_⟩
  have hlen := take_unread_length h
  have hv := toNat_ofNat_natOf (hlen.trans_le h64)
  have hlt := natOf_lt ((unread s.blk).take w.toNat)
  rw [hlen] at hlt
  refine ⟨_, hv.trans_lt hlt, fun j hj => ?_, bsRead_ok ⟨h1, h64⟩ h⟩
  rw [hv, ← getElem?_take_unread hj, getElem?_eq_testBit_natOf (by omega), hlen]

/-- Settles O19: the invariant of R22 bounds both lengths. -/
theorem bsStatReportsTheLengths : Obligations.BsStatReportsTheLengths := by
  refine fun s => ⟨bsStat_ok s, fun hs => ?_⟩
  obtain ⟨hwbits, hrbytes, -⟩ := hs.blk
  exact ⟨hwbits, (Nat.sub_le _ _).trans hrbytes⟩

/-- Settles O21: the bytes taken hold the aligned bits of the fields; these begin with the fields' own bits, except under
LEADING with bits pending, where the pad stands before those. -/
theorem packedFieldsAreReadBack : Obligations.PackedFieldsAreReadBack := by
  intro s fs hp hw hfit
  rw [← fieldsBits_length] at hfit ⊢
  refine ⟨_, _, execAll_pack hw hfit, rfl, fun h => ?_, fun hk hm => ?_⟩
  · obtain ⟨pad, hpad⟩ := alignBits_eq_append h
    exact execAll_unpack hw (bytesOf_alignBits_length_le (Params.ok_bsCapBits hp) hfit)
      ((bitsOfBytes_bytesOf_alignBits _ _).trans hpad)
  · have hpend : ((fieldsBits fs).drop (8 * ((fieldsBits fs).length / 8))).length = (fieldsBits fs).length % 8 := by
      rw [List.length_drop]
      omega
    refine ⟨_, _, (List.take_append_drop (8 * ((fieldsBits fs).length / 8)) (fieldsBits fs)).symm, hpend, ?_⟩
    rw [bitsOfBytes_bytesOf_alignBits, hm, alignBits_leading hk, hpend]

end Sys2Proof.Machine
end

section
/-! PROOFS. The fixed-point codec (spec/41_fixed_point.md R120 to R130). -/

namespace Sys2Proof.Machine

open Sys2Proof

/-! ### Rounding (R121) -/

theorem roundQ_rtz_of_nonneg {r : ℚ} (h : 0 ≤ r) : roundQ .rtz r = ⌊r⌋ := if_pos h

theorem roundQ_rtz_of_neg {r : ℚ} (h : r < 0) : roundQ .rtz r = ⌈r⌉ := if_neg h.not_ge

theorem roundQ_rdn (r : ℚ) : roundQ .rdn r = ⌊r⌋ := rfl

/-- Nearest gives the floor up to the midpoint and the next integer from it on; at the midpoint, the even one of the
two. -/
theorem roundQ_rne_cases (r : ℚ) :
    (r - ⌊r⌋ ≤ 1 / 2 ∧ roundQ .rne r = ⌊r⌋ ∧ (r - ⌊r⌋ = 1 / 2 → Even ⌊r⌋)) ∨
      (1 / 2 ≤ r - ⌊r⌋ ∧ roundQ .rne r = ⌊r⌋ + 1 ∧ (r - ⌊r⌋ = 1 / 2 → Even (⌊r⌋ + 1))) := by
  rw [roundQ]
  split_ifs with hlt hgt heven
  · exact .inl ⟨hlt.le, rfl, fun h => absurd h hlt.ne⟩
  · exact .inr ⟨hgt.le, rfl, fun h => absurd h hgt.ne'⟩
  · exact .inl ⟨not_lt.mp hgt, rfl, fun _ => Int.even_iff.mpr heven⟩
  · exact .inr ⟨not_lt.mp hlt, rfl, fun _ => Int.even_iff.mpr (by omega)⟩

theorem abs_sub_roundQ_rne_le (r : ℚ) : |r - roundQ .rne r| ≤ 1 / 2 := by
  obtain ⟨h, e, -⟩ | ⟨h, e, -⟩ := roundQ_rne_cases r
  · rw [e, abs_of_nonneg (by linarith [Int.floor_le r])]
    exact h
  · rw [e, Int.cast_add, Int.cast_one, abs_of_neg (by linarith [Int.lt_floor_add_one r])]
    linarith

theorem even_roundQ_rne {r : ℚ} (h : |r - roundQ .rne r| = 1 / 2) : Even (roundQ .rne r) := by
  obtain ⟨-, e, heven⟩ | ⟨-, e, heven⟩ := roundQ_rne_cases r
  · rw [e, abs_of_nonneg (by linarith [Int.floor_le r])] at h
    exact e ▸ heven h
  · rw [e, Int.cast_add, Int.cast_one, abs_of_neg (by linarith [Int.lt_floor_add_one r])] at h
    exact e ▸ heven (by linarith)

/-- Every rounding moves a number by less than one. -/
theorem abs_roundQ_sub_lt (mode : FxRound) (r : ℚ) : |(roundQ mode r : ℚ) - r| < 1 := by
  have hfloor : |(⌊r⌋ : ℚ) - r| < 1 := by
    rw [abs_lt]
    constructor <;> linarith [Int.floor_le r, Int.lt_floor_add_one r]
  cases mode with
  | rtz =>
    obtain h | h := le_or_gt 0 r
    · rwa [roundQ_rtz_of_nonneg h]
    · rw [roundQ_rtz_of_neg h, abs_lt]
      constructor <;> linarith [Int.le_ceil r, Int.ceil_lt_add_one r]
  | rdn => exact hfloor
  | rne =>
    rw [abs_sub_comm]
    linarith [abs_sub_roundQ_rne_le r]

/-- An integer is rounded to itself. -/
@[simp] theorem roundQ_intCast (mode : FxRound) (t : Int) : roundQ mode (t : ℚ) = t := by
  cases mode <;> simp [roundQ]

section Fraction
variable {d : Nat}

theorem roundQ_rtz_div (hd : 0 < d) (a : Int) : roundQ .rtz ((a : ℚ) / d) = Int.tdiv a d := by
  obtain h | h := le_or_gt 0 a
  · rw [roundQ_rtz_of_nonneg (by positivity), Rat.floor_intCast_div_natCast, Int.tdiv_eq_ediv_of_nonneg h]
  · have hq : (a : ℚ) / d < 0 := div_neg_of_neg_of_pos (by exact_mod_cast h) (by exact_mod_cast hd)
    rw [roundQ_rtz_of_neg hq, Rat.ceil_intCast_div_natCast, ← Int.tdiv_eq_ediv_of_nonneg (by omega), Int.neg_tdiv,
      neg_neg]

theorem roundQ_rdn_div (a : Int) : roundQ .rdn ((a : ℚ) / d) = Int.fdiv a d := by
  rw [roundQ_rdn, Rat.floor_intCast_div_natCast, Int.fdiv_eq_ediv_of_nonneg _ (Int.natCast_nonneg d)]

theorem div_sub_lt_half_iff (hd : 0 < d) (a q : Int) : (a : ℚ) / d - q < 1 / 2 ↔ 2 * (a - q * d) < (d : Int) := by
  have hd' : (0 : ℚ) < d := by exact_mod_cast hd
  rw [sub_lt_iff_lt_add, div_lt_iff₀ hd', ← @Int.cast_lt ℚ]
  push_cast
  constructor <;> intro h <;> linarith

theorem half_lt_div_sub_iff (hd : 0 < d) (a q : Int) : 1 / 2 < (a : ℚ) / d - q ↔ (d : Int) < 2 * (a - q * d) := by
  have hd' : (0 : ℚ) < d := by exact_mod_cast hd
  rw [lt_sub_iff_add_lt, lt_div_iff₀ hd', ← @Int.cast_lt ℚ]
  push_cast
  constructor <;> intro h <;> linarith

end Fraction

/-- The model's integer rounding is the rounding of the fraction it is given. -/
theorem roundFrac_eq_roundQ (mode : FxRound) (num : Int) (d : Nat) :
    roundFrac mode num d = roundQ mode ((num : ℚ) / ((2 ^ d : Nat) : ℚ)) := by
  have hden : 0 < 2 ^ d := by positivity
  cases mode with
  | rtz => exact (roundQ_rtz_div hden num).symm
  | rdn => exact (roundQ_rdn_div num).symm
  | rne =>
    have hfloor : ⌊(num : ℚ) / ((2 ^ d : Nat) : ℚ)⌋ = Int.fdiv num ((2 ^ d : Nat) : Int) := roundQ_rdn_div num
    simp only [roundFrac, roundQ, hfloor, div_sub_lt_half_iff hden, half_lt_div_sub_iff hden]

/-! ### The exact value of an operand (R10, R125) -/

/-- The rational number that `floatFinite?` writes as `m * 2^e`. -/
def finiteVal (q : Int × Int) : ℚ := (q.1 : ℚ) * (2 : ℚ) ^ q.2

/-- The fraction of `scale` is exactly the value times `2^n`. -/
theorem scale_eq_finiteVal_mul (m e : Int) (n : Nat) :
    ((scale m e n).1 : ℚ) / ((2 ^ (scale m e n).2 : Nat) : ℚ) = finiteVal (m, e) * 2 ^ n := by
  have hpow : (2 : ℚ) ^ e * 2 ^ n = (2 : ℚ) ^ (e + (n : Int)) := by rw [zpow_add₀ two_ne_zero, zpow_natCast]
  rw [finiteVal, mul_assoc, hpow, scale]
  generalize e + (n : Int) = i
  split_ifs with h
  · obtain ⟨j, rfl⟩ := Int.eq_ofNat_of_zero_le h
    simp
  · obtain ⟨j, hj⟩ := Int.eq_ofNat_of_zero_le (show 0 ≤ -i by omega)
    obtain rfl : i = -(j : Int) := by omega
    simp [div_eq_mul_inv]

/-- The model's reading of an IEEE 754 pattern denotes the number the standard gives its three fields. -/
theorem ieeeVal_eq_ieeeFinite (eb mb p : Nat) :
    ieeeVal eb mb ((2 ^ (eb - 1) - 1 : Nat) : Int) (p.testBit (eb + mb)) (p / 2 ^ mb % 2 ^ eb) (p % 2 ^ mb) =
      (ieeeFinite? eb mb p).map finiteVal := by
  have hsub : ∀ i : Int, (2 : ℚ) ^ (i - (mb : Int)) = 2 ^ i / 2 ^ mb := fun i => by
    rw [zpow_sub₀ two_ne_zero, zpow_natCast]
  have hmb : (2 : ℚ) ^ mb ≠ 0 := by positivity
  simp only [ieeeVal, ieeeFinite?]
  generalize p / 2 ^ mb % 2 ^ eb = exp, p % 2 ^ mb = frac
  by_cases hinf : exp = 2 ^ eb - 1
  · simp only [if_pos hinf, Option.map_none]
  by_cases hzero : exp = 0
  · simp only [if_neg hinf, if_pos hzero, Option.map_some, finiteVal, hsub]
    push_cast
    congr 1
    ring
  · simp only [if_neg hinf, if_neg hzero, Option.map_some, finiteVal, hsub]
    push_cast
    congr 1
    field_simp

theorem floatVal_eq_floatFinite (x : FloatOp) : floatVal x = (floatFinite? x).map finiteVal := by
  cases x with
  | b32 v =>
    rw [floatFinite?, ← ieeeVal_eq_ieeeFinite]
    simp [floatVal, BitVec.getLsbD, Nat.shiftRight_eq_div_pow]
  | b64 v =>
    rw [floatFinite?, ← ieeeVal_eq_ieeeFinite]
    simp [floatVal, BitVec.getLsbD, Nat.shiftRight_eq_div_pow]

/-- The codec's integer is one rounding of the exact product (R125). -/
theorem scaledInt_eq (mode : FxRound) (x : FloatOp) (n : Nat) :
    scaledInt mode x n = (floatVal x).map fun r => roundQ mode (r * 2 ^ n) := by
  rw [floatVal_eq_floatFinite, scaledInt]
  cases floatFinite? x with
  | none => rfl
  | some q =>
    obtain ⟨m, e⟩ := q
    simp only [Option.map_some, roundFrac_eq_roundQ, scale_eq_finiteVal_mul]

/-- Settles O22: one rounding of the exact product, with the three roundings' own rules. -/
theorem codecRoundsTheExactValueOnce : Obligations.CodecRoundsTheExactValueOnce := by
  refine ⟨scaledInt_eq, fun r => ⟨roundQ_rtz_of_nonneg, roundQ_rtz_of_neg, roundQ_rdn r, abs_sub_roundQ_rne_le r,
    even_roundQ_rne, fun h => ?_⟩, rfl⟩
  rw [roundQ_rtz_of_nonneg h, roundQ_rdn]

/-! ### Formats and ranges (R120, R122) -/

/-- A legal format (R122). -/
abbrev LegalFormat (w n : Nat) : Prop := 1 ≤ w ∧ w ≤ 64 ∧ n ≤ w

theorem LegalFormat.one_le {w n : Nat} (h : LegalFormat w n) : 1 ≤ w := h.1

theorem LegalFormat.le_64 {w n : Nat} (h : LegalFormat w n) : w ≤ 64 := h.2.1

theorem checkFormat_of_legal {w n : Nat} (h : LegalFormat w n) : checkFormat w n = .ok () := by
  obtain ⟨-, e⟩ | ⟨hn, -⟩ := checkFormat_cases (w := w) (n := n) rfl
  · exact e
  · exact absurd h hn

theorem checkFormat_of_illegal {w n : Nat} (h : ¬ LegalFormat w n) : checkFormat w n = .error .fxFormat := by
  obtain ⟨hl, -⟩ | ⟨-, e⟩ := checkFormat_cases (w := w) (n := n) rfl
  · exact absurd hl h
  · exact e

theorem inRange_iff {w : Nat} {signed : Bool} {t : Int} :
    inRange w signed t = true ↔ formatMin w signed ≤ t ∧ t ≤ formatMax w signed := by
  cases signed <;> simp [inRange, formatMin, formatMax]

/-- A format holds at most one of the integers that agree modulo `2^w`. -/
theorem eq_of_inRange_of_emod_eq {w : Nat} {signed : Bool} {t u : Int} (hw : 1 ≤ w) (ht : inRange w signed t = true)
    (hu : inRange w signed u = true) (h : t % 2 ^ w = u % 2 ^ w) : t = u := by
  have hpow : (2 : Int) ^ w = 2 * 2 ^ (w - 1) := by rw [← pow_succ', Nat.sub_add_cancel hw]
  obtain ⟨ht0, ht1⟩ := inRange_iff.mp ht
  obtain ⟨hu0, hu1⟩ := inRange_iff.mp hu
  have hclose : |t - u| < 2 ^ w := by
    rw [abs_lt]
    cases signed <;> simp only [formatMin, formatMax, if_true, Bool.false_eq_true, if_false] at ht0 ht1 hu0 hu1 <;> omega
  have hdvd : (2 : Int) ^ w ∣ t - u := (Int.ModEq.symm h).dvd
  exact sub_eq_zero.mp (Int.eq_zero_of_abs_lt_dvd hdvd hclose)

/-- An encodable integer is the codec's scaled integer, in range. -/
theorem encodes_iff {mode : FxRound} {x : FloatOp} {w n : Nat} {signed : Bool} {t : Int} :
    Encodes mode x w n signed t ↔ scaledInt mode x n = some t ∧ inRange w signed t = true := by
  rw [Encodes, scaledInt_eq, inRange_iff, Option.map_eq_some_iff]
  constructor
  · rintro ⟨r, hr, rfl, hrange⟩
    exact ⟨⟨r, hr, rfl⟩, hrange⟩
  · rintro ⟨⟨r, hr, rfl⟩, hrange⟩
    exact ⟨r, hr, rfl, hrange⟩

/-! ### FX_ENCODE (R123, R124) -/

section Encode
variable {mode : FxRound} {x : FloatOp} {w n : Nat} {signed : Bool}

theorem fxEncode_of_illegal (h : ¬ LegalFormat w n) : fxEncode mode x w n signed = .error .fxFormat := by
  rw [fxEncode, checkFormat_of_illegal h]

theorem fxEncode_of_encodes {t : Int} (h : LegalFormat w n) (ht : Encodes mode x w n signed t) :
    fxEncode mode x w n signed = .ok (t % ((2 ^ w : Nat) : Int)).toNat := by
  obtain ⟨hs, hr⟩ := encodes_iff.mp ht
  simp only [fxEncode, checkFormat_of_legal h, hs, hr, if_true]

theorem fxEncode_of_not_encodes (h : LegalFormat w n) (ht : ∀ t, ¬ Encodes mode x w n signed t) :
    fxEncode mode x w n signed = .error .fxRange := by
  simp only [fxEncode, checkFormat_of_legal h]
  cases hs : scaledInt mode x n with
  | none => rfl
  | some t => exact if_neg fun hr => ht t (encodes_iff.mpr ⟨hs, hr⟩)

/-- The pattern of an integer fits 64 bits in every legal format. -/
theorem toNat_ofNat_emod {t : Int} (hw : w ≤ 64) :
    ((BitVec.ofNat 64 (t % ((2 ^ w : Nat) : Int)).toNat).toNat : Int) = t % 2 ^ w := by
  have hpos : (0 : Int) < 2 ^ w := by positivity
  have h64 : (2 : Int) ^ w ≤ 2 ^ 64 := pow_le_pow_right₀ (by norm_num) hw
  have h0 := Int.emod_nonneg t hpos.ne'
  have hlt := Int.emod_lt_of_pos t hpos
  push_cast
  rw [BitVec.toNat_ofNat, Int.natCast_mod, Int.toNat_of_nonneg h0]
  exact Int.emod_eq_of_lt h0 (hlt.trans_le h64)

end Encode

/-! ### FX_DECODE (R126) -/

/-- The integer that a pattern's low `w` bits denote in a format (R120). -/
def patternInt (w : Nat) (signed : Bool) (bits : Nat) : Int :=
  if signed then signedOf w bits else ((bits % 2 ^ w : Nat) : Int)

section Decode
variable {w n bits : Nat} {signed : Bool}

theorem fxDecode_of_illegal (h : ¬ LegalFormat w n) : fxDecode bits w n signed = .error .fxFormat := by
  rw [fxDecode, checkFormat_of_illegal h]

theorem fxDecode_of_legal (h : LegalFormat w n) :
    fxDecode bits w n signed = .ok ⟨patternInt w signed bits, n⟩ := by
  rw [fxDecode, checkFormat_of_legal h]
  rfl

theorem patternInt_signed (hw : 1 ≤ w) : patternInt w true bits = (BitVec.ofNat w bits).toInt :=
  signedOf_eq_toInt w bits hw

theorem patternInt_unsigned : patternInt w false bits = (bits : Int) % 2 ^ w := by
  simp [patternInt]

/-- A pattern denotes an integer of its format. -/
theorem inRange_patternInt (hw : 1 ≤ w) : inRange w signed (patternInt w signed bits) = true := by
  rw [inRange_iff]
  cases signed with
  | false =>
    rw [patternInt_unsigned]
    have hpos : (0 : Int) < 2 ^ w := by positivity
    exact ⟨Int.emod_nonneg _ hpos.ne', Int.le_sub_one_of_lt (Int.emod_lt_of_pos _ hpos)⟩
  | true =>
    rw [patternInt_signed hw]
    exact ⟨BitVec.le_toInt _, Int.le_sub_one_of_lt BitVec.toInt_lt⟩

/-- A pattern and the integer it denotes agree modulo `2^w`. -/
theorem patternInt_emod (hw : 1 ≤ w) : patternInt w signed bits % 2 ^ w = (bits : Int) % 2 ^ w := by
  cases signed with
  | false => rw [patternInt_unsigned, Int.emod_emod]
  | true =>
    have hmod : (BitVec.ofNat w bits).toInt % ((2 ^ w : Nat) : Int) = (bits : Int) % ((2 ^ w : Nat) : Int) := by
      rw [BitVec.toInt_eq_toNat_bmod, Int.bmod_emod, BitVec.toNat_ofNat, Int.natCast_mod, Int.emod_emod]
    rw [patternInt_signed hw]
    exact_mod_cast hmod

/-- The pattern of an integer of the format denotes that integer. -/
theorem patternInt_of_inRange {t : Int} (hw : 1 ≤ w) (ht : inRange w signed t = true)
    (h : (bits : Int) % 2 ^ w = t % 2 ^ w) : patternInt w signed bits = t :=
  eq_of_inRange_of_emod_eq hw (inRange_patternInt hw) ht ((patternInt_emod hw).trans h)

end Decode

/-! ### The commands -/

/-- An instruction answers at most one payload. -/
theorem AnswersOk.payload_eq {i : Instr} {s : State} {p q : Payload} (h : AnswersOk i s p) (h' : AnswersOk i s q) :
    p = q := by
  have hnext := Host.Outcome.next.inj (h.symm.trans h')
  simpa using congrArg State.resps hnext

/-- An instruction that answers a payload answers no error. -/
theorem AnswersOk.not_answersErr {i : Instr} {s : State} {p : Payload} {e : ErrCode} (h : AnswersOk i s p) :
    ¬ AnswersErr i s e := fun h' => by
  have hnext := Host.Outcome.next.inj (h.symm.trans h')
  simpa using congrArg State.resps hnext

theorem exec_fxEncode (x : FloatOp) (w n : BitVec 7) (sg : BitVec 1) (s : State) :
    exec (.fxEncode x w n sg) s = execFxEncode x w n sg s := rfl

theorem exec_fxDecode (bits : BitVec 64) (w n : BitVec 7) (sg : BitVec 1) (s : State) :
    exec (.fxDecode bits w n sg) s = execFxDecode bits w n sg s := rfl

theorem exec_fxDecode24 (b0 b1 b2 : Byte) (s : State) : exec (.fxDecode24 b0 b1 b2) s = execFxDecode24 b0 b1 b2 s := rfl

section Commands
variable {s : State} {x : FloatOp} {b : BitVec 64} {w n : BitVec 7} {sg : BitVec 1}

theorem answersErr_fxEncode_format (h : ¬ LegalFormat w.toNat n.toNat) :
    AnswersErr (.fxEncode x w n sg) s .fxFormat := by
  rw [AnswersErr, exec_fxEncode, execFxEncode, fxEncode_of_illegal h]
  rfl

theorem answersErr_fxEncode_range (h : LegalFormat w.toNat n.toNat)
    (ht : ∀ t, ¬ Encodes s.par.fxRound x w.toNat n.toNat (sg == 1) t) : AnswersErr (.fxEncode x w n sg) s .fxRange := by
  rw [AnswersErr, exec_fxEncode, execFxEncode, isSigned, fxEncode_of_not_encodes h ht]
  rfl

theorem answersOk_fxEncode {t : Int} (h : LegalFormat w.toNat n.toNat)
    (ht : Encodes s.par.fxRound x w.toNat n.toNat (sg == 1) t) (hb : (b.toNat : Int) = t % 2 ^ w.toNat) :
    AnswersOk (.fxEncode x w n sg) s (.pattern b) := by
  have hb' : BitVec.ofNat 64 (t % ((2 ^ w.toNat : Nat) : Int)).toNat = b :=
    BitVec.eq_of_toNat_eq (by exact_mod_cast (toNat_ofNat_emod h.le_64).trans hb.symm)
  rw [AnswersOk, exec_fxEncode, execFxEncode, isSigned, fxEncode_of_encodes h ht, ← hb']
  rfl

/-- FX_ENCODE answers a pattern only in a legal format, for an operand that encodes, and then the integer's pattern. -/
theorem answersOk_fxEncode_cases (h : AnswersOk (.fxEncode x w n sg) s (.pattern b)) :
    LegalFormat w.toNat n.toNat ∧
      ∃ t, Encodes s.par.fxRound x w.toNat n.toNat (sg == 1) t ∧ (b.toNat : Int) = t % 2 ^ w.toNat := by
  have hlegal : LegalFormat w.toNat n.toNat := by
    by_contra hf
    exact h.not_answersErr (answersErr_fxEncode_format hf)
  obtain ⟨t, ht⟩ : ∃ t, Encodes s.par.fxRound x w.toNat n.toNat (sg == 1) t := by
    by_contra hr
    exact h.not_answersErr (answersErr_fxEncode_range hlegal (not_exists.mp hr))
  have hpat := toNat_ofNat_emod (t := t) hlegal.le_64
  obtain rfl := Payload.pattern.inj (h.payload_eq (answersOk_fxEncode hlegal ht hpat))
  exact ⟨hlegal, t, ht, hpat⟩

theorem answersErr_fxDecode_format (h : ¬ LegalFormat w.toNat n.toNat) :
    AnswersErr (.fxDecode b w n sg) s .fxFormat := by
  rw [AnswersErr, exec_fxDecode, execFxDecode, fxDecode_of_illegal h]
  rfl

theorem answersOk_fxDecode (h : LegalFormat w.toNat n.toNat) :
    AnswersOk (.fxDecode b w n sg) s (.dyadic ⟨patternInt w.toNat (sg == 1) b.toNat, n.toNat⟩) := by
  rw [AnswersOk, exec_fxDecode, execFxDecode, isSigned, fxDecode_of_legal h]
  rfl

/-- FX_DECODE answers a value only in a legal format, and then the value of the pattern. -/
theorem answersOk_fxDecode_cases {d : Dy} (h : AnswersOk (.fxDecode b w n sg) s (.dyadic d)) :
    LegalFormat w.toNat n.toNat ∧ d = ⟨patternInt w.toNat (sg == 1) b.toNat, n.toNat⟩ := by
  have hlegal : LegalFormat w.toNat n.toNat := by
    by_contra hf
    exact h.not_answersErr (answersErr_fxDecode_format hf)
  exact ⟨hlegal, Payload.dyadic.inj (h.payload_eq (answersOk_fxDecode hlegal))⟩

end Commands

/-! ### Encoding and decoding (R130) -/

/-- The number `t / 2^n` is as many steps of `2^-n` from `r` as `t` is units from `r * 2^n`. -/
theorem abs_dyVal_sub (t : Int) (n : Nat) (r : ℚ) : |Dy.val ⟨t, n⟩ - r| = |(t : ℚ) - r * 2 ^ n| / 2 ^ n := by
  have hpos : (0 : ℚ) < 2 ^ n := by positivity
  have hsub : Dy.val ⟨t, n⟩ - r = ((t : ℚ) - r * 2 ^ n) / 2 ^ n := by
    rw [Dy.val, sub_div, mul_div_cancel_right₀ _ hpos.ne']
  rw [hsub, abs_div, abs_of_pos hpos]

theorem abs_dyVal_roundQ_sub_lt (mode : FxRound) (r : ℚ) (n : Nat) :
    |Dy.val ⟨roundQ mode (r * 2 ^ n), n⟩ - r| < 1 / 2 ^ n := by
  rw [abs_dyVal_sub]
  gcongr
  exact abs_roundQ_sub_lt mode _

theorem abs_dyVal_roundQ_rne_sub_le (r : ℚ) (n : Nat) :
    |Dy.val ⟨roundQ .rne (r * 2 ^ n), n⟩ - r| ≤ 1 / 2 ^ (n + 1) := by
  rw [abs_dyVal_sub, pow_succ', ← div_div, abs_sub_comm]
  gcongr
  exact abs_sub_roundQ_rne_le _

/-- A value of the format encodes to its own integer under every rounding. -/
theorem encodes_of_floatVal_eq_dyVal {x : FloatOp} {w n : Nat} {signed : Bool} {t : Int} (mode : FxRound)
    (hx : floatVal x = some (Dy.val ⟨t, n⟩)) (ht : inRange w signed t = true) : Encodes mode x w n signed t := by
  have hscaled : Dy.val ⟨t, n⟩ * 2 ^ n = (t : ℚ) := div_mul_cancel₀ _ (by positivity)
  refine ⟨_, hx, ?_, inRange_iff.mp ht⟩
  rw [hscaled, roundQ_intCast]

/-- Settles O27: a pattern denotes the one integer of the format that it is the pattern of, and an integer is rounded to
itself. -/
theorem encodeAndDecodeAgree : Obligations.EncodeAndDecodeAgree := by
  constructor
  · intro s x w n sg b h
    obtain ⟨hlegal, t, ht, hb⟩ := answersOk_fxEncode_cases h
    obtain ⟨-, hrange⟩ := encodes_iff.mp ht
    obtain ⟨r, hr, rfl, -⟩ := ht
    refine ⟨r, hr, ?_, abs_dyVal_roundQ_sub_lt _ _ _, fun hrne => ?_⟩
    · rw [← patternInt_of_inRange hlegal.one_le hrange (by rw [hb, Int.emod_emod])]
      exact answersOk_fxDecode hlegal
    · rw [hrne]
      exact abs_dyVal_roundQ_rne_sub_le _ _
  · intro s x f w n sg d h hx hf mode
    obtain ⟨hlegal, rfl⟩ := answersOk_fxDecode_cases h
    refine answersOk_fxEncode hlegal (encodes_of_floatVal_eq_dyVal mode hx (inRange_patternInt hlegal.one_le)) ?_
    rw [patternInt_emod hlegal.one_le, Int.emod_eq_of_lt (by omega) (by exact_mod_cast hf)]

/-- Settles O23: the pattern of the integer, or the error of the check that fails. -/
theorem fxEncodeReturnsThePattern : Obligations.FxEncodeReturnsThePattern := fun _ _ _ _ _ =>
  ⟨answersErr_fxEncode_format, answersErr_fxEncode_range, fun h _ ht =>
    have hb := toNat_ofNat_emod (LegalFormat.le_64 h)
    ⟨_, hb, answersOk_fxEncode h ht hb⟩⟩

/-- Settles O24: the pattern's integer, read by the signedness bit. -/
theorem fxDecodeReturnsTheExactValue : Obligations.FxDecodeReturnsTheExactValue := by
  refine fun s bits w n sg => ⟨fun h => ⟨answersErr_fxDecode_format h, fun x => answersErr_fxEncode_format h⟩,
    fun h => ⟨_, answersOk_fxDecode h, ?_, ?_⟩⟩
  · rintro rfl
    exact patternInt_unsigned
  · rintro rfl
    have hw := LegalFormat.one_le h
    obtain ⟨hmin, hmax⟩ := inRange_iff.mp (inRange_patternInt (signed := true) (bits := bits.toNat) hw)
    exact ⟨hmin, Int.lt_of_le_sub_one hmax, patternInt_emod hw⟩

/-! ### FX_DECODE24 (R127 to R129) -/

/-- Prepending the sign byte keeps a byte's signed reading (R127). -/
theorem toInt_signByte_append (b0 : Byte) :
    ((if b0.msb then (0xFF : Byte) else 0x00) ++ b0).toInt = b0.toInt := by
  rw [BitVec.toInt_append, BitVec.toInt_eq_msb_cond b0]
  cases b0.msb <;> simp [sub_eq_neg_add]

theorem toInt_append_byte {k : Nat} (x : BitVec (k + 1)) (y : Byte) : (x ++ y).toInt = 256 * x.toInt + y.toNat :=
  BitVec.toInt_append

/-- The 32-bit reading of the extended bytes is the 24-bit reading of the bytes (R128). -/
theorem toInt_signByte_append_bytes (b0 b1 b2 : Byte) :
    ((if b0.msb then (0xFF : Byte) else 0x00) ++ b0 ++ b1 ++ b2 : Word).toInt = (b0 ++ b1 ++ b2 : BitVec 24).toInt := by
  refine (toInt_append_byte (k := 23) _ b2).trans (Eq.trans ?_ (toInt_append_byte (k := 15) _ b2).symm)
  rw [toInt_append_byte (k := 15) (_ ++ b0) b1, toInt_append_byte (k := 7) b0 b1, toInt_signByte_append]

theorem raw24_eq (b0 b1 b2 : Byte) : raw24 b0 b1 b2 = (if b0.msb then (0xFF : Byte) else 0x00) ++ b0 ++ b1 ++ b2 := rfl

theorem dec24_eq_toInt (b0 b1 b2 : Byte) : dec24 b0 b1 b2 = (b0 ++ b1 ++ b2 : BitVec 24).toInt := by
  rw [dec24, signedOf_eq_toInt _ _ (by omega), BitVec.ofNat_toNat, BitVec.setWidth_eq, raw24_eq,
    toInt_signByte_append_bytes]

theorem answersOk_fxDecode24 (b0 b1 b2 : Byte) (s : State) :
    AnswersOk (.fxDecode24 b0 b1 b2) s
      (.dec24 (raw24 b0 b1 b2) (b0 ++ b1 ++ b2 : BitVec 24).toInt ⟨(b0 ++ b1 ++ b2 : BitVec 24).toInt, 10⟩) := by
  rw [← dec24_eq_toInt]
  rfl

/-- The 24-bit signed format reads a zero-extended 24-bit pattern as its signed number. -/
theorem patternInt_setWidth (v : BitVec 24) : patternInt 24 true (v.setWidth 64).toNat = v.toInt := by
  rw [patternInt_signed (by omega), BitVec.ofNat_toNat, BitVec.setWidth_setWidth_of_le v (by omega), BitVec.setWidth_eq]

/-- Settles O25: the sign byte keeps the signed reading, and both commands read the same 24 bits. -/
theorem fxDecode24SignExtends : Obligations.FxDecode24SignExtends := by
  intro s b0 b1 b2
  refine ⟨answersOk_fxDecode24 b0 b1 b2 s, toInt_signByte_append_bytes b0 b1 b2, ?_⟩
  rw [← patternInt_setWidth]
  exact answersOk_fxDecode (by decide)

/-! ### Result values as floating-point numbers (R129) -/

/-- The sign of an operand with sign bit `neg`. -/
def signVal (neg : Bool) : ℚ := if neg then -1 else 1

/-- A positive integer of at most `mb + 1` bits is its leading bit times a significand `1.f`. -/
theorem exists_significand {mb a : Nat} (ha : 0 < a) (hfit : a < 2 ^ (mb + 1)) :
    ∃ l f : Nat, l ≤ mb ∧ f < 2 ^ mb ∧ (a : ℚ) = (1 + (f : ℚ) / 2 ^ mb) * 2 ^ l := by
  have hlog : Nat.log2 a < mb + 1 := (Nat.log2_lt ha.ne').mpr hfit
  have hlo : 2 ^ Nat.log2 a ≤ a := Nat.log2_self_le ha.ne'
  have hhi : a < 2 ^ (Nat.log2 a + 1) := Nat.lt_log2_self
  generalize Nat.log2 a = l at hlog hlo hhi
  obtain ⟨j, rfl⟩ : ∃ j, mb = l + j := Nat.exists_eq_add_of_le (by omega)
  have hf : a - 2 ^ l < 2 ^ l := by
    rw [pow_succ] at hhi
    omega
  refine ⟨l, (a - 2 ^ l) * 2 ^ j, by omega, ?_, ?_⟩
  · rw [pow_add]
    exact Nat.mul_lt_mul_of_pos_right hf (by positivity)
  · push_cast [Nat.cast_sub hlo]
    field_simp
    ring

/-- A positive integer that fits the significand, over `2^n`, is a normal number. -/
theorem exists_ieeeVal_eq {eb mb bias n a : Nat} (neg : Bool) (ha : 0 < a) (hfit : a < 2 ^ (mb + 1)) (hn : n < bias)
    (hmax : mb + bias < 2 ^ eb - 1 + n) :
    ∃ e f, e < 2 ^ eb ∧ f < 2 ^ mb ∧ ieeeVal eb mb bias neg e f = some (signVal neg * ((a : ℚ) / 2 ^ n)) := by
  obtain ⟨l, f, hl, hf, hval⟩ := exists_significand ha hfit
  have hexp : ((l + bias - n : Nat) : Int) - (bias : Int) = (l : Int) - (n : Int) := by omega
  refine ⟨l + bias - n, f, by omega, hf, ?_⟩
  rw [ieeeVal, if_neg (by omega), if_neg (by omega), hexp, zpow_sub₀ two_ne_zero, zpow_natCast, zpow_natCast, hval,
    signVal, mul_assoc, ← mul_div_assoc]

theorem ieeeVal_zero {eb : Nat} (mb : Nat) (bias : Int) (neg : Bool) (h : 2 ^ eb - 1 ≠ 0) :
    ieeeVal eb mb bias neg 0 0 = some 0 := by
  simp [ieeeVal, h.symm]

/-- A signed integer whose magnitude fits the significand, over `2^n`, is a number of the format. -/
theorem exists_ieeeVal_eq_intCast_div {eb mb bias n : Nat} (k : Int) (hfit : k.natAbs < 2 ^ (mb + 1)) (hn : n < bias)
    (hmax : mb + bias < 2 ^ eb - 1 + n) :
    ∃ neg e f, e < 2 ^ eb ∧ f < 2 ^ mb ∧ ieeeVal eb mb bias neg e f = some ((k : ℚ) / 2 ^ n) := by
  obtain rfl | hk := eq_or_ne k 0
  · refine ⟨false, 0, 0, by positivity, by positivity, ?_⟩
    rw [ieeeVal_zero _ _ _ (by omega), Int.cast_zero, zero_div]
  · obtain ⟨e, f, he, hf, h⟩ := exists_ieeeVal_eq (decide (k < 0)) (Int.natAbs_pos.mpr hk) hfit hn hmax
    have hsign : signVal (decide (k < 0)) * (k.natAbs : ℚ) = (k : ℚ) := by
      rw [Nat.cast_natAbs, Int.cast_abs]
      obtain hlt | hge := lt_or_ge k 0
      · simp [signVal, hlt, abs_of_neg (Int.cast_lt_zero.mpr hlt : (k : ℚ) < 0)]
      · simp [signVal, hge.not_gt, abs_of_nonneg (Int.cast_nonneg hge : (0 : ℚ) ≤ k)]
    exact ⟨_, e, f, he, hf, by rw [h, ← mul_div_assoc, hsign]⟩

/-- The three fields of a pattern built from a sign, an exponent and a fraction. -/
theorem floatFields_append {eb mb : Nat} (neg : Bool) (e : BitVec eb) (f : BitVec mb) :
    (BitVec.ofBool neg ++ e ++ f).getLsbD (mb + eb) = neg ∧ (BitVec.ofBool neg ++ e ++ f).extractLsb' mb eb = e ∧
      (BitVec.ofBool neg ++ e ++ f).extractLsb' 0 mb = f := by
  refine ⟨?_, ?_, BitVec.extractLsb'_append_eq_right⟩
  · rw [BitVec.getLsbD_append, BitVec.getLsbD_append]
    simp
  · rw [BitVec.extractLsb'_append_eq_of_le le_rfl, Nat.sub_self, BitVec.extractLsb'_append_eq_right]

theorem exists_floatVal_b32 (neg : Bool) {e f : Nat} (he : e < 2 ^ 8) (hf : f < 2 ^ 23) :
    ∃ v, floatVal (.b32 v) = ieeeVal 8 23 127 neg e f := by
  obtain ⟨hsign, hexp, hfrac⟩ := floatFields_append neg (BitVec.ofNat 8 e) (BitVec.ofNat 23 f)
  refine ⟨BitVec.ofBool neg ++ BitVec.ofNat 8 e ++ BitVec.ofNat 23 f, ?_⟩
  rw [floatVal, hsign, hexp, hfrac, BitVec.toNat_ofNat, BitVec.toNat_ofNat, Nat.mod_eq_of_lt he, Nat.mod_eq_of_lt hf]

theorem exists_floatVal_b64 (neg : Bool) {e f : Nat} (he : e < 2 ^ 11) (hf : f < 2 ^ 52) :
    ∃ v, floatVal (.b64 v) = ieeeVal 11 52 1023 neg e f := by
  obtain ⟨hsign, hexp, hfrac⟩ := floatFields_append neg (BitVec.ofNat 11 e) (BitVec.ofNat 52 f)
  refine ⟨BitVec.ofBool neg ++ BitVec.ofNat 11 e ++ BitVec.ofNat 52 f, ?_⟩
  rw [floatVal, hsign, hexp, hfrac, BitVec.toNat_ofNat, BitVec.toNat_ofNat, Nat.mod_eq_of_lt he, Nat.mod_eq_of_lt hf]

/-- Settles O26: 24 signed bits hold `k`, and both significands hold its magnitude. -/
theorem resultValuesAreExactFloats : Obligations.ResultValuesAreExactFloats := by
  constructor
  · intro s b0 b1 b2
    exact ⟨_, _, BitVec.le_toInt _, Int.le_sub_one_of_lt BitVec.toInt_lt, answersOk_fxDecode24 b0 b1 b2 s⟩
  · intro k hmin hmax fmt
    rw [show (1024 : ℚ) = 2 ^ 10 by norm_num]
    cases fmt with
    | binary32 =>
      obtain ⟨neg, e, f, he, hf, h⟩ :=
        exists_ieeeVal_eq_intCast_div (eb := 8) (mb := 23) (bias := 127) (n := 10) k (by omega) (by omega) (by omega)
      obtain ⟨v, hv⟩ := exists_floatVal_b32 neg he hf
      exact ⟨.b32 v, rfl, hv.trans h⟩
    | binary64 =>
      obtain ⟨neg, e, f, he, hf, h⟩ :=
        exists_ieeeVal_eq_intCast_div (eb := 11) (mb := 52) (bias := 1023) (n := 10) k (by omega) (by omega) (by omega)
      obtain ⟨v, hv⟩ := exists_floatVal_b64 neg he hf
      exact ⟨.b64 v, rfl, hv.trans h⟩

end Sys2Proof.Machine
end

section
/-! PROOFS. The channel address table (spec/42_address_table.md R139 to R144). -/

namespace Sys2Proof.Machine

open Sys2Proof

/-! ### The channel check (R139) -/

theorem validCh_iff {c : BitVec 5} : validCh c = true ↔ IsChannel c := by
  rw [validCh, Bool.and_eq_true, decide_eq_true_iff, decide_eq_true_iff]
  rfl

theorem checkChannel_of_isChannel {c : BitVec 5} (h : IsChannel c) : checkChannel c = .ok () :=
  if_pos (validCh_iff.mpr h)

theorem checkChannel_of_not_isChannel {c : BitVec 5} (h : ¬ IsChannel c) : checkChannel c = .error .channel :=
  if_neg (mt validCh_iff.mp h)

theorem checkChannels_of_forall {cs : List (BitVec 5)} (h : ∀ c ∈ cs, IsChannel c) : checkChannels cs = .ok () := by
  induction cs with
  | nil => rfl
  | cons c cs ih =>
    obtain ⟨hc, hcs⟩ := List.forall_mem_cons.mp h
    rw [checkChannels, checkChannel_of_isChannel hc, ih hcs]
    rfl

/-- One bad ordinal, wherever it stands in the list, is reported (R143). -/
theorem checkChannels_of_exists {cs : List (BitVec 5)} (h : ∃ c ∈ cs, ¬ IsChannel c) :
    checkChannels cs = .error .channel := by
  induction cs with
  | nil => simp at h
  | cons c cs ih =>
    rw [checkChannels]
    by_cases hc : IsChannel c
    · have hcs : ∃ c ∈ cs, ¬ IsChannel c := by simpa [hc] using h
      rw [checkChannel_of_isChannel hc, ih hcs]
      rfl
    · rw [checkChannel_of_not_isChannel hc]
      rfl

section Commands
variable {i : Instr} {s : State} {c : BitVec 5}

/-- A command whose answer begins with the channel check answers `E_CHANNEL` when the check fails, whatever follows the
check (R139). -/
theorem answersErr_of_not_isChannel {k : Unit → Except ErrCode Payload}
    (hexec : exec i s = answer (checkChannel c >>= k) s) (h : ¬ IsChannel c) : AnswersErr i s .channel := by
  rw [AnswersErr, hexec, checkChannel_of_not_isChannel h]
  rfl

/-- A command that only checks its channel and answers a payload answers that payload for a channel. -/
theorem answersOk_of_isChannel {p : Payload} (hexec : exec i s = answer (checkChannel c >>= fun _ => .ok p) s)
    (h : IsChannel c) : AnswersOk i s p := by
  rw [AnswersOk, hexec, checkChannel_of_isChannel h]
  rfl

/-! ### The table's commands (R140 to R143) -/

theorem exec_chStartAddr (c : BitVec 5) (s : State) :
    exec (.chStartAddr c) s = answer (checkChannel c >>= fun _ => .ok (.addr (startAddr c))) s := rfl

theorem exec_chResultAddr (c : BitVec 5) (s : State) :
    exec (.chResultAddr c) s = answer (checkChannel c >>= fun _ => .ok (.addr (resultAddr c))) s := rfl

theorem exec_chMask (c : BitVec 5) (s : State) :
    exec (.chMask c) s = answer (checkChannel c >>= fun _ => .ok (.mask (chanMask c))) s := rfl

theorem exec_chMaskSet (cs : List (BitVec 5)) (s : State) :
    exec (.chMaskSet cs) s = answer (checkChannels cs >>= fun _ => .ok (.mask (maskOf cs))) s := rfl

theorem answersOk_chStartAddr (h : IsChannel c) : AnswersOk (.chStartAddr c) s (.addr (startAddr c)) :=
  answersOk_of_isChannel (exec_chStartAddr c s) h

theorem answersOk_chResultAddr (h : IsChannel c) : AnswersOk (.chResultAddr c) s (.addr (resultAddr c)) :=
  answersOk_of_isChannel (exec_chResultAddr c s) h

theorem answersOk_chMask (h : IsChannel c) : AnswersOk (.chMask c) s (.mask (chanMask c)) :=
  answersOk_of_isChannel (exec_chMask c s) h

theorem answersOk_chMaskSet {cs : List (BitVec 5)} (h : ∀ c ∈ cs, IsChannel c) :
    AnswersOk (.chMaskSet cs) s (.mask (maskOf cs)) := by
  rw [AnswersOk, exec_chMaskSet, checkChannels_of_forall h]
  rfl

theorem answersErr_chMaskSet {cs : List (BitVec 5)} (h : ∃ c ∈ cs, ¬ IsChannel c) :
    AnswersErr (.chMaskSet cs) s .channel := by
  rw [AnswersErr, exec_chMaskSet, checkChannels_of_exists h]
  rfl

end Commands

/-! ### The table's values (R140 to R143) -/

section Values
variable {c d : BitVec 5}

theorem startAddr_toNat (c : BitVec 5) : (startAddr c).toNat = 0x200 + 4 * (c.toNat - 1) := by
  rw [startAddr, BitVec.toNat_ofNat, Nat.mod_eq_of_lt]
  omega

theorem resultAddr_toNat (c : BitVec 5) : (resultAddr c).toNat = 0x010 + 4 * (c.toNat - 1) := by
  rw [resultAddr, BitVec.toNat_ofNat, Nat.mod_eq_of_lt]
  omega

theorem chanMask_toNat (c : BitVec 5) : (chanMask c).toNat = 2 ^ (c.toNat - 1) := by
  rw [chanMask, BitVec.toNat_ofNat, Nat.one_shiftLeft, Nat.mod_eq_of_lt]
  exact Nat.pow_lt_pow_right (by omega) (by omega)

theorem startAddr_ne_resultAddr (hd : IsChannel d) (c : BitVec 5) : startAddr c ≠ resultAddr d := by
  intro h
  have hnat := congrArg BitVec.toNat h
  rw [startAddr_toNat, resultAddr_toNat] at hnat
  obtain ⟨-, hd20⟩ := hd
  omega

/-- Distinct channels stand in distinct places of the table, counted from 0. -/
theorem pred_toNat_inj (hc : IsChannel c) (hd : IsChannel d) : c.toNat - 1 = d.toNat - 1 ↔ c = d := by
  obtain ⟨hc1, -⟩ := hc
  obtain ⟨hd1, -⟩ := hd
  rw [← BitVec.toNat_inj]
  omega

theorem startAddr_inj (hc : IsChannel c) (hd : IsChannel d) : startAddr c = startAddr d ↔ c = d := by
  rw [← BitVec.toNat_inj, startAddr_toNat, startAddr_toNat, ← pred_toNat_inj hc hd]
  omega

theorem resultAddr_inj (hc : IsChannel c) (hd : IsChannel d) : resultAddr c = resultAddr d ↔ c = d := by
  rw [← BitVec.toNat_inj, resultAddr_toNat, resultAddr_toNat, ← pred_toNat_inj hc hd]
  omega

theorem chanMask_inj (hc : IsChannel c) (hd : IsChannel d) : chanMask c = chanMask d ↔ c = d := by
  rw [← BitVec.toNat_inj, chanMask_toNat, chanMask_toNat, ← pred_toNat_inj hc hd]
  exact Nat.pow_right_inj (by omega)

/-- The one bit of a channel's mask (R142). -/
theorem getLsbD_chanMask (hc : IsChannel c) (j : Nat) : (chanMask c).getLsbD j = true ↔ c.toNat = j + 1 := by
  obtain ⟨hc1, -⟩ := hc
  rw [← BitVec.testBit_toNat, chanMask_toNat, Nat.testBit_two_pow, decide_eq_true_iff]
  omega

/-- The bits of the OR of the masks are those of its channels (R143). -/
theorem getLsbD_maskOf {cs : List (BitVec 5)} (h : ∀ c ∈ cs, IsChannel c) (j : Nat) :
    (maskOf cs).getLsbD j = true ↔ ∃ c ∈ cs, c.toNat = j + 1 := by
  induction cs with
  | nil => simp [maskOf]
  | cons c cs ih =>
    obtain ⟨hc, hcs⟩ := List.forall_mem_cons.mp h
    rw [maskOf, BitVec.getLsbD_or, Bool.or_eq_true, getLsbD_chanMask hc, ih hcs, List.exists_mem_cons_iff]

/-- No channel is above 20, so no bit of a mask is at or above bit 20 (R77). -/
theorem maskOf_lt {cs : List (BitVec 5)} (h : ∀ c ∈ cs, IsChannel c) : (maskOf cs).toNat < 2 ^ 20 := by
  refine Nat.lt_pow_two_of_testBit _ fun j hj => Bool.eq_false_iff.mpr fun hbit => ?_
  rw [BitVec.testBit_toNat] at hbit
  obtain ⟨c, hmem, hc⟩ := (getLsbD_maskOf h j).mp hbit
  obtain ⟨-, hc20⟩ := h c hmem
  omega

end Values

/-! ### The obligations -/

/-- Settles O28: every one of the nine commands begins with the channel check. -/
theorem badChannelsAnswerEChannel : Obligations.BadChannelsAnswerEChannel := by
  intro s ch h
  have bad {i : Instr} {k : Unit → Except ErrCode Payload} (hexec : exec i s = answer (checkChannel ch >>= k) s) :
      AnswersErr i s .channel := answersErr_of_not_isChannel hexec h
  exact ⟨bad (exec_chStartAddr ch s), bad (exec_chResultAddr ch s), bad (exec_chMask ch s), bad rfl, bad rfl,
    fun _ _ _ _ _ => bad rfl, fun _ => bad rfl, fun _ _ _ _ _ _ => bad rfl, fun _ => bad rfl⟩

/-- Settles O30: the check of the whole list, then the bits of the OR. -/
theorem chMaskSetSelectsItsChannels : Obligations.ChMaskSetSelectsItsChannels := fun _ _ =>
  ⟨answersErr_chMaskSet, fun h => ⟨_, answersOk_chMaskSet h, fun j _ => getLsbD_maskOf h j, maskOf_lt h⟩⟩

/-- Settles O31: the model's own three tables, one-to-one on the channels. -/
theorem channelTableIsOneToOne : Obligations.ChannelTableIsOneToOne := by
  refine ⟨startAddr, resultAddr, chanMask, fun s c hc => ?_, fun c _ => ?_, fun c d hc hd => ?_⟩
  · exact ⟨answersOk_chStartAddr hc, answersOk_chResultAddr hc, answersOk_chMask hc⟩
  · exact ⟨startAddr_toNat c, resultAddr_toNat c, chanMask_toNat c⟩
  · refine ⟨startAddr_ne_resultAddr hd c, fun hne => ⟨?_, ?_, ?_⟩⟩
    · exact mt (startAddr_inj hc hd).mp hne
    · exact mt (resultAddr_inj hc hd).mp hne
    · exact mt (chanMask_inj hc hd).mp hne

/-- Settles O29: the channel check, then the table's value. -/
theorem channelTableAnswers : Obligations.ChannelTableAnswers := by
  refine fun s c => ⟨fun h => ⟨?_, ?_, ?_⟩, fun h => ?_⟩
  · exact answersErr_of_not_isChannel (exec_chStartAddr c s) h
  · exact answersErr_of_not_isChannel (exec_chResultAddr c s) h
  · exact answersErr_of_not_isChannel (exec_chMask c s) h
  · exact ⟨startAddr c, resultAddr c, chanMask c, startAddr_toNat c, resultAddr_toNat c, chanMask_toNat c,
      answersOk_chStartAddr h, answersOk_chResultAddr h, answersOk_chMask h⟩

end Sys2Proof.Machine
end

section
/-! PROOFS. The configuration assembler (spec/43_config_assembler.md R150 to R165) and the two read requests. -/

namespace Sys2Proof.Machine

open Sys2Proof

/-! ### Answers -/

/-- A computation of a command that comes to a value has come through its first part. -/
theorem bind_eq_ok {α β : Type} {x : Except ErrCode α} {f : α → Except ErrCode β} {b : β} (h : x >>= f = .ok b) :
    ∃ a, x = .ok a ∧ f a = .ok b := by
  cases x with
  | ok a => exact ⟨a, rfl, h⟩
  | error e => cases h

section Answer
variable {i : Instr} {s : State} {r : Except ErrCode Payload}

theorem answersOk_of_answer {p : Payload} (hexec : exec i s = answer r s) (h : r = .ok p) : AnswersOk i s p := by
  rw [AnswersOk, hexec, h, answer_ok]

theorem answersErr_of_answer {e : ErrCode} (hexec : exec i s = answer r s) (h : r = .error e) : AnswersErr i s e := by
  rw [AnswersErr, hexec, h, answer_error]

/-- A command that answers `Ok(p)` has computed `p`. -/
theorem answer_eq_ok {p : Payload} (hexec : exec i s = answer r s) (h : AnswersOk i s p) : r = .ok p := by
  cases r with
  | ok q => rw [(answersOk_of_answer hexec rfl).payload_eq h]
  | error e => exact absurd (answersErr_of_answer hexec rfl) h.not_answersErr

end Answer

/-! ### Bytes of a transaction (R79, R80) -/

/-- The two bytes of an address given as a number: its quotient and its remainder by 256. -/
theorem addrBytes_ofNat (n : Nat) :
    addrBytes (BitVec.ofNat 16 n) = [BitVec.ofNat 8 (n / 256), BitVec.ofNat 8 (n % 256)] := by
  have hhigh : (BitVec.ofNat 16 n).extractLsb' 8 8 = BitVec.ofNat 8 (n / 256) := by
    apply BitVec.eq_of_toNat_eq
    rw [BitVec.extractLsb'_toNat, BitVec.toNat_ofNat, BitVec.toNat_ofNat, Nat.shiftRight_eq_div_pow]
    omega
  have hlow : (BitVec.ofNat 16 n).extractLsb' 0 8 = BitVec.ofNat 8 (n % 256) := by
    apply BitVec.eq_of_toNat_eq
    rw [BitVec.extractLsb'_toNat, BitVec.toNat_ofNat, BitVec.toNat_ofNat, Nat.shiftRight_zero]
    omega
  rw [addrBytes, hhigh, hlow]

theorem txnReadBytes_ofNat (n : Nat) :
    txnReadBytes (BitVec.ofNat 16 n) = [0x03, BitVec.ofNat 8 (n / 256), BitVec.ofNat 8 (n % 256)] := by
  rw [txnReadBytes, addrBytes_ofNat]

/-- The transaction that the build commands return, byte by byte (R151). -/
theorem txnWriteBytes_startAddr (ch : BitVec 5) (w : Word) : txnWriteBytes (startAddr ch) w = writeTransaction ch w := by
  rw [txnWriteBytes, startAddr, addrBytes_ofNat]
  rfl

/-! ### The built words (R150, R151) -/

/-- The payload of a build command: the word and its write transaction. -/
def buildPayload (ch : BitVec 5) (w : Word) : Payload := .build w (writeTransaction ch w)

theorem word_eq_of_buildPayload {ch : BitVec 5} {v w : Word} {txn : List Byte}
    (h : buildPayload ch v = .build w txn) : w = v := (Payload.build.inj h).1.symm

theorem buildAnswer_eq {ch : BitVec 5} {fs : List Field} {w : Word} (h : assembleWord fs = .ok w) :
    buildAnswer ch fs = .ok (buildPayload ch w) := by
  rw [buildPayload, ← txnWriteBytes_startAddr, buildAnswer, h]
  rfl

/-- The word of CFG_TC's operands (R154). -/
abbrev builtTcWord (p : Params) (tc : BitVec 3) (cj : BitVec 5) (mode : BitVec 1) (exc : BitVec 3)
    (caddr : BitVec 12) : Word := tcWord (tcId p.probeId tc) cj mode exc 0 caddr

/-- The word of CFG_RSENSE's resistance value (R156). -/
abbrev builtRsenseWord (p : Params) (rv : Nat) : Word := rsenseWord p.probeId.rsense (BitVec.ofNat 27 rv)

/-- The word of CFG_DIODE's operands and ideality value (R158). -/
abbrev builtDiodeWord (p : Params) (mode rd avg : BitVec 1) (exc : BitVec 2) (id : Nat) : Word :=
  diodeWord p.probeId.diode mode rd avg exc (BitVec.ofNat 22 id)

theorem exec_cfgTc (ch : BitVec 5) (tc : BitVec 3) (cj : BitVec 5) (mode : BitVec 1) (exc : BitVec 3)
    (caddr : BitVec 12) (s : State) :
    exec (.cfgTc ch tc cj mode exc caddr) s =
      answer
        (checkChannel ch >>= fun _ => checkColdJunction cj >>= fun _ =>
          .ok (buildPayload ch (builtTcWord s.par tc cj mode exc caddr)))
        s := by
  simp only [← buildAnswer_eq (assembleWord_tcFields s.par tc cj mode exc caddr)]
  rfl

theorem exec_cfgRsense (ch : BitVec 5) (r : FloatOp) (s : State) :
    exec (.cfgRsense ch r) s =
      answer
        (checkChannel ch >>= fun _ => fxEncode s.par.fxRound r 27 s.par.rsenseFrac false >>= fun rv =>
          .ok (buildPayload ch (builtRsenseWord s.par rv)))
        s := by
  simp only [← buildAnswer_eq (assembleWord_rsenseFields s.par _)]
  rfl

theorem exec_cfgDiode (ch : BitVec 5) (mode rd avg : BitVec 1) (exc : BitVec 2) (hasEta : BitVec 1) (eta : FloatOp)
    (s : State) :
    exec (.cfgDiode ch mode rd avg exc hasEta eta) s =
      answer
        (checkChannel ch >>= fun _ => idealValue s.par hasEta eta >>= fun id =>
          .ok (buildPayload ch (builtDiodeWord s.par mode rd avg exc id)))
        s := by
  simp only [← buildAnswer_eq (assembleWord_diodeFields s.par mode rd avg exc _)]
  rfl

theorem exec_cfgUnsup (ch : BitVec 5) (fam : BitVec 2) (s : State) :
    exec (.cfgUnsup ch fam) s = answer (checkChannel ch >>= fun _ => .error .unsupported) s := rfl

theorem exec_cfgDecode (word : Word) (s : State) :
    exec (.cfgDecode word) s =
      answer (classAnswer s.par (classify s.par.probeId (word.extractLsb' 27 5)) word) s := rfl

theorem exec_cfgCheck (word : Word) (s : State) :
    exec (.cfgCheck word) s =
      answer (if word.extractLsb' 27 5 = 0 then .error .notConfigured else .ok (.pid (word.extractLsb' 27 5))) s := rfl

theorem exec_cfgReadReq (ch : BitVec 5) (s : State) :
    exec (.cfgReadReq ch) s = answer (checkChannel ch >>= fun _ => .ok (.request (txnReadBytes (startAddr ch)))) s := rfl

theorem exec_resReadReq (ch : BitVec 5) (s : State) :
    exec (.resReadReq ch) s = answer (checkChannel ch >>= fun _ => .ok (.request (txnReadBytes (resultAddr ch)))) s := rfl

/-! ### CFG_TC (R154, R155, R165) -/

theorem checkColdJunction_of_le {cj : BitVec 5} (h : cj.toNat ≤ 20) : checkColdJunction cj = .ok () := if_pos h

theorem checkColdJunction_of_gt {cj : BitVec 5} (h : 20 < cj.toNat) : checkColdJunction cj = .error .field :=
  if_neg (Nat.not_le.mpr h)

/-- The table's entry of a type index is its identifier (R70). -/
theorem ids_getElem?_toNat (p : ProbeId) (t : BitVec 3) : p.ids[t.toNat]? = some (tcId p t) := by
  have ht : t ∈ ([0, 1, 2, 3, 4, 5, 6, 7] : List (BitVec 3)) := by
    revert t
    decide
  fin_cases ht <;> rfl

section Tc
variable {s : State} {ch : BitVec 5} {tc : BitVec 3} {cj : BitVec 5} {mode : BitVec 1} {exc : BitVec 3}
  {caddr : BitVec 12}

theorem answersErr_cfgTc_field (hch : IsChannel ch) (hcj : 20 < cj.toNat) :
    AnswersErr (.cfgTc ch tc cj mode exc caddr) s .field := by
  apply answersErr_of_answer (exec_cfgTc ch tc cj mode exc caddr s)
  rw [checkChannel_of_isChannel hch, checkColdJunction_of_gt hcj]
  rfl

theorem answersOk_cfgTc (hch : IsChannel ch) (hcj : cj.toNat ≤ 20) :
    AnswersOk (.cfgTc ch tc cj mode exc caddr) s (buildPayload ch (builtTcWord s.par tc cj mode exc caddr)) := by
  apply answersOk_of_answer (exec_cfgTc ch tc cj mode exc caddr s)
  rw [checkChannel_of_isChannel hch, checkColdJunction_of_le hcj]
  rfl

/-- CFG_TC answers no other word than that of its operands. -/
theorem word_eq_of_answersOk_cfgTc {word : Word} {txn : List Byte}
    (h : AnswersOk (.cfgTc ch tc cj mode exc caddr) s (.build word txn)) :
    word = builtTcWord s.par tc cj mode exc caddr := by
  obtain ⟨_, -, h⟩ := bind_eq_ok (answer_eq_ok (exec_cfgTc ch tc cj mode exc caddr s) h)
  obtain ⟨_, -, h⟩ := bind_eq_ok h
  exact word_eq_of_buildPayload (Except.ok.inj h)

end Tc

/-! ### The codec's values in a field (R131) -/

/-- The resistance format is legal under all admissible parameters (R132, D17). -/
theorem Params.ok_rsenseFormat {p : Params} (h : p.ok = true) : LegalFormat 27 p.rsenseFrac := by
  simp only [Params.ok, Bool.and_eq_true, Bool.or_eq_true, beq_iff_eq] at h
  obtain ⟨⟨⟨⟨-, hfrac⟩, -⟩, -⟩, -⟩ := h
  exact ⟨by omega, by omega, by omega⟩

/-- The width of an ideality factor before it is masked (D18). -/
theorem Params.ok_idealPremaskW {p : Params} (h : p.ok = true) : 22 ≤ p.idealPremaskW ∧ p.idealPremaskW ≤ 64 := by
  simp only [Params.ok, Bool.and_eq_true, decide_eq_true_iff] at h
  obtain ⟨⟨⟨-, hmin⟩, hmax⟩, -⟩ := h
  exact ⟨hmin, hmax⟩

/-- The ideality format is legal under all admissible parameters (R131, D18). -/
theorem Params.ok_idealFormat {p : Params} (h : p.ok = true) : LegalFormat p.idealPremaskW 20 := by
  obtain ⟨hmin, hmax⟩ := Params.ok_idealPremaskW h
  exact ⟨by omega, hmax, by omega⟩

/-- A field takes the low bits of the codec's pattern, which are those of the integer (R102, R124). -/
theorem ofNat_toNat_emod_two_pow {k w : Nat} (h : k ≤ w) (t : Int) :
    BitVec.ofNat k (t % ((2 ^ w : Nat) : Int)).toNat = BitVec.ofInt k t := by
  have hpos : ((2 ^ w : Nat) : Int) ≠ 0 := by positivity
  have hdvd : ((2 ^ k : Nat) : Int) ∣ ((2 ^ w : Nat) : Int) := by exact_mod_cast pow_dvd_pow 2 h
  rw [← BitVec.ofInt_natCast, Int.toNat_of_nonneg (Int.emod_nonneg t hpos)]
  apply BitVec.eq_of_toNat_eq
  rw [BitVec.toNat_ofInt, BitVec.toNat_ofInt, Int.emod_emod_of_dvd t hdvd]

/-- The codec comes to a pattern only for an operand that encodes, and then to the integer's. -/
theorem encodes_of_fxEncode_eq_ok {mode : FxRound} {x : FloatOp} {w n v : Nat} {signed : Bool} (hf : LegalFormat w n)
    (h : fxEncode mode x w n signed = .ok v) :
    ∃ t, Encodes mode x w n signed t ∧ v = (t % ((2 ^ w : Nat) : Int)).toNat := by
  by_cases ht : ∃ t, Encodes mode x w n signed t
  · obtain ⟨t, ht⟩ := ht
    exact ⟨t, ht, Except.ok.inj (h.symm.trans (fxEncode_of_encodes hf ht))⟩
  · rw [fxEncode_of_not_encodes hf (not_exists.mp ht)] at h
    cases h

/-- The ideality field takes the low 22 bits of the ideality value, which has at least as many (R131). -/
theorem ofNat_idealPattern {p : Params} (h : p.ok = true) (t : Int) :
    BitVec.ofNat 22 (t % ((2 ^ p.idealPremaskW : Nat) : Int)).toNat = BitVec.ofInt 22 t := by
  obtain ⟨hmin, -⟩ := Params.ok_idealPremaskW h
  exact ofNat_toNat_emod_two_pow hmin t

/-- An unsigned field holds the integer of its own format. -/
theorem toNat_ofInt_of_encodes {mode : FxRound} {x : FloatOp} {w n : Nat} {t : Int} (h : Encodes mode x w n false t) :
    ((BitVec.ofInt w t).toNat : Int) = t := by
  obtain ⟨-, -, -, hmin, hmax⟩ := h
  rw [BitVec.toNat_ofInt, Int.toNat_of_nonneg (Int.emod_nonneg t (by positivity))]
  exact Int.emod_eq_of_lt hmin (by exact_mod_cast Int.lt_of_le_sub_one hmax)

/-! ### CFG_RSENSE (R156) -/

section Rsense
variable {s : State} {ch : BitVec 5} {r : FloatOp}

theorem answersErr_cfgRsense_range (hp : s.par.ok = true) (hch : IsChannel ch)
    (ht : ∀ t, ¬ Encodes s.par.fxRound r 27 s.par.rsenseFrac false t) : AnswersErr (.cfgRsense ch r) s .fxRange := by
  apply answersErr_of_answer (exec_cfgRsense ch r s)
  rw [checkChannel_of_isChannel hch, fxEncode_of_not_encodes (Params.ok_rsenseFormat hp) ht]
  rfl

theorem answersOk_cfgRsense {t : Int} (hp : s.par.ok = true) (hch : IsChannel ch)
    (ht : Encodes s.par.fxRound r 27 s.par.rsenseFrac false t) :
    AnswersOk (.cfgRsense ch r) s (buildPayload ch (rsenseWord s.par.probeId.rsense (BitVec.ofInt 27 t))) := by
  apply answersOk_of_answer (exec_cfgRsense ch r s)
  rw [checkChannel_of_isChannel hch, fxEncode_of_encodes (Params.ok_rsenseFormat hp) ht,
    ← ofNat_toNat_emod_two_pow le_rfl]
  rfl

/-- CFG_RSENSE answers a word only for a resistance that encodes, and then the word of its integer. -/
theorem word_eq_of_answersOk_cfgRsense {word : Word} {txn : List Byte} (hp : s.par.ok = true)
    (h : AnswersOk (.cfgRsense ch r) s (.build word txn)) :
    ∃ t, Encodes s.par.fxRound r 27 s.par.rsenseFrac false t ∧
      word = rsenseWord s.par.probeId.rsense (BitVec.ofInt 27 t) := by
  obtain ⟨_, -, h⟩ := bind_eq_ok (answer_eq_ok (exec_cfgRsense ch r s) h)
  obtain ⟨_, hv, h⟩ := bind_eq_ok h
  obtain ⟨t, ht, rfl⟩ := encodes_of_fxEncode_eq_ok (Params.ok_rsenseFormat hp) hv
  refine ⟨t, ht, ?_⟩
  rw [← ofNat_toNat_emod_two_pow le_rfl]
  exact word_eq_of_buildPayload (Except.ok.inj h)

end Rsense

/-! ### CFG_DIODE (R158) -/

theorem idealValue_zero (p : Params) (eta : FloatOp) : idealValue p 0 eta = .ok 0 := rfl

theorem idealValue_one (p : Params) (eta : FloatOp) :
    idealValue p 1 eta = fxEncode p.fxRound eta p.idealPremaskW 20 false := rfl

section Diode
variable {s : State} {ch : BitVec 5} {mode rd avg : BitVec 1} {exc : BitVec 2} {hasEta : BitVec 1} {eta : FloatOp}

theorem answersErr_cfgDiode_range (hp : s.par.ok = true) (hch : IsChannel ch)
    (ht : ∀ t, ¬ Encodes s.par.fxRound eta s.par.idealPremaskW 20 false t) :
    AnswersErr (.cfgDiode ch mode rd avg exc 1 eta) s .fxRange := by
  apply answersErr_of_answer (exec_cfgDiode ch mode rd avg exc 1 eta s)
  rw [checkChannel_of_isChannel hch, idealValue_one, fxEncode_of_not_encodes (Params.ok_idealFormat hp) ht]
  rfl

theorem answersOk_cfgDiode {id : Nat} (hch : IsChannel ch) (hid : idealValue s.par hasEta eta = .ok id) :
    AnswersOk (.cfgDiode ch mode rd avg exc hasEta eta) s
      (buildPayload ch (builtDiodeWord s.par mode rd avg exc id)) := by
  apply answersOk_of_answer (exec_cfgDiode ch mode rd avg exc hasEta eta s)
  rw [checkChannel_of_isChannel hch, hid]
  rfl

theorem answersOk_cfgDiode_override {t : Int} (hp : s.par.ok = true) (hch : IsChannel ch)
    (ht : Encodes s.par.fxRound eta s.par.idealPremaskW 20 false t) :
    AnswersOk (.cfgDiode ch mode rd avg exc 1 eta) s
      (buildPayload ch (diodeWord s.par.probeId.diode mode rd avg exc (BitVec.ofInt 22 t))) := by
  rw [← ofNat_idealPattern hp]
  exact answersOk_cfgDiode hch ((idealValue_one _ _).trans (fxEncode_of_encodes (Params.ok_idealFormat hp) ht))

/-- CFG_DIODE answers a word only when the ideality value is one, and then the word of that value. -/
theorem word_eq_of_answersOk_cfgDiode {word : Word} {txn : List Byte}
    (h : AnswersOk (.cfgDiode ch mode rd avg exc hasEta eta) s (.build word txn)) :
    ∃ id, idealValue s.par hasEta eta = .ok id ∧ word = builtDiodeWord s.par mode rd avg exc id := by
  obtain ⟨_, -, h⟩ := bind_eq_ok (answer_eq_ok (exec_cfgDiode ch mode rd avg exc hasEta eta s) h)
  obtain ⟨id, hid, h⟩ := bind_eq_ok h
  exact ⟨id, hid, word_eq_of_buildPayload (Except.ok.inj h)⟩

end Diode

/-! ### CFG_DECODE (R161) -/

/-- An identifier that is not 0 and not in the table is of no class (R71). -/
theorem classify_of_not_mem {p : ProbeId} {pid : BitVec 5} (h0 : pid ≠ 0) (h : pid ∉ p.ids) :
    classify p pid = .unsupported := by
  simp only [ProbeId.ids, List.mem_cons, List.not_mem_nil, or_false, not_or] at h
  simp only [classify, h0, h, if_false]

section CfgDecode
variable {s : State} {word : Word}

/-- CFG_DECODE answers what the class of bits [31:27] answers. -/
theorem answersErr_cfgDecode {c : CfgClass} {e : ErrCode} (hc : classify s.par.probeId (word.extractLsb' 27 5) = c)
    (h : classAnswer s.par c word = .error e) : AnswersErr (.cfgDecode word) s e :=
  answersErr_of_answer (exec_cfgDecode word s) (hc ▸ h)

theorem answersOk_cfgDecode {c : CfgClass} {r : Record} (hc : classify s.par.probeId (word.extractLsb' 27 5) = c)
    (h : classAnswer s.par c word = .ok (.record r)) : AnswersOk (.cfgDecode word) s (.record r) :=
  answersOk_of_answer (exec_cfgDecode word s) (hc ▸ h)

theorem answersOk_cfgDecode_tc {t : BitVec 3} (hp : s.par.ok = true)
    (h : tcId s.par.probeId t = word.extractLsb' 27 5) :
    AnswersOk (.cfgDecode word) s (.record (.tc t (word.extractLsb' 22 5) (word.extractLsb' 21 1)
      (word.extractLsb' 18 3) (word.extractLsb' 12 6) (word.extractLsb' 0 12))) :=
  answersOk_cfgDecode (h ▸ classify_tcId (Params.ok_probeId hp) t) rfl

theorem answersOk_cfgDecode_rs (hp : s.par.ok = true) (h : s.par.probeId.rsense = word.extractLsb' 27 5) :
    AnswersOk (.cfgDecode word) s (.record (.rs (word.extractLsb' 0 27)
      ⟨(word.extractLsb' 0 27).toNat, s.par.rsenseFrac⟩)) :=
  answersOk_cfgDecode (h ▸ classify_rsense (Params.ok_probeId hp)) rfl

theorem answersOk_cfgDecode_di (hp : s.par.ok = true) (h : s.par.probeId.diode = word.extractLsb' 27 5) :
    AnswersOk (.cfgDecode word) s (.record (.di (word.extractLsb' 26 1) (word.extractLsb' 25 1)
      (word.extractLsb' 24 1) (word.extractLsb' 22 2) (word.extractLsb' 0 22) (word.extractLsb' 0 22 != 0)
      ⟨(word.extractLsb' 0 22).toNat, 20⟩)) :=
  answersOk_cfgDecode (h ▸ classify_diode (Params.ok_probeId hp)) rfl

end CfgDecode

/-! ### CFG_DECODE of a word of a layout (R69, R162) -/

section Layouts
variable {s : State} (hp : s.par.ok = true)
include hp

theorem answersOk_cfgDecode_tcWord (t : BitVec 3) (cj : BitVec 5) (mode : BitVec 1) (exc : BitVec 3) (rsv : BitVec 6)
    (caddr : BitVec 12) :
    AnswersOk (.cfgDecode (tcWord (tcId s.par.probeId t) cj mode exc rsv caddr)) s
      (.record (.tc t cj mode exc rsv caddr)) := by
  simpa only [tcWord_cj, tcWord_mode, tcWord_exc, tcWord_rsv, tcWord_caddr] using
    answersOk_cfgDecode_tc hp (tcWord_pid (tcId s.par.probeId t) cj mode exc rsv caddr).symm

theorem answersOk_cfgDecode_rsenseWord (rval : BitVec 27) :
    AnswersOk (.cfgDecode (rsenseWord s.par.probeId.rsense rval)) s
      (.record (.rs rval ⟨rval.toNat, s.par.rsenseFrac⟩)) := by
  simpa only [rsenseWord_rval] using answersOk_cfgDecode_rs hp (rsenseWord_pid s.par.probeId.rsense rval).symm

theorem answersOk_cfgDecode_diodeWord (mode rd avg : BitVec 1) (exc : BitVec 2) (ideal : BitVec 22) :
    AnswersOk (.cfgDecode (diodeWord s.par.probeId.diode mode rd avg exc ideal)) s
      (.record (.di mode rd avg exc ideal (ideal != 0) ⟨ideal.toNat, 20⟩)) := by
  simpa only [diodeWord_mode, diodeWord_rd, diodeWord_avg, diodeWord_exc, diodeWord_ideal] using
    answersOk_cfgDecode_di hp (diodeWord_pid s.par.probeId.diode mode rd avg exc ideal).symm

end Layouts

/-! ### CFG_CHECK (R163) -/

/-- The identifier is the word's quotient by `2^27`. -/
theorem toNat_extractLsb'_pid (word : Word) : (word.extractLsb' 27 5).toNat = word.toNat / 2 ^ 27 := by
  rw [BitVec.extractLsb'_toNat, Nat.shiftRight_eq_div_pow]
  omega

theorem extractLsb'_pid_eq_zero_iff (word : Word) : word.extractLsb' 27 5 = 0 ↔ word.toNat < 2 ^ 27 := by
  rw [← BitVec.toNat_inj, toNat_extractLsb'_pid, BitVec.ofNat_eq_ofNat, BitVec.toNat_ofNat, Nat.zero_mod]
  omega

/-! ### The obligations -/

/-- Settles O38: each built word is of its class's layout, whose fields CFG_DECODE reads; the resistance's integer fits its
27 bits, so the value read is that integer. -/
theorem builtWordsDecodeToTheirFields : Obligations.BuiltWordsDecodeToTheirFields := by
  refine ⟨fun s ch tc cj mode exc caddr word txn hp h => ?_, fun s ch r word txn hp h => ?_,
    fun s ch mode rd avg exc hasEta eta word txn hp h => ?_⟩
  · rw [word_eq_of_answersOk_cfgTc h]
    exact answersOk_cfgDecode_tcWord hp tc cj mode exc 0 caddr
  · obtain ⟨t, ht, rfl⟩ := word_eq_of_answersOk_cfgRsense hp h
    have hdecode := answersOk_cfgDecode_rsenseWord hp (BitVec.ofInt 27 t)
    rw [toNat_ofInt_of_encodes ht] at hdecode
    obtain ⟨x, hx, rfl, -⟩ := ht
    exact ⟨x, hx, hdecode⟩
  · obtain ⟨v, hv, rfl⟩ := word_eq_of_answersOk_cfgDiode h
    refine ⟨BitVec.ofNat 22 v, ?_, ?_, answersOk_cfgDecode_diodeWord hp mode rd avg exc _⟩
    · rintro rfl
      obtain rfl := Except.ok.inj hv
      rfl
    · rintro rfl
      obtain ⟨t, ⟨x, hx, rfl, -⟩, rfl⟩ := encodes_of_fxEncode_eq_ok (Params.ok_idealFormat hp) hv
      exact ⟨x, hx, ofNat_idealPattern hp _⟩

/-- Settles O32: the two checks in their order, then the word of the layout. -/
theorem cfgTcBuildsTheThermocoupleWord : Obligations.CfgTcBuildsTheThermocoupleWord := by
  refine fun s ch tc cj mode exc caddr => ⟨?_, answersErr_cfgTc_field, fun hch hcj => ?_⟩
  · exact answersErr_of_not_isChannel (exec_cfgTc ch tc cj mode exc caddr s)
  · exact ⟨_, _, ids_getElem?_toNat s.par.probeId tc, rfl, answersOk_cfgTc hch hcj⟩

/-- Settles O33: the two fields of the word that is built. -/
theorem plainThermocoupleFieldsAreZero : Obligations.PlainThermocoupleFieldsAreZero := fun _ _ _ _ _ hch =>
  ⟨_, _, answersOk_cfgTc hch (by decide), tcWord_cj _ _ _ _ _ _, tcWord_caddr _ _ _ _ _ _⟩

/-- Settles O34: the channel check, then the codec's error or the word of its integer. -/
theorem cfgRsenseBuildsTheResistorWord : Obligations.CfgRsenseBuildsTheResistorWord := fun s ch r hp =>
  ⟨answersErr_of_not_isChannel (exec_cfgRsense ch r s), answersErr_cfgRsense_range hp,
    fun hch _ ht => ⟨_, rfl, answersOk_cfgRsense hp hch ht⟩⟩

/-- Settles O35: without an override the ideality value is 0, with one it is the codec's. -/
theorem cfgDiodeBuildsTheDiodeWord : Obligations.CfgDiodeBuildsTheDiodeWord := by
  refine fun s ch mode rd avg exc eta hp => ⟨fun hch hasEta => ?_, answersErr_cfgDiode_range hp, fun hch => ?_,
    fun hch t ht => ?_⟩
  · exact answersErr_of_not_isChannel (exec_cfgDiode ch mode rd avg exc hasEta eta s) hch
  · exact ⟨_, rfl, answersOk_cfgDiode hch (idealValue_zero s.par eta)⟩
  · exact ⟨_, rfl, answersOk_cfgDiode_override hp hch ht⟩

/-- Settles O37: the class of the identifier, then what the class answers. -/
theorem cfgDecodeReadsTheWord : Obligations.CfgDecodeReadsTheWord := by
  refine fun s word hp => ⟨fun h0 => ?_, fun h0 hmem => ?_, fun t ht => ?_, answersOk_cfgDecode_rs hp,
    answersOk_cfgDecode_di hp⟩
  · exact answersErr_cfgDecode (h0 ▸ classify_zero s.par.probeId) rfl
  · exact answersErr_cfgDecode (classify_of_not_mem h0 hmem) rfl
  · exact answersOk_cfgDecode_tc hp (Option.some.inj ((ids_getElem?_toNat _ t).symm.trans ht))

/-- Settles O36: the channel check, then the one error of every family. -/
theorem cfgUnsupAnswersUnsupported : Obligations.CfgUnsupAnswersUnsupported := by
  refine fun s ch fam => ⟨answersErr_of_not_isChannel (exec_cfgUnsup ch fam s), fun hch => ?_⟩
  apply answersErr_of_answer (exec_cfgUnsup ch fam s)
  rw [checkChannel_of_isChannel hch]
  rfl

/-- Settles O39: the identifier is 0 exactly for the words below `2^27`. -/
theorem cfgCheckTestsTheTopBits : Obligations.CfgCheckTestsTheTopBits := by
  refine fun s word => ⟨fun hlt => ?_, fun hge => ⟨_, toNat_extractLsb'_pid word, ?_⟩⟩
  · exact answersErr_of_answer (exec_cfgCheck word s) (if_pos ((extractLsb'_pid_eq_zero_iff word).mpr hlt))
  · exact answersOk_of_answer (exec_cfgCheck word s)
      (if_neg (mt (extractLsb'_pid_eq_zero_iff word).mp (Nat.not_lt.mpr hge)))

/-- Settles O40: the channel check, then the bytes of the register's address. -/
theorem readRequestsNameTheRegister : Obligations.ReadRequestsNameTheRegister := by
  refine fun s ch => ⟨fun h => ⟨?_, ?_⟩, fun h => ⟨?_, ?_⟩⟩
  · exact answersErr_of_not_isChannel (exec_cfgReadReq ch s) h
  · exact answersErr_of_not_isChannel (exec_resReadReq ch s) h
  · rw [← txnReadBytes_ofNat]
    exact answersOk_of_isChannel (exec_cfgReadReq ch s) h
  · rw [← txnReadBytes_ofNat]
    exact answersOk_of_isChannel (exec_resReadReq ch s) h

end Sys2Proof.Machine
end

section
/-! PROOFS. The result decoder (spec/44_result_decoder.md R180 to R184). -/

namespace Sys2Proof.Machine

open Sys2Proof

/-! ### Status bytes and their outcomes (R75, R76, R181) -/

/-- The status byte of an outcome: the one bit numbered by its tag. -/
def statusByte (tag : BitVec 3) : Byte := BitVec.twoPow 8 tag.toNat

theorem toNat_statusByte (tag : BitVec 3) : (statusByte tag).toNat = 2 ^ tag.toNat :=
  BitVec.toNat_twoPow_of_lt tag.isLt

theorem statusOutcome?_statusByte : ∀ tag, statusOutcome? (statusByte tag) = some (tag, decide (tag.toNat < 5)) := by
  decide

/-- A byte that has an outcome is the status byte of its tag. -/
theorem eq_statusByte_of_statusOutcome? {b : Byte} {tag : BitVec 3} {hasValue : Bool}
    (h : statusOutcome? b = some (tag, hasValue)) : b = statusByte tag := by
  rw [← BitVec.toNat_inj]
  unfold statusOutcome? at h
  split at h <;> cases h <;> assumption

theorem statusOutcome?_eq_none {b : Byte} (h : ∀ tag, b ≠ statusByte tag) : statusOutcome? b = none :=
  Option.eq_none_iff_forall_ne_some.mpr fun _ ho => h _ (eq_statusByte_of_statusOutcome? ho)

theorem eq_statusByte_of_toNat {b : Byte} {j : Nat} (hj : j < 8) (h : b.toNat = 2 ^ j) :
    b = statusByte (BitVec.ofNat 3 j) := by
  rw [← BitVec.toNat_inj, toNat_statusByte, BitVec.toNat_ofNat, Nat.mod_eq_of_lt hj, h]

/-! ### RES_DECODE (R182, R183) -/

theorem exec_resDecode (b0 b1 b2 b3 : Byte) (s : State) :
    exec (.resDecode b0 b1 b2 b3) s = answer (resAnswer b0 b1 b2 b3) s := rfl

section ResDecode
variable {s : State} {b0 b1 b2 b3 : Byte} {tag : BitVec 3}

theorem resAnswer_statusByte :
    resAnswer (statusByte tag) b1 b2 b3 =
      .ok (outcomePayload tag (decide (tag.toNat < 5)) (b1 ++ b2 ++ b3 : BitVec 24).toInt) := by
  rw [resAnswer, statusOutcome?_statusByte, dec24_eq_toInt]

theorem answersOk_resDecode_value (h : tag.toNat < 5) :
    AnswersOk (.resDecode (statusByte tag) b1 b2 b3) s (.outcome tag true (b1 ++ b2 ++ b3 : BitVec 24).toInt
      (some ⟨(b1 ++ b2 ++ b3 : BitVec 24).toInt, 10⟩)) := by
  apply answersOk_of_answer (exec_resDecode _ b1 b2 b3 s)
  rw [resAnswer_statusByte, decide_eq_true h]
  rfl

theorem answersOk_resDecode_noValue (h : 5 ≤ tag.toNat) :
    AnswersOk (.resDecode (statusByte tag) b1 b2 b3) s (.outcome tag false 0 none) := by
  apply answersOk_of_answer (exec_resDecode _ b1 b2 b3 s)
  rw [resAnswer_statusByte, decide_eq_false (Nat.not_lt.mpr h)]
  rfl

theorem answersErr_resDecode (h : ∀ tag, b0 ≠ statusByte tag) :
    AnswersErr (.resDecode b0 b1 b2 b3) s .malformedStatus := by
  apply answersErr_of_answer (exec_resDecode b0 b1 b2 b3 s)
  rw [resAnswer, statusOutcome?_eq_none h]

theorem exists_answersOk_resDecode (s : State) (tag : BitVec 3) (b1 b2 b3 : Byte) :
    ∃ h k v, AnswersOk (.resDecode (statusByte tag) b1 b2 b3) s (.outcome tag h k v) := by
  by_cases ht : tag.toNat < 5
  · exact ⟨_, _, _, answersOk_resDecode_value ht⟩
  · exact ⟨_, _, _, answersOk_resDecode_noValue (Nat.not_lt.mp ht)⟩

/-- An outcome is answered to no byte but the status byte of its tag. -/
theorem eq_statusByte_of_answersOk_resDecode {h : Bool} {k : Int} {v : Option Dy}
    (hok : AnswersOk (.resDecode b0 b1 b2 b3) s (.outcome tag h k v)) : b0 = statusByte tag := by
  by_cases hb : ∃ tag', b0 = statusByte tag'
  · obtain ⟨tag', rfl⟩ := hb
    obtain ⟨h', k', v', hok'⟩ := exists_answersOk_resDecode s tag' b1 b2 b3
    obtain ⟨rfl, -⟩ := Payload.outcome.inj (hok.payload_eq hok')
    rfl
  · exact absurd (answersErr_resDecode (not_exists.mp hb)) hok.not_answersErr

end ResDecode

/-! ### The obligations -/

/-- Settles O42: a byte `2^j` is the status byte of tag `j`, and any other byte is none. -/
theorem resDecodeGivesTheOutcome : Obligations.ResDecodeGivesTheOutcome := by
  refine fun s b0 b1 b2 b3 => ⟨fun j hj hb => ?_, fun j h5 hj hb => ?_, fun h => ?_⟩
  · obtain rfl := eq_statusByte_of_toNat (by omega) hb
    exact answersOk_resDecode_value (by rw [BitVec.toNat_ofNat]; omega)
  · obtain rfl := eq_statusByte_of_toNat hj hb
    exact answersOk_resDecode_noValue (by rw [BitVec.toNat_ofNat]; omega)
  · exact answersErr_resDecode fun tag hb => h tag.toNat tag.isLt (hb ▸ toNat_statusByte tag)

/-- Settles O43: `statusByte` is the inverse of the map from status byte to outcome. -/
theorem statusBytesAndOutcomesAgree : Obligations.StatusBytesAndOutcomesAgree := by
  refine ⟨fun s b0 b1 b2 b3 => ?_, fun s b0 b1 b2 b3 c0 c1 c2 c3 tag h k v h' k' v' hb hc => ?_,
    fun s tag b1 b2 b3 => ⟨statusByte tag, exists_answersOk_resDecode s tag b1 b2 b3⟩⟩
  · by_cases hb : ∃ tag, b0 = statusByte tag
    · obtain ⟨tag, rfl⟩ := hb
      exact .inl ⟨tag, exists_answersOk_resDecode s tag b1 b2 b3⟩
    · exact .inr (answersErr_resDecode (not_exists.mp hb))
  · exact (eq_statusByte_of_answersOk_resDecode hb).trans (eq_statusByte_of_answersOk_resDecode hc).symm

end Sys2Proof.Machine
end

section
/-! PROOFS. Errors (spec/60_exceptions.md R202, R203). -/

namespace Sys2Proof.Machine

open Sys2Proof

/-! ### An error writes nothing (R202) -/

/-- An answer is a completion that leaves the block state. -/
theorem answer_eq_complete (r : Except ErrCode Payload) (s : State) :
    answer r s = complete (r.map fun p => (p, s.blk)) s := by
  cases r <;> rfl

/-- Every instruction but the two transactions completes with a payload and a block state, or with an error. -/
theorem exists_exec_eq_complete {i : Instr} (s : State) (hi : i.port ≠ .txn) : ∃ r, exec i s = complete r s := by
  have ofAnswer {r : Except ErrCode Payload} (h : exec i s = answer r s) : ∃ r, exec i s = complete r s :=
    ⟨_, h.trans (answer_eq_complete r s)⟩
  by_cases hpure : pureCommand i = true
  · obtain ⟨r, h, -⟩ := exec_eq_answer_of_pureCommand hpure (rfl : s.par = s.par)
    exact ofAnswer h
  · cases i with
    | bsReset | bsAlign | bsTake | bsStat => exact ⟨.ok (_, _), rfl⟩
    | bsWrite | bsLoad | bsRead => exact ⟨_, rfl⟩
    | cfgwTcJ | cfgwTcK | cfgwTcE | cfgwTcN | cfgwTcR | cfgwTcS | cfgwTcT | cfgwTcB =>
      exact ofAnswer (r := classAnswer s.par (.thermocouple _) _) rfl
    | cfgwDiode => exact ofAnswer (r := classAnswer s.par .diode _) rfl
    | cfgwRsense => exact ofAnswer (r := classAnswer s.par .senseResistor _) rfl
    | cfgwUnconfigured => exact ofAnswer (r := .error .notConfigured) rfl
    | reswValid | reswAdcOutOfRange | reswSensorUnderRange | reswSensorOverRange | reswCjSoftFault
    | reswCjHardFault | reswAdcHardOutOfRange | reswSensorHardFault =>
      exact ofAnswer (r := resWordAnswer (resWord _ _)) rfl
    | txnWrite | txnRead => exact absurd rfl hi
    | _ => exact absurd rfl hpure

/-- A transaction gives no response of the block (R54). -/
theorem resps_eq_of_port_eq_txn {i : Instr} {s t : State} (hi : i.port = .txn) (h : exec i s = .next t) :
    t.resps = s.resps := by
  cases i with
  | txnWrite addr word =>
    change execTxnWrite addr word s = .next t at h
    unfold execTxnWrite at h
    split at h <;> cases h
    rfl
  | txnRead addr =>
    change execTxnRead addr s = .next t at h
    unfold execTxnRead at h
    split at h <;> cases h
    rfl
  | _ => cases hi

/-- Settles O52: a transaction gives no response, and a completion with an error changes nothing but the responses. -/
theorem errorsChangeNothing : Obligations.ErrorsChangeNothing := by
  intro i s t e h hresps
  by_cases hi : i.port = .txn
  · rw [resps_eq_of_port_eq_txn hi h] at hresps
    simp at hresps
  · obtain ⟨r, hr⟩ := exists_exec_eq_complete s hi
    obtain ⟨p, b, -, rfl⟩ | ⟨e', -, rfl⟩ := complete_cases (hr ▸ h)
    · cases resps_append_inj.mp hresps
    · rw [resps_append_inj.mp hresps]

/-! ### The checks of each command, in the order of R203 -/

/-- The errors that a command checks for, in the order its rule's pseudocode states the checks (R203). -/
def checkedErrors : Instr → List ErrCode
  | .bsWrite _ _ => [.width, .overflow]
  | .bsLoad _ => [.overflow]
  | .bsRead _ => [.width, .underrun]
  | .fxEncode _ _ _ _ => [.fxFormat, .fxRange]
  | .fxDecode _ _ _ _ => [.fxFormat]
  | .chStartAddr _ | .chResultAddr _ | .chMask _ | .chMaskSet _ | .cfgReadReq _ | .resReadReq _ => [.channel]
  | .cfgTc _ _ _ _ _ _ => [.channel, .field]
  | .cfgRsense _ _ | .cfgDiode _ _ _ _ _ _ _ => [.channel, .fxRange]
  | .cfgUnsup _ _ => [.channel, .unsupported]
  | .cfgDecode _ => [.notConfigured, .unsupported]
  | .cfgCheck _ => [.notConfigured]
  | .resDecode _ _ _ _ => [.malformedStatus]
  | _ => []

/-- No error applies to a command but those it checks for (R201). -/
theorem mem_checkedErrors_of_applies {s : State} {e : ErrCode} {i : Instr} (h : Applies s e i) :
    e ∈ checkedErrors i := by
  unfold Applies at h
  split at h
  any_goals simp [checkedErrors]
  exact h.elim

/-- Every command's checks are in the order of R203. -/
theorem checkedErrors_sorted (i : Instr) : (checkedErrors i).Pairwise fun e e' => e.place ≤ e'.place := by
  unfold checkedErrors
  split <;> simp [ErrCode.place]

/-- The command answers some `Ok`, and nothing changes but the block state and the responses. -/
def AnswersSomeOk (i : Instr) (s : State) : Prop :=
  ∃ p b, exec i s = .next (respond (.ok p) { s with blk := b })

theorem AnswersOk.someOk {i : Instr} {s : State} {p : Payload} (h : AnswersOk i s p) : AnswersSomeOk i s :=
  ⟨p, s.blk, h⟩

/-- The checks are made one after another: the first error that applies is answered, and where none does, `Ok`. -/
def AnswersFirst (i : Instr) (s : State) : List ErrCode → Prop
  | [] => AnswersSomeOk i s
  | e :: es => (Applies s e i → AnswersErr i s e) ∧ (¬ Applies s e i → AnswersFirst i s es)

/-- Checks made in the order of the places report the error of least place. -/
theorem AnswersFirst.least {i : Instr} {s : State} {es : List ErrCode} (h : AnswersFirst i s es)
    (hsorted : es.Pairwise fun e e' => e.place ≤ e'.place) :
    ((∀ e ∈ es, ¬ Applies s e i) ∧ AnswersSomeOk i s) ∨
      ∃ e, Applies s e i ∧ (∀ e' ∈ es, Applies s e' i → e.place ≤ e'.place) ∧ AnswersErr i s e := by
  induction es with
  | nil => exact .inl ⟨by simp, h⟩
  | cons e es ih =>
    obtain ⟨herr, hrest⟩ := h
    obtain ⟨hle, hsorted⟩ := List.pairwise_cons.mp hsorted
    by_cases he : Applies s e i
    · refine .inr ⟨e, he, List.forall_mem_cons.mpr ⟨fun _ => le_rfl, fun e' hmem _ => hle e' hmem⟩, herr he⟩
    · obtain ⟨hnone, hok⟩ | ⟨e', he', hleast, hans⟩ := ih (hrest he) hsorted
      · exact .inl ⟨List.forall_mem_cons.mpr ⟨he, hnone⟩, hok⟩
      · exact .inr ⟨e', he', List.forall_mem_cons.mpr ⟨fun h => absurd h he, hleast⟩, hans⟩

section Checks
variable {i : Instr} {s : State} {es : List ErrCode}

/-- The last check: its error or `Ok`. -/
theorem AnswersFirst.single {e : ErrCode} (herr : Applies s e i → AnswersErr i s e)
    (hok : ¬ Applies s e i → AnswersSomeOk i s) : AnswersFirst i s [e] := ⟨herr, hok⟩

/-- A command whose answer begins with the channel check reports `E_CHANNEL` before any other error (R203). -/
theorem AnswersFirst.channel {c : BitVec 5} {k : Unit → Except ErrCode Payload}
    (hexec : exec i s = answer (checkChannel c >>= k) s) (happlies : Applies s .channel i ↔ ¬ IsChannel c)
    (hrest : IsChannel c → AnswersFirst i s es) : AnswersFirst i s (.channel :: es) := by
  rw [AnswersFirst, happlies, not_not]
  exact ⟨answersErr_of_not_isChannel hexec, hrest⟩

/-- A command that only checks its channel (R139). -/
theorem AnswersFirst.onlyChannel {c : BitVec 5} {p : Payload}
    (hexec : exec i s = answer (checkChannel c >>= fun _ => .ok p) s)
    (happlies : Applies s .channel i ↔ ¬ IsChannel c) : AnswersFirst i s [.channel] :=
  .channel hexec happlies fun hc => (answersOk_of_isChannel hexec hc).someOk

end Checks

/-! ### The commands -/

theorem answersFirst_bsWrite (v : BitVec 64) (w : BitVec 7) (s : State) :
    AnswersFirst (.bsWrite v w) s [.width, .overflow] :=
  ⟨bsWrite_width, fun hw => .single (bsWrite_overflow (not_not.mp hw)) fun h =>
    ⟨_, _, bsWrite_ok (not_not.mp hw) (not_lt.mp h)⟩⟩

theorem answersFirst_bsLoad (data : List Byte) (s : State) : AnswersFirst (.bsLoad data) s [.overflow] :=
  .single bsLoad_overflow fun h => ⟨_, _, bsLoad_ok (not_lt.mp h)⟩

theorem answersFirst_bsRead (w : BitVec 7) (s : State) : AnswersFirst (.bsRead w) s [.width, .underrun] :=
  ⟨bsRead_width, fun hw => .single (bsRead_underrun (not_not.mp hw)) fun h =>
    ⟨_, _, bsRead_ok (not_not.mp hw) (not_lt.mp h)⟩⟩

theorem answersFirst_fxEncode (x : FloatOp) (w n : BitVec 7) (sg : BitVec 1) (s : State) :
    AnswersFirst (.fxEncode x w n sg) s [.fxFormat, .fxRange] := by
  refine ⟨answersErr_fxEncode_format, fun hf => .single (answersErr_fxEncode_range (not_not.mp hf)) fun hr => ?_⟩
  have hlegal : LegalFormat w.toNat n.toNat := not_not.mp hf
  obtain ⟨t, ht⟩ := not_forall_not.mp hr
  exact (answersOk_fxEncode hlegal ht (toNat_ofNat_emod hlegal.le_64)).someOk

theorem answersFirst_fxDecode (b : BitVec 64) (w n : BitVec 7) (sg : BitVec 1) (s : State) :
    AnswersFirst (.fxDecode b w n sg) s [.fxFormat] :=
  .single answersErr_fxDecode_format fun hf => (answersOk_fxDecode (not_not.mp hf)).someOk

theorem answersFirst_chMaskSet (cs : List (BitVec 5)) (s : State) : AnswersFirst (.chMaskSet cs) s [.channel] :=
  .single answersErr_chMaskSet fun h =>
    (answersOk_chMaskSet fun c hc => by_contra fun hbad => h ⟨c, hc, hbad⟩).someOk

theorem answersFirst_cfgTc (ch : BitVec 5) (tc : BitVec 3) (cj : BitVec 5) (mode : BitVec 1) (exc : BitVec 3)
    (caddr : BitVec 12) (s : State) : AnswersFirst (.cfgTc ch tc cj mode exc caddr) s [.channel, .field] :=
  .channel (exec_cfgTc ch tc cj mode exc caddr s) .rfl fun hch =>
    .single (answersErr_cfgTc_field hch) fun hcj => (answersOk_cfgTc hch (not_lt.mp hcj)).someOk

theorem answersFirst_cfgRsense (ch : BitVec 5) (r : FloatOp) {s : State} (hp : s.par.ok = true) :
    AnswersFirst (.cfgRsense ch r) s [.channel, .fxRange] := by
  refine .channel (exec_cfgRsense ch r s) .rfl fun hch => .single (answersErr_cfgRsense_range hp hch) fun hr => ?_
  obtain ⟨t, ht⟩ := not_forall_not.mp hr
  exact (answersOk_cfgRsense hp hch ht).someOk

/-- CFG_DIODE reads `eta`, and so can report `E_FX_RANGE`, only with an override (R158). -/
theorem answersFirst_cfgDiode (ch : BitVec 5) (mode rd avg : BitVec 1) (exc : BitVec 2) (hasEta : BitVec 1)
    (eta : FloatOp) {s : State} (hp : s.par.ok = true) :
    AnswersFirst (.cfgDiode ch mode rd avg exc hasEta eta) s [.channel, .fxRange] := by
  refine .channel (exec_cfgDiode ch mode rd avg exc hasEta eta s) .rfl fun hch => .single ?_ fun hr => ?_
  · rintro ⟨rfl, ht⟩
    exact answersErr_cfgDiode_range hp hch ht
  · obtain rfl | rfl := BitVec.eq_zero_or_eq_one hasEta
    · exact (answersOk_cfgDiode hch (idealValue_zero s.par eta)).someOk
    · obtain ⟨t, ht⟩ := not_forall_not.mp fun ht => hr ⟨rfl, ht⟩
      exact (answersOk_cfgDiode_override hp hch ht).someOk

theorem answersFirst_cfgUnsup (ch : BitVec 5) (fam : BitVec 2) (s : State) :
    AnswersFirst (.cfgUnsup ch fam) s [.channel, .unsupported] := by
  obtain ⟨-, hunsup⟩ := cfgUnsupAnswersUnsupported s ch fam
  exact .channel (exec_cfgUnsup ch fam s) .rfl fun hch => .single (fun _ => hunsup hch) fun h => absurd trivial h

/-- An identifier of the table is one of a thermocouple type, the diode's or the sense resistor's (R70). -/
theorem ProbeId.mem_ids_cases {p : ProbeId} {pid : BitVec 5} (h : pid ∈ p.ids) :
    (∃ t, tcId p t = pid) ∨ p.diode = pid ∨ p.rsense = pid := by
  have hids : p.ids = ([0, 1, 2, 3, 4, 5, 6, 7] : List (BitVec 3)).map (tcId p) ++ [p.diode, p.rsense] := rfl
  rw [hids, List.mem_append, List.mem_map, List.mem_pair] at h
  obtain ⟨t, -, ht⟩ | rfl | rfl := h
  · exact .inl ⟨t, ht⟩
  · exact .inr (.inl rfl)
  · exact .inr (.inr rfl)

/-- The two errors of CFG_DECODE exclude each other (R203), so their order settles nothing. -/
theorem answersFirst_cfgDecode (word : Word) {s : State} (hp : s.par.ok = true) :
    AnswersFirst (.cfgDecode word) s [.notConfigured, .unsupported] := by
  obtain ⟨hzero, hunsup, -⟩ := cfgDecodeReadsTheWord s word hp
  refine ⟨hzero, fun h0 => .single (fun ⟨hne, hmem⟩ => hunsup hne hmem) fun h => ?_⟩
  have hmem : word.extractLsb' 27 5 ∈ s.par.probeId.ids := by_contra fun hmem => h ⟨h0, hmem⟩
  obtain ⟨t, ht⟩ | hdi | hrs := ProbeId.mem_ids_cases hmem
  · exact (answersOk_cfgDecode_tc hp ht).someOk
  · exact (answersOk_cfgDecode_di hp hdi).someOk
  · exact (answersOk_cfgDecode_rs hp hrs).someOk

theorem answersFirst_cfgCheck (word : Word) (s : State) : AnswersFirst (.cfgCheck word) s [.notConfigured] :=
  .single (fun h => answersErr_of_answer (exec_cfgCheck word s) (if_pos h)) fun h =>
    (answersOk_of_answer (exec_cfgCheck word s) (if_neg h)).someOk

theorem answersFirst_resDecode (b0 b1 b2 b3 : Byte) (s : State) :
    AnswersFirst (.resDecode b0 b1 b2 b3) s [.malformedStatus] := by
  obtain ⟨-, -, hmalformed⟩ := resDecodeGivesTheOutcome s b0 b1 b2 b3
  refine .single hmalformed fun (h : ¬ ∀ j < 8, b0.toNat ≠ 2 ^ j) => ?_
  push Not at h
  obtain ⟨j, hj, hb⟩ := h
  obtain rfl := eq_statusByte_of_toNat hj hb
  obtain ⟨_, _, _, hok⟩ := exists_answersOk_resDecode s (BitVec.ofNat 3 j) b1 b2 b3
  exact hok.someOk

/-- Every command makes its checks in the order of `checkedErrors`. -/
theorem answersFirst_checkedErrors {i : Instr} {s : State} (hi : i.port = .cmd) (hp : s.par.ok = true) :
    AnswersFirst i s (checkedErrors i) := by
  cases i with
  | bsReset => exact ⟨_, _, exec_bsReset s⟩
  | bsWrite v w => exact answersFirst_bsWrite v w s
  | bsAlign => exact ⟨_, _, exec_bsAlign s⟩
  | bsTake => exact ⟨_, _, exec_bsTake s⟩
  | bsLoad data => exact answersFirst_bsLoad data s
  | bsRead w => exact answersFirst_bsRead w s
  | bsStat => exact (bsStat_ok s).someOk
  | fxEncode x w n sg => exact answersFirst_fxEncode x w n sg s
  | fxDecode b w n sg => exact answersFirst_fxDecode b w n sg s
  | fxDecode24 b0 b1 b2 => exact (answersOk_fxDecode24 b0 b1 b2 s).someOk
  | chStartAddr ch => exact .onlyChannel (exec_chStartAddr ch s) .rfl
  | chResultAddr ch => exact .onlyChannel (exec_chResultAddr ch s) .rfl
  | chMask ch => exact .onlyChannel (exec_chMask ch s) .rfl
  | chMaskSet cs => exact answersFirst_chMaskSet cs s
  | cfgTc ch tc cj mode exc caddr => exact answersFirst_cfgTc ch tc cj mode exc caddr s
  | cfgRsense ch r => exact answersFirst_cfgRsense ch r hp
  | cfgDiode ch mode rd avg exc hasEta eta => exact answersFirst_cfgDiode ch mode rd avg exc hasEta eta hp
  | cfgUnsup ch fam => exact answersFirst_cfgUnsup ch fam s
  | cfgDecode word => exact answersFirst_cfgDecode word hp
  | cfgCheck word => exact answersFirst_cfgCheck word s
  | cfgReadReq ch => exact .onlyChannel (exec_cfgReadReq ch s) .rfl
  | resDecode b0 b1 b2 b3 => exact answersFirst_resDecode b0 b1 b2 b3 s
  | resReadReq ch => exact .onlyChannel (exec_resReadReq ch s) .rfl
  | _ => cases hi

/-- Settles O53: each command makes its checks in the order of R203, and only their errors can apply to it. -/
theorem firstApplicableErrorIsReported : Obligations.FirstApplicableErrorIsReported := by
  refine ⟨fun i s hi hp => ?_, rfl⟩
  obtain ⟨hnone, hok⟩ | ⟨e, he, hleast, hans⟩ :=
    (answersFirst_checkedErrors hi hp).least (checkedErrors_sorted i)
  · exact .inl ⟨fun e he => hnone e (mem_checkedErrors_of_applies he) he, hok⟩
  · exact .inr ⟨e, he, fun e' he' => hleast e' (mem_checkedErrors_of_applies he') he', hans⟩

end Sys2Proof.Machine
end

section
/-! PROOFS. The parameters (spec/70_reset_and_hazards.md R231). -/

namespace Sys2Proof.Machine

open Sys2Proof

theorem exec_txnWrite (addr : Addr) (word : Word) (s : State) :
    exec (.txnWrite addr word) s = execTxnWrite addr word s := rfl

theorem exec_txnRead (addr : Addr) (s : State) : exec (.txnRead addr) s = execTxnRead addr s := rfl

/-- A transaction changes the remote device and nothing else (R54). -/
theorem exists_remote_of_port_eq_txn {i : Instr} {s t : State} (hi : i.port = .txn) (h : exec i s = .next t) :
    ∃ r, t = { s with remote := r } := by
  cases i with
  | txnWrite addr word =>
    rw [exec_txnWrite, execTxnWrite] at h
    split at h <;> cases h
    exact ⟨_, rfl⟩
  | txnRead addr =>
    rw [exec_txnRead, execTxnRead] at h
    split at h <;> cases h
    exact ⟨_, rfl⟩
  | _ => cases hi

/-- No instruction changes the parameters: a transaction writes the remote device only, any other completes with a block
state and a response (R231). -/
theorem par_eq_of_exec {i : Instr} {s t : State} (h : exec i s = .next t) : t.par = s.par := by
  by_cases hi : i.port = .txn
  · obtain ⟨r, rfl⟩ := exists_remote_of_port_eq_txn hi h
    rfl
  · obtain ⟨r, hr⟩ := exists_exec_eq_complete s hi
    obtain ⟨p, b, -, rfl⟩ | ⟨e, -, rfl⟩ := complete_cases (hr ▸ h)
    · rfl
    · exact respond_par _ s

/-- Settles O7: a step keeps the state, resets the block, performs an instruction or answers an error, and none of these
changes the parameters. -/
theorem noStepChangesTheParameters : Obligations.NoStepChangesTheParameters := by
  intro s t h
  obtain ⟨-, ⟨-, rfl⟩ | ⟨_, -, rfl⟩ | ⟨_, _, _, i, -, -, hexec⟩ | ⟨_, _, _, e, -, -, rfl⟩⟩ := step_cases h
  · rfl
  · simp
  · exact (par_eq_of_exec hexec).trans (popInput_par s)
  · simp

end Sys2Proof.Machine
end

section
/-! PROOFS. The decoder and the encoder (spec/30_encoding.md R60 to R81). -/

namespace Sys2Proof

/-! ### Encoded, then decoded -/

/-- Settles O10: row by row, the family RoundTrip. -/
theorem decodeOfEncodeIsTheInstruction : Obligations.DecodeOfEncodeIsTheInstruction := by
  intro p i hp hw
  cases i with
  | bsReset => exact Laws.RoundTrip.bsReset p hp hw
  | bsWrite v w => exact Laws.RoundTrip.bsWrite v w p hp hw
  | bsAlign => exact Laws.RoundTrip.bsAlign p hp hw
  | bsTake => exact Laws.RoundTrip.bsTake p hp hw
  | bsLoad data => exact Laws.RoundTrip.bsLoad data p hp hw
  | bsRead w => exact Laws.RoundTrip.bsRead w p hp hw
  | bsStat => exact Laws.RoundTrip.bsStat p hp hw
  | fxEncode x w n s => exact Laws.RoundTrip.fxEncode x w n s p hp hw
  | fxDecode b w n s => exact Laws.RoundTrip.fxDecode b w n s p hp hw
  | fxDecode24 b0 b1 b2 => exact Laws.RoundTrip.fxDecode24 b0 b1 b2 p hp hw
  | chStartAddr ch => exact Laws.RoundTrip.chStartAddr ch p hp hw
  | chResultAddr ch => exact Laws.RoundTrip.chResultAddr ch p hp hw
  | chMask ch => exact Laws.RoundTrip.chMask ch p hp hw
  | chMaskSet chs => exact Laws.RoundTrip.chMaskSet chs p hp hw
  | cfgTc ch tc cj mode exc caddr => exact Laws.RoundTrip.cfgTc ch tc cj mode exc caddr p hp hw
  | cfgRsense ch r => exact Laws.RoundTrip.cfgRsense ch r p hp hw
  | cfgDiode ch mode rd avg exc hasEta eta => exact Laws.RoundTrip.cfgDiode ch mode rd avg exc hasEta eta p hp hw
  | cfgUnsup ch fam => exact Laws.RoundTrip.cfgUnsup ch fam p hp hw
  | cfgDecode word => exact Laws.RoundTrip.cfgDecode word p hp hw
  | cfgCheck word => exact Laws.RoundTrip.cfgCheck word p hp hw
  | cfgReadReq ch => exact Laws.RoundTrip.cfgReadReq ch p hp hw
  | resDecode b0 b1 b2 b3 => exact Laws.RoundTrip.resDecode b0 b1 b2 b3 p hp hw
  | resReadReq ch => exact Laws.RoundTrip.resReadReq ch p hp hw
  | cfgwTcJ cj mode exc rsv caddr => exact Laws.RoundTrip.cfgwTcJ cj mode exc rsv caddr p hp hw
  | cfgwTcK cj mode exc rsv caddr => exact Laws.RoundTrip.cfgwTcK cj mode exc rsv caddr p hp hw
  | cfgwTcE cj mode exc rsv caddr => exact Laws.RoundTrip.cfgwTcE cj mode exc rsv caddr p hp hw
  | cfgwTcN cj mode exc rsv caddr => exact Laws.RoundTrip.cfgwTcN cj mode exc rsv caddr p hp hw
  | cfgwTcR cj mode exc rsv caddr => exact Laws.RoundTrip.cfgwTcR cj mode exc rsv caddr p hp hw
  | cfgwTcS cj mode exc rsv caddr => exact Laws.RoundTrip.cfgwTcS cj mode exc rsv caddr p hp hw
  | cfgwTcT cj mode exc rsv caddr => exact Laws.RoundTrip.cfgwTcT cj mode exc rsv caddr p hp hw
  | cfgwTcB cj mode exc rsv caddr => exact Laws.RoundTrip.cfgwTcB cj mode exc rsv caddr p hp hw
  | cfgwDiode mode rd avg exc ideal => exact Laws.RoundTrip.cfgwDiode mode rd avg exc ideal p hp hw
  | cfgwRsense rval => exact Laws.RoundTrip.cfgwRsense rval p hp hw
  | cfgwUnconfigured ignored => exact Laws.RoundTrip.cfgwUnconfigured ignored p hp hw
  | reswValid v => exact Laws.RoundTrip.reswValid v p hp hw
  | reswAdcOutOfRange v => exact Laws.RoundTrip.reswAdcOutOfRange v p hp hw
  | reswSensorUnderRange v => exact Laws.RoundTrip.reswSensorUnderRange v p hp hw
  | reswSensorOverRange v => exact Laws.RoundTrip.reswSensorOverRange v p hp hw
  | reswCjSoftFault v => exact Laws.RoundTrip.reswCjSoftFault v p hp hw
  | reswCjHardFault v => exact Laws.RoundTrip.reswCjHardFault v p hp hw
  | reswAdcHardOutOfRange v => exact Laws.RoundTrip.reswAdcHardOutOfRange v p hp hw
  | reswSensorHardFault v => exact Laws.RoundTrip.reswSensorHardFault v p hp hw
  | txnWrite addr word => exact Laws.RoundTrip.txnWrite addr word p hp hw
  | txnRead addr => exact Laws.RoundTrip.txnRead addr p hp hw

/-! ### Decoded, then encoded -/

/-- The instruction belongs to the port, is well-formed, and has the bits as its encoding. -/
def IsEncodingOf (p : Params) (port : Port) (b : Bits) (i : Instr) : Prop :=
  i.port = port ∧ i.wf p = true ∧ encode p i = b

/-- What a reader of operands gives, if anything, is a request whose encoding is `front`, the bits read before, and then
the bits that the reader took from the front of `b` (R60, R40). -/
def ReadsRequest (p : Params) (front b : Bits) (x : Option (Instr × Bits)) : Prop :=
  ∀ i rest, x = some (i, rest) → i.port = .cmd ∧ i.wf p = true ∧ encode p i ++ rest = front ++ b

section ReadsRequest
variable {p : Params} {front b : Bits} {i : Instr}

/-- All operands are read. -/
theorem ReadsRequest.done (hport : i.port = .cmd) (hwf : i.wf p = true) (he : encode p i = front) :
    ReadsRequest p front b (some (i, b)) := by
  rintro _ _ ⟨⟩
  exact ⟨hport, hwf, by rw [he]⟩

theorem ReadsRequest.none : ReadsRequest p front b none := nofun

/-- A reader and the readers that follow it, where the first takes the bits `enc a` of the value it gives. -/
theorem ReadsRequest.bind {α : Type} {x : Option (α × Bits)} {enc : α → Bits}
    {k : α × Bits → Option (Instr × Bits)}
    (hx : ∀ a r, x = some (a, r) → b = enc a ++ r)
    (hk : ∀ a r, x = some (a, r) → ReadsRequest p (front ++ enc a) r (k (a, r))) :
    ReadsRequest p front b (x >>= k) := by
  intro i rest h
  obtain ⟨⟨a, r⟩, ha, h⟩ := Option.bind_eq_some_iff.mp h
  rw [hx a r ha, ← List.append_assoc]
  exact hk a r ha i rest h

theorem ReadsRequest.field {w : Nat} {k : BitVec w × Bits → Option (Instr × Bits)}
    (hk : ∀ v r, ReadsRequest p (front ++ fieldBits v) r (k (v, r))) :
    ReadsRequest p front b (takeField w b >>= k) :=
  .bind (fun _ _ => takeField_eq_some) fun v r _ => hk v r

/-- A list after its 8-bit count (R65). -/
theorem ReadsRequest.items {w : Nat} {k : List (BitVec w) × Bits → Option (Instr × Bits)}
    (hk : ∀ l r, countOk l.length = true →
      ReadsRequest p (front ++ (bitsOf 8 l.length ++ itemBits l)) r (k (l, r))) :
    ReadsRequest p front b (takeField 8 b >>= fun x => takeFields w x.1.toNat x.2 >>= k) := by
  refine .field fun n r => .bind (fun _ _ h => (takeFields_eq_some h).2) fun l r' h => ?_
  obtain ⟨hl, -⟩ := takeFields_eq_some h
  rw [fieldBits, ← hl, List.append_assoc]
  exact hk l r' (decide_eq_true (hl ▸ n.isLt))

theorem ReadsRequest.float {k : FloatOp × Bits → Option (Instr × Bits)}
    (hk : ∀ x r, floatOk p x = true → ReadsRequest p (front ++ floatBits x) r (k (x, r))) :
    ReadsRequest p front b (takeFloat p.floatFmt b >>= k) :=
  .bind (fun _ _ h => (takeFloat_eq_some h).2) fun x r h => hk x r (beq_iff_eq.mpr (takeFloat_eq_some h).1)

end ReadsRequest

/-- The operands of each command are read in the order of the encoder's fields (R61). -/
theorem readsRequest_takeOperands (p : Params) (code : Nat) (b : Bits) :
    ReadsRequest p (codeBits code) b (takeOperands p.floatFmt code b) := by
  unfold takeOperands
  split
  · exact .done rfl rfl rfl
  · exact .field fun v r => .field fun w r => .done rfl rfl (by simp [encode])
  · exact .done rfl rfl rfl
  · exact .done rfl rfl rfl
  · exact .items fun data r h => .done rfl h rfl
  · exact .field fun w r => .done rfl rfl rfl
  · exact .done rfl rfl rfl
  · exact .float fun x r h => .field fun w r => .field fun n r => .field fun s r => .done rfl h (by simp [encode])
  · exact .field fun v r => .field fun w r => .field fun n r => .field fun s r => .done rfl rfl (by simp [encode])
  · exact .field fun b0 r => .field fun b1 r => .field fun b2 r => .done rfl rfl (by simp [encode])
  · exact .field fun ch r => .done rfl rfl rfl
  · exact .field fun ch r => .done rfl rfl rfl
  · exact .field fun ch r => .done rfl rfl rfl
  · exact .items fun chs r h => .done rfl h rfl
  · exact .field fun ch r => .field fun tc r => .field fun cj r => .field fun mode r => .field fun exc r =>
      .field fun caddr r => .done rfl rfl (by simp [encode])
  · exact .field fun ch r => .float fun x r h => .done rfl h (by simp [encode])
  · exact .field fun ch r => .field fun mode r => .field fun rd r => .field fun avg r => .field fun exc r =>
      .field fun hasEta r => .float fun eta r h => .done rfl h (by simp [encode])
  · exact .field fun ch r => .field fun fam r => .done rfl rfl (by simp [encode])
  · exact .field fun word r => .done rfl rfl rfl
  · exact .field fun word r => .done rfl rfl rfl
  · exact .field fun ch r => .done rfl rfl rfl
  · exact .field fun b0 r => .field fun b1 r => .field fun b2 r => .field fun b3 r => .done rfl rfl (by simp [encode])
  · exact .field fun ch r => .done rfl rfl rfl
  · exact .none

theorem isEncodingOf_of_decodeCmd {p : Params} {b : Bits} {i : Instr} (h : decodeCmd p.floatFmt b = .ok i) :
    IsEncodingOf p .cmd b i := by
  unfold decodeCmd at h
  split at h
  · cases h
  · rename_i code rest hcode
    split at h
    · split at h
      · rename_i hops
        obtain ⟨hport, hwf, he⟩ := readsRequest_takeOperands p code.toNat rest _ _ hops
        cases h
        rw [List.append_nil] at he
        exact ⟨hport, hwf, he.trans (takeField_eq_some hcode).symm⟩
      · cases h
      · cases h
    · cases h

/-! #### Words -/

theorem fieldBits_ofNat_natOf {w : Nat} {b : Bits} (h : b.length = w) : fieldBits (BitVec.ofNat w (natOf b)) = b := by
  subst h
  rw [fieldBits, BitVec.toNat_ofNat, bitsOf_mod, bitsOf_natOf]

/-- A word that decodes is the bits of its word (R40). -/
theorem exists_word_of_decodeWord {row : Word → Except Reject Instr} {b : Bits} {i : Instr}
    (h : decodeWord row b = .ok i) : ∃ w, fieldBits w = b ∧ row w = .ok i := by
  unfold decodeWord at h
  split at h
  · rename_i hlen
    exact ⟨_, fieldBits_ofNat_natOf hlen, h⟩
  · cases h

/-- Two fields of a word, one above the other, are one field. -/
theorem extract_append_extract {w : Nat} (x : BitVec w) (start len len' : Nat) :
    x.extractLsb' (start + len) len' ++ x.extractLsb' start len = x.extractLsb' start (len' + len) :=
  BitVec.extractLsb'_append_extractLsb'_eq_extractLsb' rfl

theorem rsenseWord_extract (w : Word) : rsenseWord (w.extractLsb' 27 5) (w.extractLsb' 0 27) = w :=
  (extract_append_extract w 0 27 5).trans (extract_self w)

theorem tcWord_extract (w : Word) :
    tcWord (w.extractLsb' 27 5) (w.extractLsb' 22 5) (w.extractLsb' 21 1) (w.extractLsb' 18 3) (w.extractLsb' 12 6)
      (w.extractLsb' 0 12) = w := by
  rw [tcWord, extract_append_extract w 22 5 5, extract_append_extract w 21 1 10, extract_append_extract w 18 3 11,
    extract_append_extract w 12 6 14]
  exact (extract_append_extract w 0 12 20).trans (extract_self w)

theorem diodeWord_extract (w : Word) :
    diodeWord (w.extractLsb' 27 5) (w.extractLsb' 26 1) (w.extractLsb' 25 1) (w.extractLsb' 24 1) (w.extractLsb' 22 2)
      (w.extractLsb' 0 22) = w := by
  rw [diodeWord, extract_append_extract w 26 1 5, extract_append_extract w 25 1 6, extract_append_extract w 24 1 7,
    extract_append_extract w 22 2 8]
  exact (extract_append_extract w 0 22 10).trans (extract_self w)

theorem resWord_extract (w : Word) : resWord (w.extractLsb' 24 8) (w.extractLsb' 0 24) = w :=
  (extract_append_extract w 0 24 8).trans (extract_self w)

/-- The identifier is one of the class: 0, or the table's entry (R71). -/
def CfgClass.HasId (t : ProbeId) (pid : BitVec 5) : CfgClass → Prop
  | .unconfigured => pid = 0
  | .thermocouple k => pid = tcId t k
  | .senseResistor => pid = t.rsense
  | .diode => pid = t.diode
  | .unsupported => True

theorem classify_hasId (t : ProbeId) (pid : BitVec 5) : (classify t pid).HasId t pid := by
  unfold classify
  repeat' split
  any_goals assumption
  trivial

/-- The encoding of a thermocouple row is the word of its type index (R69, R70). -/
theorem isEncodingOf_cfgwTc (p : Params) (t : BitVec 3) (cj : BitVec 5) (mode : BitVec 1) (exc : BitVec 3)
    (rsv : BitVec 6) (caddr : BitVec 12) :
    IsEncodingOf p .cfgw (fieldBits (tcWord (tcId p.probeId t) cj mode exc rsv caddr))
      (cfgwTc t cj mode exc rsv caddr) := by
  unfold cfgwTc tcId
  split <;> exact ⟨rfl, rfl, rfl⟩

theorem isEncodingOf_of_cfgWordRow {p : Params} {w : Word} {i : Instr} (h : cfgWordRow p.probeId w = .ok i) :
    IsEncodingOf p .cfgw (fieldBits w) i := by
  have hid := classify_hasId p.probeId (w.extractLsb' 27 5)
  unfold cfgWordRow at h
  generalize classify p.probeId (w.extractLsb' 27 5) = c at h hid
  cases c with
  | unconfigured =>
    cases h
    refine ⟨rfl, rfl, ?_⟩
    rw [encode, ← hid, rsenseWord_extract]
  | thermocouple t =>
    cases h
    have he := isEncodingOf_cfgwTc p t (w.extractLsb' 22 5) (w.extractLsb' 21 1) (w.extractLsb' 18 3)
      (w.extractLsb' 12 6) (w.extractLsb' 0 12)
    rwa [← hid, tcWord_extract] at he
  | senseResistor =>
    cases h
    refine ⟨rfl, rfl, ?_⟩
    rw [encode, ← hid, rsenseWord_extract]
  | diode =>
    cases h
    refine ⟨rfl, rfl, ?_⟩
    rw [encode, ← hid, diodeWord_extract]
  | unsupported => cases h

theorem isEncodingOf_of_resWordRow {p : Params} {w : Word} {i : Instr} (h : resWordRow w = .ok i) :
    IsEncodingOf p .resw (fieldBits w) i := by
  have he {status : Byte} (hs : (w.extractLsb' 24 8).toNat = status.toNat) :
      fieldBits (resWord status (w.extractLsb' 0 24)) = fieldBits w := by
    rw [← BitVec.eq_of_toNat_eq hs, resWord_extract]
  unfold resWordRow at h
  split at h <;> cases h <;> exact ⟨rfl, rfl, he ‹_›⟩

/-! #### Transactions -/

theorem take_eq_bitsOf {w n : Nat} {b : Bits} (h : w ≤ b.length) (hn : natOf (b.take w) = n) :
    b.take w = bitsOf w n := by
  conv_lhs => rw [← bitsOf_natOf (b.take w), hn, List.length_take_of_le h]

/-- The bits of a field taken from a sequence that is long enough are the bits it was taken from. -/
theorem fieldBits_ofNat_natOf_take {w : Nat} {b : Bits} (h : w ≤ b.length) :
    fieldBits (BitVec.ofNat w (natOf (b.take w))) = b.take w :=
  fieldBits_ofNat_natOf (List.length_take_of_le h)

/-- A transaction that decodes is its opcode byte, its address and, for a write, its word (R79, R80). -/
theorem isEncodingOf_of_decodeTxn {p : Params} {b : Bits} {i : Instr} (h : decodeTxn b = .ok i) :
    IsEncodingOf p .txn b i := by
  have haddr (hlen : 24 ≤ b.length) : fieldBits (BitVec.ofNat 16 (natOf ((b.drop 8).take 16))) = (b.drop 8).take 16 :=
    fieldBits_ofNat_natOf_take (by rw [List.length_drop]; omega)
  unfold decodeTxn at h
  dsimp only at h
  split_ifs at h with hwrite hread
  · cases h
    obtain ⟨hop, hlen⟩ := hwrite
    have hword := fieldBits_ofNat_natOf_take (w := 32) (b := b.drop 24) (by rw [List.length_drop]; omega)
    have hend : (b.drop 24).take 32 = (b.drop 8).drop 16 := by
      rw [List.drop_drop, List.take_of_length_le (by rw [List.length_drop]; omega)]
    refine ⟨rfl, rfl, ?_⟩
    rw [encode, ← take_eq_bitsOf (by omega) hop, haddr (by omega), hword, hend, List.take_append_drop,
      List.take_append_drop]
  · cases h
    obtain ⟨hop, hlen⟩ := hread
    have hend : (b.drop 8).take 16 = b.drop 8 := List.take_of_length_le (by rw [List.length_drop]; omega)
    refine ⟨rfl, rfl, ?_⟩
    rw [encode, ← take_eq_bitsOf (by omega) hop, haddr (by omega), hend, List.take_append_drop]

/-- Settles O11: port by port. -/
theorem decodedBitsAreTheEncoding : Obligations.DecodedBitsAreTheEncoding := by
  intro p port b i h
  cases port with
  | cmd => exact isEncodingOf_of_decodeCmd h
  | cfgw =>
    obtain ⟨w, rfl, hrow⟩ := exists_word_of_decodeWord h
    exact isEncodingOf_of_cfgWordRow hrow
  | resw =>
    obtain ⟨w, rfl, hrow⟩ := exists_word_of_decodeWord h
    exact isEncodingOf_of_resWordRow hrow
  | txn => exact isEncodingOf_of_decodeTxn h

/-! ### Illegal codes (R62) -/

theorem isCommandCode_eq_false {code : Nat}
    (h : code ∉ [0x01, 0x02, 0x03, 0x04, 0x05, 0x06, 0x07, 0x10, 0x11, 0x12, 0x20, 0x21, 0x22, 0x23, 0x30, 0x31, 0x32,
      0x33, 0x34, 0x35, 0x36, 0x40, 0x41]) : isCommandCode code = false := by
  simp only [List.mem_cons, List.not_mem_nil, or_false, not_or] at h
  simp only [isCommandCode, Bool.or_eq_false_iff, Bool.and_eq_false_iff, decide_eq_false_iff_not]
  omega

/-! ### Words written out -/

/-- Settles O13: the decoder is run on the six bit sequences. -/
theorem wordsOfTheTablesDecode : Obligations.WordsOfTheTablesDecode := by
  refine ⟨?_, ?_, ?_, ?_, ?_, ?_⟩ <;> decide

end Sys2Proof
end

section
/-! PROOFS. Words and transactions presented to the machine (spec/30_encoding.md R69 to R81). -/

namespace Sys2Proof.Machine

open Sys2Proof

/-! ### Configuration words (R69, R161) -/

section CfgWords
variable {i : Instr} {s : State}

/-- A word that is answered with its class's answer, where that is a record. -/
theorem answersOk_of_answerCfgWord {c : CfgClass} {w : Word} {r : Record} (hexec : exec i s = answerCfgWord c w s)
    (h : classAnswer s.par c w = .ok (.record r)) : AnswersOk i s (.record r) :=
  answersOk_of_answer hexec h

/-- A thermocouple row answers the record of its type index and its fields, whatever the identifier table is. -/
theorem answersOk_of_answerTcWord {t : BitVec 3} {cj : BitVec 5} {mode : BitVec 1} {exc : BitVec 3} {rsv : BitVec 6}
    {caddr : BitVec 12} (hexec : exec i s = answerTcWord t cj mode exc rsv caddr s) :
    AnswersOk i s (.record (.tc t cj mode exc rsv caddr)) :=
  answersOk_of_answerCfgWord hexec (by simp [classAnswer])

theorem answersOk_cfgwDiode (mode rd avg : BitVec 1) (exc : BitVec 2) (ideal : BitVec 22) (s : State) :
    AnswersOk (.cfgwDiode mode rd avg exc ideal) s
      (.record (.di mode rd avg exc ideal (ideal != 0) ⟨ideal.toNat, 20⟩)) :=
  answersOk_of_answerCfgWord (c := .diode) rfl (by simp [classAnswer])

theorem answersOk_cfgwRsense (rval : BitVec 27) (s : State) :
    AnswersOk (.cfgwRsense rval) s (.record (.rs rval ⟨rval.toNat, s.par.rsenseFrac⟩)) :=
  answersOk_of_answerCfgWord (c := .senseResistor) rfl (by simp [classAnswer])

theorem answersErr_cfgwUnconfigured (ignored : BitVec 27) (s : State) :
    AnswersErr (.cfgwUnconfigured ignored) s .notConfigured := rfl

end CfgWords

/-- Settles O44: each row gives its type index to the one answer of thermocouple words, and the identifier at that index
of the table is of that class. -/
theorem thermocoupleWordsAnswerTheirRecord : Obligations.ThermocoupleWordsAnswerTheirRecord := by
  refine fun s cj mode exc rsv caddr => ⟨⟨?_, ?_, ?_, ?_, ?_, ?_, ?_, ?_⟩, fun hp t pid hpid => ?_⟩
  iterate 8 exact answersOk_of_answerTcWord rfl
  obtain rfl : tcId s.par.probeId t = pid := Option.some.inj ((ids_getElem?_toNat _ t).symm.trans hpid)
  exact answersOk_cfgDecode_tcWord hp t cj mode exc rsv caddr

/-- Settles O45: the row and CFG_DECODE give the same response. -/
theorem otherWordsAnswerAsCfgDecode : Obligations.OtherWordsAnswerAsCfgDecode := by
  refine fun s => ⟨fun mode rd avg exc ideal => ?_, fun rval => ?_, fun ignored => ?_⟩
  · have hrow := answersOk_cfgwDiode mode rd avg exc ideal s
    exact ⟨hrow, fun hp => (answersOk_cfgDecode_diodeWord hp mode rd avg exc ideal).trans hrow.symm⟩
  · have hrow := answersOk_cfgwRsense rval s
    exact ⟨hrow, fun hp => (answersOk_cfgDecode_rsenseWord hp rval).trans hrow.symm⟩
  · have hrow := answersErr_cfgwUnconfigured ignored s
    have hclass : classify s.par.probeId ((rsenseWord 0 ignored).extractLsb' 27 5) = .unconfigured :=
      (rsenseWord_pid 0 ignored).symm ▸ classify_zero s.par.probeId
    exact ⟨hrow, (answersErr_cfgDecode hclass rfl).trans hrow.symm⟩

/-! ### Result words (R74, R75, R183) -/

/-- The three value bytes of a result word are its 24 value bits (R74). -/
theorem resWord_bytes (status : Byte) (v : BitVec 24) :
    ((resWord status v).extractLsb' 16 8 ++ (resWord status v).extractLsb' 8 8 ++ (resWord status v).extractLsb' 0 8 :
      BitVec 24) = v := by
  rw [extract_append_extract _ 8 8 8]
  exact (extract_append_extract _ 0 8 16).trans (resWord_value status v)

theorem resWordAnswer_statusByte (tag : BitVec 3) (v : BitVec 24) :
    resWordAnswer (resWord (statusByte tag) v) = .ok (outcomePayload tag (decide (tag.toNat < 5)) v.toInt) := by
  rw [resWordAnswer, resWord_status, resAnswer_statusByte, resWord_bytes]

/-- A result row answers the outcome of the tag whose status byte it has. -/
theorem answersOk_of_answerResWord {i : Instr} {s : State} {v : BitVec 24} (tag : BitVec 3)
    (hexec : exec i s = answerResWord (statusByte tag) v s) :
    AnswersOk i s (outcomePayload tag (decide (tag.toNat < 5)) v.toInt) :=
  answersOk_of_answer hexec (resWordAnswer_statusByte tag v)

/-- Settles O46: the eight rows in the order of their tags. -/
theorem resultWordsAnswerTheirOutcome : Obligations.ResultWordsAnswerTheirOutcome := fun _ _ =>
  ⟨answersOk_of_answerResWord 0 rfl, answersOk_of_answerResWord 1 rfl, answersOk_of_answerResWord 2 rfl,
    answersOk_of_answerResWord 3 rfl, answersOk_of_answerResWord 4 rfl, answersOk_of_answerResWord 5 rfl,
    answersOk_of_answerResWord 6 rfl, answersOk_of_answerResWord 7 rfl⟩

theorem resWordRow_of_malformed {w : Word} (h : ∀ j < 8, w.toNat / 2 ^ 24 ≠ 2 ^ j) :
    resWordRow w = .error .malformedStatus := by
  have hstatus : (w.extractLsb' 24 8).toNat = w.toNat / 2 ^ 24 := by
    rw [BitVec.extractLsb'_toNat, Nat.shiftRight_eq_div_pow]
    omega
  unfold resWordRow
  split
  case h_9 => rfl
  all_goals
    rename_i hb
    rw [hstatus] at hb
  · exact absurd hb (h 0 (by omega))
  · exact absurd hb (h 1 (by omega))
  · exact absurd hb (h 2 (by omega))
  · exact absurd hb (h 3 (by omega))
  · exact absurd hb (h 4 (by omega))
  · exact absurd hb (h 5 (by omega))
  · exact absurd hb (h 6 (by omega))
  · exact absurd hb (h 7 (by omega))

theorem cfgWordRow_of_not_mem {t : ProbeId} {w : Word} (h0 : w.extractLsb' 27 5 ≠ 0) (h : w.extractLsb' 27 5 ∉ t.ids) :
    cfgWordRow t w = .error .unsupportedWord := by
  rw [cfgWordRow, classify_of_not_mem h0 h]

/-! ### Register addresses (R32, R47) -/

/-- A bank of twenty registers of four bytes: the addresses in step of 4 are those of the channels. -/
theorem registerAddress_iff {a base : Nat} (hbase : base % 4 = 0) :
    (a % 4 = 0 ∧ base ≤ a ∧ a ≤ base + 0x4C) ↔ ∃ ch, IsChannel ch ∧ a = base + 4 * (ch.toNat - 1) := by
  constructor
  · rintro ⟨hstep, hmin, hmax⟩
    have hch : (BitVec.ofNat 5 ((a - base) / 4 + 1)).toNat = (a - base) / 4 + 1 := by
      rw [BitVec.toNat_ofNat]
      omega
    refine ⟨BitVec.ofNat 5 ((a - base) / 4 + 1), ⟨?_, ?_⟩, ?_⟩ <;> rw [hch] <;> omega
  · rintro ⟨ch, ⟨h1, h20⟩, rfl⟩
    omega

theorem isCfgReg_iff {a : Addr} : isCfgReg a = true ↔ ∃ ch, IsChannel ch ∧ a.toNat = 0x200 + 4 * (ch.toNat - 1) := by
  rw [← registerAddress_iff (by decide)]
  simp [isCfgReg, and_assoc]

theorem isResReg_iff {a : Addr} : isResReg a = true ↔ ∃ ch, IsChannel ch ∧ a.toNat = 0x010 + 4 * (ch.toNat - 1) := by
  rw [← registerAddress_iff (by decide)]
  simp [isResReg, and_assoc]

/-! ### The device's registers (R80) -/

theorem Remote.byteAt_of_read {r : Remote} {a : Nat} {v : Byte} (h : r.regs.read a = some v) : r.byteAt a = v := by
  rw [Remote.byteAt, h, Option.getD_some]

theorem Remote.register_getElem? (r : Remote) (a : Nat) {k : Nat} (h : k < 4) :
    (r.register a)[k]? = some (r.byteAt (a + k)) := by
  interval_cases k <;> rfl

/-- A register is the four bytes that a transaction wrote to it. -/
theorem Remote.register_of_read {r : Remote} {a : Nat} {bytes : List Byte} (hlen : bytes.length = 4)
    (h : ∀ k < 4, r.regs.read (a + k) = bytes[k]?) : r.register a = bytes := by
  apply List.ext_getElem?
  intro k
  by_cases hk : k < 4
  · obtain ⟨v, hv⟩ : ∃ v, bytes[k]? = some v := ⟨_, List.getElem?_eq_getElem (hlen ▸ hk)⟩
    rw [Remote.register_getElem? r a hk, hv, Remote.byteAt_of_read ((h k hk).trans hv)]
  · rw [List.getElem?_eq_none (by simpa [Remote.register] using hk), List.getElem?_eq_none (by omega)]

/-! ### Transactions (R79, R80) -/

section Transactions
variable {s : State} {addr : Addr}

theorem exec_txnWrite_of_isCfgReg (word : Word) (h : isCfgReg addr = true) :
    exec (.txnWrite addr word) s =
      .next { s with remote := { s.remote with regs := s.remote.regs.writeBytes addr.toNat (wordBytes word) } } :=
  (exec_txnWrite addr word s).trans (if_pos h)

theorem exec_txnWrite_refused (word : Word) (h : ¬ isCfgReg addr = true) :
    exec (.txnWrite addr word) s = .refused .remoteAddress := (exec_txnWrite addr word s).trans (if_neg h)

theorem exec_txnRead_of_register (h : isCfgReg addr = true ∨ isResReg addr = true) :
    exec (.txnRead addr) s = .next { s with
      remote := ⟨s.remote.regs, s.remote.answers ++ [s.remote.register addr.toNat], s.remote.draws + 1⟩ } :=
  (exec_txnRead addr s).trans (if_pos (Bool.or_eq_true_iff.mpr h))

theorem exec_txnRead_refused (h : ¬ (isCfgReg addr = true ∨ isResReg addr = true)) :
    exec (.txnRead addr) s = .refused .remoteAddress :=
  (exec_txnRead addr s).trans (if_neg (mt Bool.or_eq_true_iff.mp h))

end Transactions

/-- Settles O48: a configuration register's address is the one of a channel, and a write of consecutive bytes is read
back and leaves every other address. -/
theorem txnWriteStoresTheWord : Obligations.TxnWriteStoresTheWord := by
  refine fun s addr word => ⟨fun h => exec_txnWrite_refused word fun hreg => ?_, fun ch hch haddr => ?_⟩
  · obtain ⟨ch, hch, haddr⟩ := isCfgReg_iff.mp hreg
    exact h ch hch haddr
  · have hread (k : Nat) (hk : k < 4) :=
      Memory.read_writeBytes_same s.remote.regs addr.toNat k (wordBytes word) hk
    exact ⟨_, exec_txnWrite_of_isCfgReg word (isCfgReg_iff.mpr ⟨ch, hch, haddr⟩), hread 0 (by omega),
      hread 1 (by omega), hread 2 (by omega), hread 3 (by omega), fun a ha => Memory.read_writeBytes_other _ _ _ _ ha⟩

/-- Settles O49: the answer is the register's four bytes as the device holds them. -/
theorem txnReadReturnsTheRegister : Obligations.TxnReadReturnsTheRegister := by
  refine fun s addr => ⟨fun h => exec_txnRead_refused ?_, fun ch hch haddr => ?_⟩
  · rintro (hreg | hreg)
    · obtain ⟨ch, hch, haddr⟩ := isCfgReg_iff.mp hreg
      exact (h ch hch).1 haddr
    · obtain ⟨ch, hch, haddr⟩ := isResReg_iff.mp hreg
      exact (h ch hch).2 haddr
  · refine ⟨s.remote.register addr.toNat, rfl, fun k hk v hv => ?_, exec_txnRead_of_register ?_⟩
    · rw [Remote.register_getElem? _ _ hk, Remote.byteAt_of_read hv]
    · exact haddr.imp (fun h => isCfgReg_iff.mpr ⟨ch, hch, h⟩) fun h => isResReg_iff.mpr ⟨ch, hch, h⟩

/-- Settles O50: the register that is read holds the four bytes just written. -/
theorem registerReadsBackAsWritten : Obligations.RegisterReadsBackAsWritten := by
  intro s ch addr word hch haddr
  have hreg : isCfgReg addr = true := isCfgReg_iff.mpr ⟨ch, hch, haddr⟩
  refine ⟨_, (execAll_cons _ (exec_txnWrite_of_isCfgReg word hreg)).trans
    (execAll_cons _ (exec_txnRead_of_register (.inl hreg))), ?_, rfl, rfl⟩
  have hbytes := Remote.register_of_read
    (r := { s.remote with regs := s.remote.regs.writeBytes addr.toNat (wordBytes word) }) rfl
    fun k hk => Memory.read_writeBytes_same s.remote.regs addr.toNat k (wordBytes word) hk
  exact congrArg (s.remote.answers ++ [·]) hbytes

end Sys2Proof.Machine
end

section
/-! PROOFS. Steps, commands and the invariant (spec/00_scope.md R12, spec/10_state.md R22, R35). -/

namespace Sys2Proof.Machine

open Sys2Proof

/-! ### One response per command (R12) -/

/-- A completion is one response and one next block state, the same in every state with the same block state. -/
theorem complete_eq_respond (r : Except ErrCode (Payload × Block)) (b₀ : Block) :
    ∃ q b, ∀ s : State, s.blk = b₀ → complete r s = .next (respond q { s with blk := b }) := by
  cases r with
  | ok pb => exact ⟨.ok pb.1, pb.2, fun _ _ => rfl⟩
  | error e =>
    refine ⟨.err e, b₀, ?_⟩
    rintro s rfl
    rfl

/-- Settles O51: every instruction but the two transactions completes. -/
theorem everyCommandGetsOneResponse : Obligations.EveryCommandGetsOneResponse := by
  intro i s hi
  obtain ⟨r, hr⟩ := exists_exec_eq_complete s hi
  obtain ⟨q, b, h⟩ := complete_eq_respond r s.blk
  exact ⟨q, b, hr.trans (h s rfl)⟩

/-- A command's completion reads its operands, the parameters and the block state only (R12). -/
theorem exec_eq_complete_of_port_eq_cmd {i : Instr} {s s' : State} (hi : i.port = .cmd) (hpar : s.par = s'.par)
    (hblk : s.blk = s'.blk) : ∃ r, exec i s = complete r s ∧ exec i s' = complete r s' := by
  by_cases hpure : pureCommand i = true
  · obtain ⟨r, hs, hs'⟩ := exec_eq_answer_of_pureCommand hpure hpar
    refine ⟨r.map fun p => (p, s.blk), hs.trans (answer_eq_complete r s), ?_⟩
    rw [hblk]
    exact hs'.trans (answer_eq_complete r s')
  · obtain ⟨par, blk, _, _, _⟩ := s
    obtain ⟨par', blk', _, _, _⟩ := s'
    obtain rfl : par = par' := hpar
    obtain rfl : blk = blk' := hblk
    cases i with
    | bsReset | bsAlign | bsTake | bsStat => exact ⟨.ok (_, _), rfl, rfl⟩
    | bsWrite | bsLoad | bsRead => exact ⟨_, rfl, rfl⟩
    | cfgwTcJ | cfgwTcK | cfgwTcE | cfgwTcN | cfgwTcR | cfgwTcS | cfgwTcT | cfgwTcB | cfgwDiode | cfgwRsense
    | cfgwUnconfigured | reswValid | reswAdcOutOfRange | reswSensorUnderRange | reswSensorOverRange | reswCjSoftFault
    | reswCjHardFault | reswAdcHardOutOfRange | reswSensorHardFault | txnWrite | txnRead => cases hi
    | _ => exact absurd rfl hpure

/-- Settles O56: the two states get one completion. -/
theorem commandsDependOnTheBlockAlone : Obligations.CommandsDependOnTheBlockAlone := by
  intro i s s' hi hpar hblk
  obtain ⟨r, hs, hs'⟩ := exec_eq_complete_of_port_eq_cmd hi hpar hblk
  obtain ⟨q, b, h⟩ := complete_eq_respond r s'.blk
  exact ⟨q, b, hs.trans (h s hblk), hs'.trans (h s' rfl)⟩

/-- Settles O54: the table of R201, read off. -/
theorem errorCodesAreNumbered : Obligations.ErrorCodesAreNumbered := by
  refine ⟨rfl, fun e => ?_⟩
  cases e <;> decide

/-! ### Steps -/

section Step
variable {s : State} {x : Input} {rest : List Input} {b : Bits}

theorem popInput_of_inputs (h : s.inputs = x :: rest) : popInput s = { s with inputs := rest } := by
  rw [popInput, h, List.tail_cons]

/-- A step performs the first input on the state with that input taken. -/
theorem step_of_inputs (hp : s.par.ok = true) (h : s.inputs = x :: rest) :
    step s = performInput x { s with inputs := rest } := by
  rw [step, if_pos hp, h, ← popInput_of_inputs h]

theorem step_of_decode {port : Port} {i : Instr} (hp : s.par.ok = true) (h : s.inputs = .bits port b :: rest)
    (hd : decode s.par port b = .ok i) : step s = exec i { s with inputs := rest } := by
  rw [step_of_inputs hp h, performInput, hd]

theorem step_of_reject {port : Port} {e : Reject} (hp : s.par.ok = true) (h : s.inputs = .bits port b :: rest)
    (hd : decode s.par port b = .error e) : step s = onReject e { s with inputs := rest } := by
  rw [step_of_inputs hp h, performInput, hd]

end Step

/-- Settles O4: the step performs what is decoded. -/
theorem stepPerformsTheDecodedInstruction : Obligations.StepPerformsTheDecodedInstruction :=
  fun _ _ _ _ _ => step_of_decode

/-- Settles O5: the encoding decodes to the instruction. -/
theorem stepPerformsTheEncodedInstruction : Obligations.StepPerformsTheEncodedInstruction := fun s _ i hp hw h =>
  step_of_decode hp h (decodeOfEncodeIsTheInstruction s.par i hp hw)

/-- Settles O6: there is nothing to perform. -/
theorem stepWithoutInputKeepsTheState : Obligations.StepWithoutInputKeepsTheState := by
  intro s hp h
  rw [step, if_pos hp, h]

/-- Settles O8: no admissible table has such identifiers. -/
theorem badProbeTablesAreRefused : Obligations.BadProbeTablesAreRefused := by
  intro s h
  refine if_neg fun hp => ?_
  obtain ⟨hnodup, hzero⟩ := (ProbeId.ok_iff _).mp (Params.ok_probeId hp)
  exact h.elim (absurd hnodup) (absurd · hzero)

/-- Settles O12: the code is rejected before any operand is read. -/
theorem illegalCodesAnswerIllegalCmd : Obligations.IllegalCodesAnswerIllegalCmd := fun _ _ _ _ hp hcode hmem h =>
  step_of_reject hp h (decodeCmd_of_illegal _ _ _ hcode (isCommandCode_eq_false hmem))

/-- Settles O47: the word is whole, and its class or its status byte is rejected. -/
theorem wordsOfNoRowAreAnswered : Obligations.WordsOfNoRowAreAnswered := fun _ w _ hp =>
  ⟨fun h0 hmem h => step_of_reject hp h ((decodeWord_fieldBits _ w).trans (cfgWordRow_of_not_mem h0 hmem)),
    fun hstatus h => step_of_reject hp h ((decodeWord_fieldBits _ w).trans (resWordRow_of_malformed hstatus))⟩

/-! ### Described inputs (R12, R205) -/

/-- The answer is a next state with the same inputs to come and the same parameters. -/
def GoesOn (r : Result) (s : State) : Prop := ∃ t, r = .next t ∧ t.inputs = s.inputs ∧ t.par = s.par

theorem goesOn_exec_of_port_ne_txn {i : Instr} (s : State) (hi : i.port ≠ .txn) : GoesOn (exec i s) s := by
  obtain ⟨q, b, h⟩ := everyCommandGetsOneResponse i s hi
  exact ⟨_, h, rfl, rfl⟩

theorem goesOn_of_described {port : Port} {b : Bits} {s : State} (h : Input.described s.par (.bits port b)) :
    GoesOn (performInput (.bits port b) s) s := by
  rw [Input.described] at h
  rw [performInput]
  generalize decode s.par port b = r at h
  cases r with
  | ok i =>
    by_cases hi : i.port = .txn
    · cases i with
      | txnWrite addr word => exact ⟨_, exec_txnWrite_of_isCfgReg word h, rfl, rfl⟩
      | txnRead addr => exact ⟨_, exec_txnRead_of_register h, rfl, rfl⟩
      | _ => cases hi
    · exact goesOn_exec_of_port_ne_txn s hi
  | error e =>
    cases e with
    | illegalCmd | unsupportedWord | malformedStatus => exact ⟨_, rfl, rfl, rfl⟩
    | requestLength | wordLength | noTransaction => exact h.elim

/-- Settles O9: every kind of described input goes on. -/
theorem describedInputsNeverStop : Obligations.DescribedInputsNeverStop := by
  intro s x rest hp h hx
  rw [step_of_inputs hp h]
  cases x with
  | reset => exact ⟨_, rfl, rfl, rfl⟩
  | bits port b => exact goesOn_of_described (s := { s with inputs := rest }) hx

/-! ### Reset (R35, R100, R230) -/

/-- Settles O1: both resets leave the block of R35. -/
theorem resetAndBsResetEmptyTheBlock : Obligations.ResetAndBsResetEmptyTheBlock :=
  ⟨rfl, fun _ _ hp h => step_of_inputs hp h, exec_bsReset⟩

/-- An empty block is within every capacity (R22). -/
theorem Block.reset_inv (p : Params) : Block.reset.inv p := ⟨Nat.zero_le _, Nat.zero_le _, Nat.zero_le _⟩

/-- Settles O2: admissible defaults, an empty block and no remote register written. -/
theorem resetStateMeetsTheInvariant : Obligations.ResetStateMeetsTheInvariant :=
  ⟨by decide, Block.reset_inv _, Remote.reset_wf⟩

/-! ### The invariant (R22) -/

section Inv
variable {s t : State}

/-- The invariant speaks of the parameters, the block and the remote registers alone. -/
theorem State.Inv.of_block (hs : s.Inv) (hpar : t.par = s.par) (hremote : t.remote = s.remote)
    (hblk : t.blk.inv s.par) : t.Inv :=
  ⟨hpar ▸ hs.par, hpar ▸ hblk, hremote ▸ hs.remote⟩

theorem State.Inv.respond (hs : s.Inv) (q : Response) : (respond q s).Inv := hs.of_block rfl rfl hs.blk

/-- A completion keeps the invariant when the block state that it gives is within the capacity. -/
theorem State.Inv.of_complete {r : Except ErrCode (Payload × Block)} (hs : s.Inv)
    (hr : ∀ p b, r = .ok (p, b) → b.inv s.par) (h : complete r s = .next t) : t.Inv := by
  obtain ⟨p, b, hpb, rfl⟩ | ⟨e, -, rfl⟩ := complete_cases h
  · exact hs.of_block rfl rfl (hr p b hpb)
  · exact hs.respond _

theorem State.Inv.of_answer {r : Except ErrCode Payload} (hs : s.Inv) (h : answer r s = .next t) : t.Inv := by
  obtain ⟨p, -, rfl⟩ | ⟨e, -, rfl⟩ := answer_cases h
  · exact hs.respond _
  · exact hs.respond _

theorem packBits_inv {p : Params} {b b' : Block} {w v : Nat} (hb : b.inv p)
    (h : packBits p.bsCapBits b w v = .ok b') : b'.inv p := by
  obtain ⟨-, hload, hcursor⟩ := hb
  obtain ⟨-, hr⟩ | ⟨hfit, hr⟩ := packBits_cases h <;> cases hr
  exact ⟨by rwa [List.length_append, bitsOf_length], hload, hcursor⟩

theorem unpackBits_inv {p : Params} {b b' : Block} {w v : Nat} (hb : b.inv p) (h : unpackBits b w = .ok (v, b')) :
    b'.inv p := by
  obtain ⟨hpack, hload, -⟩ := hb
  obtain ⟨-, hr⟩ | ⟨hfit, hr⟩ := unpackBits_cases h <;> cases hr
  exact ⟨hpack, hload, hfit⟩

theorem loadBytes_inv {p : Params} {b b' : Block} {data : List Byte} (hb : b.inv p)
    (h : loadBytes p.bsCapBits b data = .ok b') : b'.inv p := by
  obtain ⟨hpack, -, -⟩ := hb
  obtain ⟨-, hr⟩ | ⟨hfit, hr⟩ := loadBytes_cases h <;> cases hr
  exact ⟨hpack, hfit, Nat.zero_le _⟩

/-- No instruction breaks the invariant: the checks of the packer and the unpacker stand before each change of the
block, and a write to the device keeps the canonical form. -/
theorem State.Inv.exec {i : Instr} (hs : s.Inv) (h : exec i s = .next t) : t.Inv := by
  obtain ⟨hpack, hload, hcursor⟩ := hs.blk
  by_cases hpure : pureCommand i = true
  · obtain ⟨r, hr, -⟩ := exec_eq_answer_of_pureCommand hpure (rfl : s.par = s.par)
    exact hs.of_answer (hr ▸ h)
  · cases i with
    | bsReset =>
      rw [exec_bsReset] at h
      cases h
      exact hs.of_block rfl rfl (Block.reset_inv _)
    | bsWrite v w =>
      refine hs.of_complete (fun p b hok => ?_) h
      obtain ⟨_, -, hok⟩ := bind_eq_ok hok
      obtain ⟨b', hb', hok⟩ := bind_eq_ok hok
      cases hok
      exact packBits_inv hs.blk hb'
    | bsAlign =>
      rw [exec_bsAlign] at h
      cases h
      exact hs.of_block rfl rfl ⟨alignBits_length_le _ _ (Params.ok_bsCapBits hs.par) hpack, hload, hcursor⟩
    | bsTake =>
      rw [exec_bsTake] at h
      cases h
      exact hs.of_block rfl rfl ⟨Nat.zero_le _, hload, hcursor⟩
    | bsLoad data =>
      refine hs.of_complete (fun p b hok => ?_) h
      obtain ⟨b', hb', hok⟩ := bind_eq_ok hok
      cases hok
      exact loadBytes_inv hs.blk hb'
    | bsRead w =>
      refine hs.of_complete (fun p b hok => ?_) h
      obtain ⟨_, -, hok⟩ := bind_eq_ok hok
      obtain ⟨⟨v, b'⟩, hb', hok⟩ := bind_eq_ok hok
      cases hok
      exact unpackBits_inv hs.blk hb'
    | bsStat =>
      cases (bsStat_ok s).symm.trans h
      exact hs.respond _
    | cfgwTcJ | cfgwTcK | cfgwTcE | cfgwTcN | cfgwTcR | cfgwTcS | cfgwTcT | cfgwTcB =>
      exact hs.of_answer (r := classAnswer s.par (.thermocouple _) _) h
    | cfgwDiode => exact hs.of_answer (r := classAnswer s.par .diode _) h
    | cfgwRsense => exact hs.of_answer (r := classAnswer s.par .senseResistor _) h
    | cfgwUnconfigured => exact hs.of_answer (r := .error .notConfigured) h
    | reswValid | reswAdcOutOfRange | reswSensorUnderRange | reswSensorOverRange | reswCjSoftFault | reswCjHardFault
    | reswAdcHardOutOfRange | reswSensorHardFault => exact hs.of_answer (r := resWordAnswer (resWord _ _)) h
    | txnWrite addr word =>
      rw [exec_txnWrite, execTxnWrite] at h
      split at h <;> cases h
      exact ⟨hs.par, hs.blk, Memory.writeBytes_wf _ _ hs.remote⟩
    | txnRead addr =>
      rw [exec_txnRead, execTxnRead] at h
      split at h <;> cases h
      exact ⟨hs.par, hs.blk, hs.remote⟩
    | _ => exact absurd rfl hpure

theorem State.Inv.popInput (hs : s.Inv) : (popInput s).Inv := hs.of_block rfl rfl hs.blk

theorem State.Inv.resetInput (hs : s.Inv) : (resetInput s).Inv := hs.of_block rfl rfl (Block.reset_inv _)

/-- A step keeps the state, resets the block, performs an instruction or answers an error. -/
theorem State.Inv.step (hs : s.Inv) (h : step s = .next t) : t.Inv := by
  obtain ⟨-, ⟨-, rfl⟩ | ⟨_, -, rfl⟩ | ⟨_, _, _, i, -, -, hexec⟩ | ⟨_, _, _, e, -, -, rfl⟩⟩ := step_cases h
  · exact hs
  · exact hs.popInput.resetInput
  · exact hs.popInput.exec hexec
  · exact hs.popInput.respond _

end Inv

/-- Settles O3: the invariant is kept by every step, and the three commands that could break R22 check first. -/
theorem everyStepKeepsTheInvariant : Obligations.EveryStepKeepsTheInvariant :=
  ⟨fun _ _ => State.Inv.step, fun _ _ _ h1 h64 => bsWrite_overflow ⟨h1, h64⟩, fun _ _ => bsLoad_overflow,
    fun _ _ h1 h64 => bsRead_underrun ⟨h1, h64⟩⟩

end Sys2Proof.Machine
end

section
/-! PROOFS. Fields side by side in the packer and the unpacker (spec/20_memory.md R41, spec/43_config_assembler.md
R150). -/

namespace Sys2Proof.Machine

open Sys2Proof

/-! ### Two fields and the field of the summed width (R41) -/

/-- The low `w` bits of a value are those of the 64 bits that hold it (R102). -/
theorem bitsOf_ofNat_64 {w : Nat} (h : w ≤ 64) (v : Nat) : bitsOf w (BitVec.ofNat 64 v).toNat = bitsOf w v := by
  rw [BitVec.toNat_ofNat, ← bitsOf_mod w (v % 2 ^ 64), Nat.mod_mod_of_dvd v (pow_dvd_pow 2 h), bitsOf_mod]

/-- The number of a sequence is the joined value of its two parts. -/
theorem natOf_take_add (b : Bits) {w₁ w₂ : Nat} (h : w₁ + w₂ ≤ b.length) :
    natOf (b.take (w₁ + w₂)) = natOf (b.take w₁) * 2 ^ w₂ + natOf ((b.drop w₁).take w₂) := by
  have hlen : ((b.drop w₁).take w₂).length = w₂ := List.length_take_of_le (by rw [List.length_drop]; omega)
  rw [List.take_add, natOf_append, hlen]

/-- Settles O20: the packed bits of the two fields are those of the joined value, and the bits of the wide read are
those of the two narrow ones in their order. -/
theorem adjacentFieldsAreOneField : Obligations.AdjacentFieldsAreOneField := by
  constructor
  · intro s v1 v2 w1 w2 w h1 h2 hw h64 hfit
    refine ⟨_, _, _, bsWrite_ok ⟨h1, by omega⟩ (by omega), bsWrite_ok ⟨h2, by omega⟩ ?_,
      bsWrite_ok ⟨by omega, h64⟩ hfit, ?_⟩
    · simp only [respond_blk, respond_par, List.length_append, bitsOf_length]
      omega
    · simp only [respond_blk]
      rw [List.append_assoc, bitsOf_append, bitsOf_ofNat_64 h64, hw]
  · intro s w1 w2 w h1 h2 hw h64 henough
    refine ⟨_, _, _, _, _, _, bsRead_ok ⟨h1, by omega⟩ (by omega), bsRead_ok ⟨h2, by omega⟩ ?_,
      bsRead_ok ⟨by omega, h64⟩ henough, rfl, rfl, rfl, ?_, ?_⟩
    · simp only [respond_blk]
      omega
    · rw [respond_blk, unread_advance, toNat_ofNat_natOf (by rw [List.length_take]; omega),
        toNat_ofNat_natOf (by rw [List.length_take]; omega), toNat_ofNat_natOf (by rw [List.length_take]; omega), hw]
      exact natOf_take_add _ (by rw [unread_length]; omega)
    · simp only [respond_blk]
      rw [hw, Nat.add_assoc]

/-! ### A transaction packed by hand (R150, R238) -/

/-- The big-endian bytes of an address hold its bits in wire order (R79). -/
theorem bitsOfBytes_addrBytes (a : Addr) : bitsOfBytes (addrBytes a) = fieldBits a := by
  rw [addrBytes, bitsOfBytes, bitsOfBytes, bitsOfBytes, List.append_nil, ← fieldBits_append,
    extract_append_extract a 0 8 8, extract_self]

theorem bitsOfBytes_wordBytes (w : Word) : bitsOfBytes (wordBytes w) = fieldBits w := by
  have h : w.extractLsb' 24 8 ++ (w.extractLsb' 16 8 ++ (w.extractLsb' 8 8 ++ w.extractLsb' 0 8)) = w := by
    rw [extract_append_extract w 0 8 8, extract_append_extract w 0 16 8]
    exact (extract_append_extract w 0 24 8).trans (extract_self w)
  rw [wordBytes, bitsOfBytes, bitsOfBytes, bitsOfBytes, bitsOfBytes, bitsOfBytes, List.append_nil, ← fieldBits_append,
    ← fieldBits_append, ← fieldBits_append, h]

/-- The bits of a write transaction are those of its opcode, its address and its word (R79). -/
theorem bitsOfBytes_txnWriteBytes (a : Addr) (w : Word) :
    bitsOfBytes (txnWriteBytes a w) = bitsOf 8 0x02 ++ (fieldBits a ++ fieldBits w) := by
  rw [txnWriteBytes, List.cons_append, bitsOfBytes, bitsOfBytes_append, bitsOfBytes_addrBytes, bitsOfBytes_wordBytes]
  rfl

/-- The fields of a thermocouple write as R150 packs them, after the opcode and the address. -/
def tcWriteFields (ch : BitVec 5) (pid cj : BitVec 5) (mode : BitVec 1) (exc : BitVec 3) (caddr : BitVec 12) :
    List ValueField :=
  [(0x02, 8), (BitVec.ofNat 64 (0x200 + 4 * (ch.toNat - 1)), 16), (pid.setWidth 64, 5), (cj.setWidth 64, 5),
    (mode.setWidth 64, 1), (exc.setWidth 64, 3), (0, 6), (caddr.setWidth 64, 12)]

theorem bitsOf_setWidth_64 {w : Nat} (h : w ≤ 64) (v : BitVec w) : bitsOf w (v.setWidth 64).toNat = fieldBits v := by
  rw [BitVec.toNat_setWidth, ← BitVec.toNat_ofNat, bitsOf_ofNat_64 h, fieldBits]

/-- The packed fields are the bits of the transaction that the assembler builds (R150, R151). -/
theorem fieldsBits_tcWriteFields (ch : BitVec 5) (pid cj : BitVec 5) (mode : BitVec 1) (exc : BitVec 3)
    (caddr : BitVec 12) :
    fieldsBits (tcWriteFields ch pid cj mode exc caddr) =
      bitsOfBytes (writeTransaction ch (tcWord pid cj mode exc 0 caddr)) := by
  rw [← txnWriteBytes_startAddr, bitsOfBytes_txnWriteBytes, fieldBits_tcWord, fieldBits, startAddr_toNat,
    ← bitsOf_ofNat_64 (w := 16) (by omega), ← bitsOf_setWidth_64 (by omega) pid, ← bitsOf_setWidth_64 (by omega) cj,
    ← bitsOf_setWidth_64 (by omega) mode, ← bitsOf_setWidth_64 (by omega) exc, ← bitsOf_setWidth_64 (by omega) caddr]
  simp only [tcWriteFields, fieldsBits_cons, fieldsBits_nil, List.append_nil]
  rfl

theorem legalWidths_tcWriteFields (ch : BitVec 5) (pid cj : BitVec 5) (mode : BitVec 1) (exc : BitVec 3)
    (caddr : BitVec 12) : LegalWidths (tcWriteFields ch pid cj mode exc caddr) := by
  simp [LegalWidths, tcWriteFields]

/-- Settles O41: the fields fill seven bytes, which BS_TAKE returns as they are. -/
theorem handPackedWriteIsTheAssemblers : Obligations.HandPackedWriteIsTheAssemblers := by
  intro s ch tc cj mode exc caddr pid hempty hcap hch hcj hpid
  obtain rfl : tcId s.par.probeId tc = pid := Option.some.inj ((ids_getElem?_toNat _ tc).symm.trans hpid)
  have hbits := fieldsBits_tcWriteFields ch (tcId s.par.probeId tc) cj mode exc caddr
  have hlen := (congrArg List.length hbits).trans (bitsOfBytes_length _)
  have hpack := execAll_bsWrite (s := s) (legalWidths_tcWriteFields ch (tcId s.par.probeId tc) cj mode exc caddr)
    (by rw [hempty, hlen]; exact hcap)
  have htake := (execAll_append [.bsTake] hpack).trans (execAll_cons [] (exec_bsTake _))
  refine ⟨_, _, _, answersOk_cfgTc hch hcj, htake, ?_⟩
  simp only [respond_resps]
  rw [hempty, List.nil_append, alignBits_of_aligned _ (by rw [hlen, Nat.mul_mod_right]), hbits, bytesOf_bitsOfBytes]
  rfl

end Sys2Proof.Machine
end

section
/-! PROOFS. Assembler lines and pseudo-instructions (spec/30_encoding.md R66, R67). -/

namespace Sys2Proof.Machine

open Sys2Proof

/-! ### Numbers (R66) -/

theorem readDigits_append (base : Nat) (digit? : Char → Option Nat) (acc : Nat) (xs ys : List Char) :
    readDigits base digit? acc (xs ++ ys) =
      (readDigits base digit? acc xs).bind fun n => readDigits base digit? n ys := by
  induction xs generalizing acc with
  | nil => rfl
  | cons c cs ih =>
    rw [List.cons_append, readDigits, readDigits]
    cases digit? c with
    | none => rfl
    | some d => exact ih _

/-- The digits of a number in a base are read as the number. -/
theorem readDigits_toDigits {base : Nat} {digit? : Char → Option Nat} (hbase : 1 < base)
    (hdigit : ∀ d < base, digit? (Nat.digitChar d) = some d) (n : Nat) :
    readDigits base digit? 0 (Nat.toDigits base n) = some n := by
  induction n using Nat.strongRecOn with
  | ind n ih =>
    have hlast (acc d : Nat) (hd : d < base) :
        readDigits base digit? acc [Nat.digitChar d] = some (acc * base + d) := by
      rw [readDigits, hdigit d hd]
      rfl
    by_cases hn : n < base
    · rw [Nat.toDigits_of_lt_base hn, hlast 0 n hn, Nat.zero_mul, Nat.zero_add]
    · have hn : base ≤ n := Nat.not_lt.mp hn
      rw [Nat.toDigits_of_base_le hbase hn, readDigits_append, ih _ (Nat.div_lt_self (by omega) hbase),
        Option.bind_some, hlast _ _ (Nat.mod_lt n (by omega)), Nat.div_add_mod']

theorem decDigit?_digitChar : ∀ d < 10, decDigit? (Nat.digitChar d) = some d := by decide

theorem hexDigit?_digitChar : ∀ d < 16, hexDigit? (Nat.digitChar d) = some d := by decide

/-- No decimal digit is the `x` of a hexadecimal number. -/
theorem readNumber_decimal (n : Nat) : readNumber (Nat.toDigits 10 n) = some n := by
  have hx (ds : List Char) : Nat.toDigits 10 n ≠ '0' :: 'x' :: ds := fun h => by
    have hmem : 'x' ∈ Nat.toDigits 10 n := by simp [h]
    have hdigit : 'x'.isDigit = true := Nat.isDigit_of_mem_toDigits (by decide) (by decide) hmem
    exact absurd hdigit (by decide)
  unfold readNumber
  split
  case h_1 h => exact absurd h Nat.toDigits_ne_nil
  case h_2 h => exact absurd h (hx _)
  case h_3 h => exact absurd h (hx _)
  case h_4 => exact readDigits_toDigits (by decide) decDigit?_digitChar n

theorem readNumber_hexadecimal (n : Nat) : readNumber (['0', 'x'] ++ Nat.toDigits 16 n) = some n := by
  have hread := readDigits_toDigits (by decide) hexDigit?_digitChar n
  cases hds : Nat.toDigits 16 n with
  | nil => exact absurd hds Nat.toDigits_ne_nil
  | cons d ds =>
    rw [hds] at hread
    exact hread

/-! ### Operands -/

@[simp] theorem numField_toNat {w : Nat} (v : BitVec w) : numField w v.toNat = some v := by
  rw [numField, if_pos v.isLt, BitVec.ofNat_toNat, BitVec.setWidth_eq]

@[simp] theorem numField_zero (w : Nat) : numField w 0 = some 0 := if_pos (by positivity)

@[simp] theorem numFields_map_toNat {w : Nat} (l : List (BitVec w)) : numFields w (l.map BitVec.toNat) = some l := by
  induction l with
  | nil => rfl
  | cons v vs ih => simp [numFields, ih]

theorem countArg_of_lt {α : Type} {l : List α} (h : l.length < 256) : countArg l = some l :=
  if_pos (decide_eq_true h)

theorem floatArg_of_fmt {fmt : FloatFmt} {x : FloatOp} (h : x.fmt = fmt) : floatArg fmt x = some x := if_pos h

/-- The channel operand of a line. -/
def channelArg : AsmArg → Option (BitVec 5)
  | .num n => numField 5 n
  | _ => none

@[simp] theorem channelArg_toNat (c : BitVec 5) : channelArg (.num c.toNat) = some c := numField_toNat c

/-- The names of R70 stand for the type indices. -/
theorem tcArg_name : ∀ q ∈ [("J", 0), ("K", 1), ("E", 2), ("N", 3), ("R", 4), ("S", 5), ("T", 6), ("B", 7)],
    tcArg (.name q.1) = tcArg (.num q.2) := by decide

/-! ### Lines (R66) -/

section Lines
variable (p : Params)

theorem assemble_bsWrite (v w : Nat) :
    assemble p ⟨"bs.write", [.num v, .num w]⟩ = (do some (.bsWrite (← numField 64 v) (← numField 7 w))) := rfl

theorem assemble_bsLoad (ns : List Nat) :
    assemble p ⟨"bs.load", [.bytes ns]⟩ = (do some (.bsLoad (← countArg (← numFields 8 ns)))) := rfl

theorem assemble_bsRead (w : Nat) : assemble p ⟨"bs.read", [.num w]⟩ = (do some (.bsRead (← numField 7 w))) := rfl

theorem assemble_fxEncode (x : FloatOp) (w n : Nat) (sg : String) :
    assemble p ⟨"fx.enc", [.float x, .num w, .num n, .name sg]⟩ =
      (do some (.fxEncode (← floatArg p.floatFmt x) (← numField 7 w) (← numField 7 n) (← signName sg))) := rfl

theorem assemble_fxDecode (b w n : Nat) (sg : String) :
    assemble p ⟨"fx.dec", [.num b, .num w, .num n, .name sg]⟩ =
      (do some (.fxDecode (← numField 64 b) (← numField 7 w) (← numField 7 n) (← signName sg))) := rfl

theorem assemble_fxDecode24 (b0 b1 b2 : Nat) :
    assemble p ⟨"fx.dec24", [.num b0, .num b1, .num b2]⟩ =
      (do some (.fxDecode24 (← numField 8 b0) (← numField 8 b1) (← numField 8 b2))) := rfl

theorem assemble_chStartAddr (c : Nat) :
    assemble p ⟨"ch.cfgaddr", [.num c]⟩ = (do some (.chStartAddr (← numField 5 c))) := rfl

theorem assemble_chResultAddr (c : Nat) :
    assemble p ⟨"ch.resaddr", [.num c]⟩ = (do some (.chResultAddr (← numField 5 c))) := rfl

theorem assemble_chMask (c : Nat) : assemble p ⟨"ch.mask", [.num c]⟩ = (do some (.chMask (← numField 5 c))) := rfl

theorem assemble_chMaskSet (cs : List Nat) :
    assemble p ⟨"ch.maskset", [.set cs]⟩ = (do some (.chMaskSet (← countArg (← numFields 5 cs)))) := rfl

theorem assemble_cfgTc (c t : AsmArg) (args : List AsmArg) :
    assemble p ⟨"cfg.tc", c :: t :: args⟩ = (do asmTc (← channelArg c) (← tcArg t) args) := by
  cases c <;> rfl

theorem assemble_cfgRsense (c : Nat) (r : FloatOp) :
    assemble p ⟨"cfg.rsense", [.num c, .float r]⟩ =
      (do some (.cfgRsense (← numField 5 c) (← floatArg p.floatFmt r))) := rfl

theorem assemble_cfgDiode (c : AsmArg) (args : List AsmArg) :
    assemble p ⟨"cfg.diode", c :: args⟩ = (do asmDiode p.floatFmt (← channelArg c) args) := by
  cases c <;> rfl

theorem assemble_cfgUnsup (c : Nat) (fam : String) :
    assemble p ⟨"cfg.unsup", [.num c, .name fam]⟩ = (do some (.cfgUnsup (← numField 5 c) (← famName fam))) := rfl

theorem assemble_cfgDecode (w : Nat) :
    assemble p ⟨"cfg.decode", [.num w]⟩ = (do some (.cfgDecode (← numField 32 w))) := rfl

theorem assemble_cfgCheck (w : Nat) :
    assemble p ⟨"cfg.check", [.num w]⟩ = (do some (.cfgCheck (← numField 32 w))) := rfl

theorem assemble_cfgReadReq (c : Nat) :
    assemble p ⟨"cfg.rdreq", [.num c]⟩ = (do some (.cfgReadReq (← numField 5 c))) := rfl

theorem assemble_resDecode (b0 b1 b2 b3 : Nat) :
    assemble p ⟨"res.decode", [.num b0, .num b1, .num b2, .num b3]⟩ =
      (do some (.resDecode (← numField 8 b0) (← numField 8 b1) (← numField 8 b2) (← numField 8 b3))) := rfl

theorem assemble_resReadReq (c : Nat) :
    assemble p ⟨"res.rdreq", [.num c]⟩ = (do some (.resReadReq (← numField 5 c))) := rfl

end Lines

/-! ### `key=value` operands (R67) -/

@[simp] theorem AsmArg.key?_keyNum (k : String) (n : Nat) : (AsmArg.keyNum k n).key? = some k := rfl
@[simp] theorem AsmArg.key?_keyFloat (k : String) (x : FloatOp) : (AsmArg.keyFloat k x).key? = some k := rfl
@[simp] theorem AsmArg.key?_keyNone (k : String) : (AsmArg.keyNone k).key? = some k := rfl

/-- `cfg.tc` with all four keys written. -/
theorem asmTc_of_keys (ch : BitVec 5) (tc : BitVec 3) (cj : BitVec 5) (mode : BitVec 1) (exc : BitVec 3)
    (caddr : BitVec 12) :
    asmTc ch tc [.keyNum "cj" cj.toNat, .keyNum "mode" mode.toNat, .keyNum "exc" exc.toNat,
      .keyNum "caddr" caddr.toNat] = some (.cfgTc ch tc cj mode exc caddr) := by
  simp [asmTc, keysOk, keyField]

/-- `cfg.diode` with its four number keys written, and an operand for `eta`. -/
theorem asmDiode_of_keys {fmt : FloatFmt} {hasEta : BitVec 1} {x : FloatOp} {eta : AsmArg}
    (hkey : eta.key? = some "eta") (heta : etaField fmt [eta] = some (hasEta, x)) (ch : BitVec 5)
    (mode rd avg : BitVec 1) (exc : BitVec 2) :
    asmDiode fmt ch [.keyNum "mode" mode.toNat, .keyNum "rd" rd.toNat, .keyNum "avg" avg.toNat, .keyNum "exc" exc.toNat,
      eta] = some (.cfgDiode ch mode rd avg exc hasEta x) := by
  simp [asmDiode, keysOk, keyField, etaField, hkey, heta]

/-- An operand written with another key is passed over. -/
theorem keyField_cons_of_ne {key : String} {a : AsmArg} (h : a.key? ≠ some key) (w : Nat) (args : List AsmArg) :
    keyField w key (a :: args) = keyField w key args := by
  cases a with
  | keyNum | keyFloat | keyNone => exact if_neg fun hk => h (congrArg some hk)
  | num | float | bytes | set | name => rfl

theorem etaField_cons_of_ne {a : AsmArg} (h : a.key? ≠ some "eta") (fmt : FloatFmt) (args : List AsmArg) :
    etaField fmt (a :: args) = etaField fmt args := by
  cases a with
  | keyNum | keyFloat | keyNone => exact if_neg fun hk => h (congrArg some hk)
  | num | float | bytes | set | name => rfl

/-- No operand is written with the key (R67: it is omitted). -/
def Omitted (key : String) (args : List AsmArg) : Prop := ∀ a ∈ args, a.key? ≠ some key

theorem keyField_of_omitted {key : String} {args : List AsmArg} (h : Omitted key args) (w : Nat) :
    keyField w key args = some 0 := by
  induction args with
  | nil => rfl
  | cons a args ih =>
    obtain ⟨ha, hargs⟩ := List.forall_mem_cons.mp h
    rw [keyField_cons_of_ne ha, ih hargs]

theorem etaField_of_omitted {args : List AsmArg} (h : Omitted "eta" args) (fmt : FloatFmt) :
    etaField fmt args = some (0, floatZero fmt) := by
  induction args with
  | nil => rfl
  | cons a args ih =>
    obtain ⟨ha, hargs⟩ := List.forall_mem_cons.mp h
    rw [etaField_cons_of_ne ha, ih hargs]

section Written
variable {key : String} {args : List AsmArg} (h : Omitted key args)
include h

/-- Writing an omitted operand, with a key that the line may have, passes the check of the keys as before. -/
theorem keysOk_cons_of_omitted {keys : List String} {a : AsmArg} (hmem : key ∈ keys) (ha : a.key? = some key) :
    keysOk keys (a :: args) = keysOk keys args := by
  have hnew : key ∉ args.filterMap AsmArg.key? := fun hkey => by
    obtain ⟨b, hb, hbkey⟩ := List.mem_filterMap.mp hkey
    exact h b hb hbkey
  simp [keysOk, ha, hmem, hnew]

/-- An omitted operand is read as when it is written as 0. -/
theorem keyField_cons_zero_of_omitted (w : Nat) (key' : String) :
    keyField w key' (.keyNum key 0 :: args) = keyField w key' args := by
  by_cases hkey : key = key'
  · obtain rfl := hkey
    rw [keyField_of_omitted h, keyField, if_pos rfl, numField_zero]
  · exact keyField_cons_of_ne (by simpa using hkey) w args

/-- `cfg.tc` with an omitted operand is `cfg.tc` with that operand 0. -/
theorem asmTc_cons_zero_of_omitted (hmem : key ∈ ["cj", "mode", "exc", "caddr"]) (ch : BitVec 5) (tc : BitVec 3) :
    asmTc ch tc (.keyNum key 0 :: args) = asmTc ch tc args := by
  simp only [asmTc, keysOk_cons_of_omitted h hmem (AsmArg.key?_keyNum key 0), keyField_cons_zero_of_omitted h]

/-- `cfg.diode` with an omitted number is `cfg.diode` with that number 0. -/
theorem asmDiode_cons_zero_of_omitted (hmem : key ∈ ["mode", "rd", "avg", "exc"]) (fmt : FloatFmt) (ch : BitVec 5) :
    asmDiode fmt ch (.keyNum key 0 :: args) = asmDiode fmt ch args := by
  have hne : key ≠ "eta" := by
    rintro rfl
    exact absurd hmem (by decide)
  have hmem' : key ∈ ["mode", "rd", "avg", "exc", "eta"] := List.mem_append_left ["eta"] hmem
  simp only [asmDiode, keysOk_cons_of_omitted h hmem' (AsmArg.key?_keyNum key 0), keyField_cons_zero_of_omitted h,
    etaField_cons_of_ne (a := .keyNum key 0) (by simpa using hne)]

end Written

/-- `cfg.diode` with `eta` omitted is `cfg.diode` with `eta=none`. -/
theorem asmDiode_cons_none_of_omitted {args : List AsmArg} (h : Omitted "eta" args) (fmt : FloatFmt) (ch : BitVec 5) :
    asmDiode fmt ch (.keyNone "eta" :: args) = asmDiode fmt ch args := by
  have hkey {key : String} (hne : "eta" ≠ key) (w : Nat) :
      keyField w key (.keyNone "eta" :: args) = keyField w key args := keyField_cons_of_ne (by simpa using hne) w args
  have heta : etaField fmt (.keyNone "eta" :: args) = etaField fmt args := by
    rw [etaField_of_omitted h, etaField, if_pos rfl]
  simp only [asmDiode, keysOk_cons_of_omitted h (keys := ["mode", "rd", "avg", "exc", "eta"]) (by decide)
    (AsmArg.key?_keyNone "eta"), heta, hkey (key := "mode") (by decide), hkey (key := "rd") (by decide),
    hkey (key := "avg") (by decide), hkey (key := "exc") (by decide)]

/-! ### The obligations -/

/-- Settles O57: each line's operands are read back from their numbers. -/
theorem linesAssembleToTheirCommand : Obligations.LinesAssembleToTheirCommand := by
  intro p
  refine ⟨rfl, rfl, rfl, rfl, fun v w => ⟨?_, ?_⟩, fun data hdata => ?_, fun x b w n hx => ⟨?_, ?_, ?_, ?_⟩,
    fun b0 b1 b2 b3 => ⟨?_, ?_⟩, fun c => ⟨?_, ?_, ?_, ?_, ?_⟩, fun chs hchs => ?_, fun c t j m e a => ?_,
    fun c args q hq => ?_, fun n => ⟨readNumber_decimal n, readNumber_hexadecimal n⟩, fun c x hx => ?_,
    fun c m r g e x hx => ?_, fun c m r g e => ⟨floatZero p.floatFmt, ?_⟩, fun c => ⟨?_, ?_, ?_, ?_⟩, fun w => ⟨?_, ?_⟩⟩
  · simp [assemble_bsWrite]
  · simp [assemble_bsRead]
  · simp [assemble_bsLoad, countArg_of_lt hdata]
  · simp [assemble_fxEncode, floatArg_of_fmt hx, signName]
  · simp [assemble_fxEncode, floatArg_of_fmt hx, signName]
  · simp [assemble_fxDecode, signName]
  · simp [assemble_fxDecode, signName]
  · simp [assemble_fxDecode24]
  · simp [assemble_resDecode]
  · simp [assemble_chStartAddr]
  · simp [assemble_chResultAddr]
  · simp [assemble_chMask]
  · simp [assemble_cfgReadReq]
  · simp [assemble_resReadReq]
  · simp [assemble_chMaskSet, countArg_of_lt hchs]
  · simp [assemble_cfgTc, tcArg, asmTc_of_keys]
  · rw [assemble_cfgTc, assemble_cfgTc, tcArg_name q hq]
  · simp [assemble_cfgRsense, floatArg_of_fmt hx]
  · have heta : etaField p.floatFmt [.keyFloat "eta" x] = some (1, x) := by simp [etaField, hx]
    simp [assemble_cfgDiode, asmDiode_of_keys rfl heta]
  · simp [assemble_cfgDiode, asmDiode_of_keys (eta := .keyNone "eta") rfl rfl]
  · simp [assemble_cfgUnsup, famName]
  · simp [assemble_cfgUnsup, famName]
  · simp [assemble_cfgUnsup, famName]
  · simp [assemble_cfgUnsup, famName]
  · simp [assemble_cfgDecode]
  · simp [assemble_cfgCheck]

/-- Settles O58: the expansions are the model's own; an omitted operand is read as its sentinel or 0. -/
theorem pseudoInstructionsExpand : Obligations.PseudoInstructionsExpand := by
  refine fun p => ⟨fun _ => rfl, fun _ _ => rfl, fun _ => rfl, fun _ => rfl, fun _ => rfl, fun _ _ _ => rfl,
    fun c t args key hkey h => ?_, fun c args key hkey h => ?_, fun c args h => ?_⟩
  · simp only [assemble_cfgTc, asmTc_cons_zero_of_omitted h hkey]
  · simp only [assemble_cfgDiode, asmDiode_cons_zero_of_omitted h hkey]
  · simp only [assemble_cfgDiode, asmDiode_cons_none_of_omitted h]

end Sys2Proof.Machine
end
